-- ==== Sys2Proof/Word.lean ====
section
/-! DEFINITION. The word of DelayX CORE and the names its syntax is made of: the two ports, the two sources of a
bulk copy, the three memories (00_scope R7, R10, R11; 20_memory R50, R51; 30_encoding R73). -/

namespace Sys2Proof

/-- One register or memory word, 32 bits (20_memory R51). -/
abbrev Word := BitVec 32

/-- A word read as an IEEE 754 binary32 number (00_scope R10). -/
abbrev F32 := BitVec 32

/-- A pair of words read as an IEEE 754 binary64 number (00_scope R11), the sample rate only. -/
abbrev F64 := BitVec 64

/-- The slave port a transaction arrives on (20_memory R50). -/
inductive Port where
  | host
  | control
deriving DecidableEq, Repr

/-- The source select of BWR and BADD: `S = 0` is BLK, `S = 1` is WET (30_encoding R73). -/
inductive Source where
  | blk
  | wet
deriving DecidableEq, Repr

/-- The three memories (20_memory R51). -/
inductive Space where
  | ring
  | wet
  | blk
deriving DecidableEq, Repr

end Sys2Proof
end

