-- ==== Sys2Proof/Config.lean ====
section
/-! DEFINITION. What an implementation of DelayX CORE fixes, its configuration (00_scope R18): the parameters of
00_scope R5 and the numerics record of 00_scope R13; and the free values, which the spec draws (00_scope R14, 10_state
R25, R39). -/

namespace Sys2Proof

/-- A numerics record: the five operations on samples (00_scope R13; 93_implementation_defined U13). `none` is "some
NaN" (00_scope R14), whose sign and fraction the model draws. -/
structure Config.Numerics where
  add : F32 → F32 → Option F32
  sub : F32 → F32 → Option F32
  mul : F32 → F32 → Option F32
  div : F32 → F32 → Option F32
  ofNat : Nat → F32
deriving Inhabited

/-- Which numerics record an implementation has, as plain data. -/
inductive NumericsChoice where
  /-- The instance of 00_scope R13: IEEE 754 binary32, to nearest even, unfused. -/
  | binary32
  /-- Any other record, the `n`-th: nothing is known of it (93_implementation_defined U13; entry 21). -/
  | other (n : Nat)
deriving DecidableEq, Repr

/-- The records that are not 00_scope R13's instance. A statement that does not ask for `NumericsChoice.binary32` is one
over every record (entry 21). -/
opaque Config.otherNumerics : Nat → Config.Numerics

/-- The configuration: the three `OPEN` parameters of 00_scope R5, and the numerics record of 00_scope R13. A state
carries its own (`State.conf`), so every statement over all states is one over all admissible choices (entries 4 and
21). -/
structure Configuration where
  /-- `NCH_MAX`: the largest channel count PREP accepts. -/
  nchMax : Nat
  /-- `B_MAX`: the largest block size PREP accepts. -/
  blockMax : Nat
  /-- `L_MAX`: the largest ring length PREP accepts. -/
  lenMax : Nat
  /-- The numerics record. -/
  numerics : NumericsChoice
deriving DecidableEq, Repr

/-- The constraints 00_scope R5 puts on the three parameters. -/
abbrev Configuration.Admissible (l : Configuration) : Prop :=
  (1 ≤ l.nchMax ∧ l.nchMax ≤ 15) ∧ (1 ≤ l.blockMax ∧ l.blockMax ≤ 65535) ∧
    (l.blockMax ≤ l.lenMax ∧ l.lenMax ≤ 2 ^ 31)

/-- The parameters 00_scope R5 suggests, not normative (DESIGN CHOICE, entry 4), and the instance of 00_scope R13. -/
def Config.suggested : Configuration := { nchMax := 2, blockMax := 8192, lenMax := 384000, numerics := .binary32 }

/-- The free values (93_implementation_defined U1, U2, U4): the `t`-th value the hardware does not fix. Nothing is
known of it; a step reads it at `State.draws` and counts on (entry 5). -/
opaque Config.freeWord : Nat → Word

end Sys2Proof
end

