-- ==== Sys2Proof/Machine/Numerics.lean ====
section
/-! DEFINITION. The numbers: binary32 and binary64 words as exact values (00_scope R9 to R12), the binary32
operations and the numerics record (00_scope R13, R14), the parameter ranges (10_state R35). The exact value of a finite
F32 is a whole number of units of 2^-149, that of a finite F64 a whole number of units of 2^-1074 (entry 10). -/

namespace Sys2Proof.Machine

/-! Reading a word (00_scope R10, R11). -/

def f32Negative (w : F32) : Bool := decide (2 ^ 31 ≤ w.toNat)

def f32Exponent (w : F32) : Nat := w.toNat / 2 ^ 23 % 2 ^ 8

def f32Fraction (w : F32) : Nat := w.toNat % 2 ^ 23

def f32IsNaN (w : F32) : Bool := f32Exponent w == 255 && f32Fraction w != 0

def f32IsInf (w : F32) : Bool := f32Exponent w == 255 && f32Fraction w == 0

/-- `finite(v)` (00_scope R12). -/
def f32Finite (w : F32) : Bool := f32Exponent w != 255

/-- `|real(v)|` in units of 2^-149, for a finite `v`: a subnormal is its fraction, a normal `(1 + f/2^23) * 2^(e-127)`. -/
def f32Units (w : F32) : Nat :=
  if f32Exponent w = 0 then f32Fraction w else (2 ^ 23 + f32Fraction w) * 2 ^ (f32Exponent w - 1)

/-- `real(v)` in units of 2^-149, for a finite `v` (00_scope R12). -/
def f32Scaled (w : F32) : Int := if f32Negative w then -(f32Units w : Int) else f32Units w

def f64Negative (w : F64) : Bool := decide (2 ^ 63 ≤ w.toNat)

def f64Exponent (w : F64) : Nat := w.toNat / 2 ^ 52 % 2 ^ 11

def f64Fraction (w : F64) : Nat := w.toNat % 2 ^ 52

def f64Finite (w : F64) : Bool := f64Exponent w != 2047

/-- `|real(v)|` in units of 2^-1074, for a finite `v` (00_scope R11). -/
def f64Units (w : F64) : Nat :=
  if f64Exponent w = 0 then f64Fraction w else (2 ^ 52 + f64Fraction w) * 2 ^ (f64Exponent w - 1)

/-- `finite(v)` and `0 < real(v)`: a legal sample rate (40_init R92 check 2). -/
def f64Positive (w : F64) : Bool := f64Finite w && !f64Negative w && decide (0 < f64Units w)

/-! Integers from exact values (00_scope R9). -/

/-- `rnd(num / den)`: the nearest integer, halves up (00_scope R9). -/
def rnd (num den : Nat) : Nat := (2 * num + den) / (2 * den)

/-- `cap(sr) = rnd(2 * real(sr))` (10_state R45). -/
def cap (sr : F64) : Nat := rnd (2 * f64Units sr) (2 ^ 1074)

/-- `dsamp(dt, sr) = rnd(real(dt) * real(sr))`, for `dt` and `sr` not negative (10_state R44). -/
def dsamp (dt : F32) (sr : F64) : Nat := rnd (f32Units dt * f64Units sr) (2 ^ 149 * 2 ^ 1074)

/-! The parameter ranges (10_state R35). -/

/-- A legal DELAY_TIME: finite and `0 < real(v) <= 2.0`. -/
def legalDelay (v : F32) : Bool :=
  f32Finite v && decide (0 < f32Scaled v) && decide (f32Scaled v ≤ 2 * 2 ^ 149)

/-- A legal DRY_MIX, WET_MIX or FEEDBACK: finite and `0 <= real(v) <= 1`. -/
def legalMix (v : F32) : Bool :=
  f32Finite v && decide (0 ≤ f32Scaled v) && decide (f32Scaled v ≤ 2 ^ 149)

/-! Rounding to binary32 (00_scope R13). -/

/-- The integer nearest to `num / den`, ties to even. -/
def roundHalfEven (num den : Nat) : Nat :=
  let q := num / den
  let r := num % den
  if 2 * r < den then q else if den < 2 * r then q + 1 else if q % 2 = 0 then q else q + 1

/-- The exponent and fraction bits of the binary32 nearest to `num / den` units of 2^-149, ties to even; past the
largest finite one, infinity. Below 2^24 units the spacing is one unit; from there it doubles with each binade, and a
rounding that fills the significand carries into the exponent. -/
def roundMagnitude (num den : Nat) : Nat :=
  let shift := Nat.log2 (num / den) - 23
  min (shift * 2 ^ 23 + roundHalfEven num (den * 2 ^ shift)) 0x7F800000

/-- A word from its sign and its other 31 bits. -/
def f32Pack (negative : Bool) (magnitude : Nat) : F32 :=
  BitVec.ofNat 32 ((if negative then 2 ^ 31 else 0) + magnitude)

/-- The word with the other sign. -/
def f32Negate (w : F32) : F32 := f32Pack (!f32Negative w) (w.toNat % 2 ^ 31)

def f32Infinity (negative : Bool) : F32 := f32Pack negative 0x7F800000

/-- `a + b`, rounded once; none is some NaN. An exact zero sum is `-0.0` only where both operands are negative
(IEEE 754, round to nearest). -/
def binary32Add (a b : F32) : Option F32 :=
  if f32IsNaN a || f32IsNaN b then none
  else if f32IsInf a then (if f32IsInf b && f32Negative a != f32Negative b then none else some a)
  else if f32IsInf b then some b
  else
    let sum := f32Scaled a + f32Scaled b
    let negative := if sum = 0 then f32Negative a && f32Negative b else decide (sum < 0)
    some (f32Pack negative (roundMagnitude sum.natAbs 1))

/-- `a - b`, rounded once. -/
def binary32Sub (a b : F32) : Option F32 := binary32Add a (f32Negate b)

/-- `a * b`, rounded once; none is some NaN (a zero times an infinity among them, 00_scope R14). -/
def binary32Mul (a b : F32) : Option F32 :=
  let negative := f32Negative a != f32Negative b
  if f32IsNaN a || f32IsNaN b then none
  else if f32IsInf a || f32IsInf b then
    (if (f32Finite a && f32Units a == 0) || (f32Finite b && f32Units b == 0) then none
     else some (f32Infinity negative))
  else some (f32Pack negative (roundMagnitude (f32Units a * f32Units b) (2 ^ 149)))

/-- `a / b`, rounded once; none is some NaN (`0 / 0` and infinity by infinity, 00_scope R14). -/
def binary32Div (a b : F32) : Option F32 :=
  let negative := f32Negative a != f32Negative b
  if f32IsNaN a || f32IsNaN b then none
  else if f32IsInf a then (if f32IsInf b then none else some (f32Infinity negative))
  else if f32IsInf b then some (f32Pack negative 0)
  else if f32Units b = 0 then (if f32Units a = 0 then none else some (f32Infinity negative))
  else some (f32Pack negative (roundMagnitude (f32Units a * 2 ^ 149) (f32Units b)))

/-- `u2f(n)`: exact for `n < 2^16` (00_scope R13). -/
def binary32OfNat (n : Nat) : F32 := f32Pack false (roundMagnitude (n * 2 ^ 149) 1)

/-- The numerics record's instance: IEEE 754 binary32, to nearest even, unfused (00_scope R13). -/
def binary32 : Config.Numerics where
  add := binary32Add
  sub := binary32Sub
  mul := binary32Mul
  div := binary32Div
  ofNat := binary32OfNat

/-- The record a configuration names. -/
def numericsRecord (c : NumericsChoice) : Config.Numerics :=
  match c with
  | .binary32 => binary32
  | .other n => Config.otherNumerics n

/-! The operations as a command uses them, with the numerics record `c` of the configuration: a NaN is the `t`-th free
value (00_scope R14). -/

/-- The NaN a free word picks: exponent 255, a fraction that is not 0. Every NaN word is picked by some free word. -/
def nanWord (b : Word) : F32 :=
  f32Pack (f32Negative b) (255 * 2 ^ 23 + (if f32Fraction b = 0 then 1 else f32Fraction b))

/-- The result of an operation whose free value, should it need one, is the `t`-th. -/
def settle (t : Nat) (r : Option F32) : F32 := r.getD (nanWord (Config.freeWord t))

def fadd (c : Config.Numerics) (t : Nat) (a b : F32) : F32 := settle t (c.add a b)

def fsub (c : Config.Numerics) (t : Nat) (a b : F32) : F32 := settle t (c.sub a b)

def fmul (c : Config.Numerics) (t : Nat) (a b : F32) : F32 := settle t (c.mul a b)

def fdiv (c : Config.Numerics) (t : Nat) (a b : F32) : F32 := settle t (c.div a b)

def u2f (c : Config.Numerics) (n : Nat) : F32 := c.ofNat n

end Sys2Proof.Machine
end

