-- ==== Sys2Proof/Syntax.lean ====
section
/-! DEFINITION. The operations of DelayX CORE, one constructor per row of spec/opcode_table.json
(30_encoding R71, R72, R74). -/

namespace Sys2Proof

/-- A command or a setter. Counts and channel indices are unsigned integers used as they stand (30_encoding R73);
`Instr.WellFormed` holds them to the width of their fields. -/
inductive Instr where
  /-- NOP (40_init R90). -/
  | nop
  /-- RST (40_init R91). -/
  | rst
  /-- PREP (40_init R92). -/
  | prep
  /-- PROC `nout, nin, n` (41_process R100). -/
  | proc (nout nin n : Nat)
  /-- BWR `ch, n` from `src` (42_bulk R113). -/
  | bwr (ch : Nat) (src : Source) (n : Nat)
  /-- BRD `ch, n` (42_bulk R114). -/
  | brd (ch n : Nat)
  /-- BADD `ch, n` from `src` (42_bulk R115). -/
  | badd (ch : Nat) (src : Source) (n : Nat)
  /-- ADV `n` (42_bulk R116). -/
  | adv (n : Nat)
  /-- SETDT on a port, the delay time in seconds (43_parameters R126). -/
  | setdt (port : Port) (v : F32)
  /-- SETDRY on a port (43_parameters R127). -/
  | setdry (port : Port) (v : F32)
  /-- SETWET on a port (43_parameters R128). -/
  | setwet (port : Port) (v : F32)
  /-- SETFB on a port (43_parameters R129). -/
  | setfb (port : Port) (v : F32)
deriving DecidableEq, Repr

end Sys2Proof
end

