-- ==== Sys2Proof/WellFormed.lean ====
section
/-! DEFINITION. The operands a command word can carry (30_encoding R71, R73). -/

namespace Sys2Proof

/-- Every count and index fits its field: NIN, NOUT and CH are 4 bits, N is 16 bits (30_encoding R73). -/
def Instr.fits : Instr → Bool
  | .nop => true
  | .rst => true
  | .prep => true
  | .proc nout nin n => decide (nout < 16) && decide (nin < 16) && decide (n < 65536)
  | .bwr ch _ n => decide (ch < 16) && decide (n < 65536)
  | .brd ch n => decide (ch < 16) && decide (n < 65536)
  | .badd ch _ n => decide (ch < 16) && decide (n < 65536)
  | .adv n => decide (n < 65536)
  | .setdt _ _ => true
  | .setdry _ _ => true
  | .setwet _ _ => true
  | .setfb _ _ => true

/-- `i` is an operation a transaction can encode. -/
abbrev Instr.WellFormed (i : Instr) : Prop := i.fits = true

end Sys2Proof
end

