-- ==== Sys2Proof/Decode.lean ====
section
/-! DEFINITION. Decoding: command words (30_encoding R70 to R79, R86), port addresses (20_memory R53, R54, R65),
and the encoder. Decoding reads no state. -/

namespace Sys2Proof

/-- One access on a port (00_scope R16): a host-port address has 24 bits, a control-port address 20
(20_memory R53, R54). -/
inductive Transaction where
  | hostRead (addr : BitVec 24)
  | hostWrite (addr : BitVec 24) (data : Word)
  | controlRead (addr : BitVec 20)
  | controlWrite (addr : BitVec 20) (data : Word)
deriving DecidableEq, Repr

/-- The registers of the REG space (10_state R22). -/
inductive RegName where
  | cmd | status | srLo | srHi | blockSize | numCh | gainStart | gainEnd
  | bufLen | wrPos | rdPos | delaySamples | cfgBlock | cfgNch | cfgSrLo | cfgSrHi
  | delayTime | dryMix | wetMix | feedback
deriving DecidableEq, Repr

/-- The six operand registers (10_state R24, 43_parameters R130). -/
inductive OperandReg where
  | srLo | srHi | blockSize | numCh | gainStart | gainEnd
deriving DecidableEq, Repr

/-- Why a command word is illegal. -/
inductive Reject where
  /-- OPC 0x8 to 0xF (30_encoding R78). -/
  | reservedOpcode
  /-- A 1 in a zero field (30_encoding R79). -/
  | zeroField
  /-- BRD with `S = 1` (30_encoding R79). -/
  | brdSource
deriving DecidableEq, Repr

/-- What a transaction asks for. -/
inductive Decoded where
  /-- A command or a setter. -/
  | run (i : Instr)
  /-- A CMD write of an illegal word. -/
  | illegal (why : Reject)
  /-- A write of an operand register (43_parameters R130). -/
  | operand (r : OperandReg) (v : Word)
  /-- A read of a register (43_parameters R131). -/
  | register (r : RegName)
  /-- A read of the WET window (43_parameters R132). -/
  | window (c k : Nat)
  /-- A read 20_memory R65 forbids whatever the state. -/
  | forbiddenRead
  /-- A write 20_memory R65 forbids. -/
  | forbiddenWrite
deriving DecidableEq, Repr

/-- `w[hi:lo]` as an unsigned integer (00_scope R7). -/
def field (w hi lo : Nat) : Nat := w / 2 ^ lo % 2 ^ (hi + 1 - lo)

/-- `S = w[23]`: 0 is BLK, 1 is WET (30_encoding R73). -/
def sourceOf (b : Nat) : Source := if b = 0 then .blk else .wet

/-- The bit `S` of a source. -/
def sourceBit : Source → Nat
  | .blk => 0
  | .wet => 1

/-- The command a word encodes, or why it is illegal (30_encoding R71, R74, R78, R79, R86). -/
def decodeCommand (word : Word) : Except Reject Instr :=
  let w := word.toNat
  match field w 31 28 with
  | 0 => if field w 27 0 = 0 then .ok .nop else .error .zeroField
  | 1 => if field w 27 0 = 0 then .ok .rst else .error .zeroField
  | 2 => if field w 27 0 = 0 then .ok .prep else .error .zeroField
  | 3 => if field w 19 16 = 0 then .ok (.proc (field w 27 24) (field w 23 20) (field w 15 0))
      else .error .zeroField
  | 4 => if field w 22 16 = 0 then .ok (.bwr (field w 27 24) (sourceOf (field w 23 23)) (field w 15 0))
      else .error .zeroField
  | 5 => if field w 22 16 ≠ 0 then .error .zeroField
      else if field w 23 23 ≠ 0 then .error .brdSource
      else .ok (.brd (field w 27 24) (field w 15 0))
  | 6 => if field w 22 16 = 0 then .ok (.badd (field w 27 24) (sourceOf (field w 23 23)) (field w 15 0))
      else .error .zeroField
  | 7 => if field w 27 16 = 0 then .ok (.adv (field w 15 0)) else .error .zeroField
  | _ => .error .reservedOpcode

/-- The register at a REG word address (10_state R22). -/
def registerAt (a : Nat) : Option RegName :=
  match a with
  | 0x00 => some .cmd
  | 0x01 => some .status
  | 0x02 => some .srLo
  | 0x03 => some .srHi
  | 0x04 => some .blockSize
  | 0x05 => some .numCh
  | 0x06 => some .gainStart
  | 0x07 => some .gainEnd
  | 0x08 => some .bufLen
  | 0x09 => some .wrPos
  | 0x0A => some .rdPos
  | 0x0B => some .delaySamples
  | 0x0C => some .cfgBlock
  | 0x0D => some .cfgNch
  | 0x0E => some .cfgSrLo
  | 0x0F => some .cfgSrHi
  | 0x10 => some .delayTime
  | 0x11 => some .dryMix
  | 0x12 => some .wetMix
  | 0x13 => some .feedback
  | _ => none

/-- A write of a parameter register on either port is a setter (43_parameters R125); any other register is none. -/
def setterAt (port : Port) (r : RegName) (v : Word) : Option Instr :=
  match r with
  | .delayTime => some (.setdt port v)
  | .dryMix => some (.setdry port v)
  | .wetMix => some (.setwet port v)
  | .feedback => some (.setfb port v)
  | _ => none

/-- What a host-port write to a register asks for (10_state R22 column H; 20_memory R65). -/
def decodeHostRegWrite (r : RegName) (v : Word) : Decoded :=
  match r with
  | .cmd =>
    match decodeCommand v with
    | .ok i => .run i
    | .error why => .illegal why
  | .srLo => .operand .srLo v
  | .srHi => .operand .srHi v
  | .blockSize => .operand .blockSize v
  | .numCh => .operand .numCh v
  | .gainStart => .operand .gainStart v
  | .gainEnd => .operand .gainEnd v
  | .delayTime => .run (.setdt .host v)
  | .dryMix => .run (.setdry .host v)
  | .wetMix => .run (.setwet .host v)
  | .feedback => .run (.setfb .host v)
  | .status | .bufLen | .wrPos | .rdPos | .delaySamples => .forbiddenWrite
  | .cfgBlock | .cfgNch | .cfgSrLo | .cfgSrHi => .forbiddenWrite

/-- What a transaction asks for (20_memory R53, R54, R65): the address checks, then the decoding of a command word
(60_exceptions R143). -/
def decodeTransaction : Transaction → Decoded
  | .hostRead addr =>
    match field addr.toNat 23 20 with
    | 0 =>
      match registerAt (field addr.toNat 19 0) with
      | some r => .register r
      | none => .forbiddenRead
    | 1 => .window (field addr.toNat 19 16) (field addr.toNat 15 0)
    | _ => .forbiddenRead
  | .hostWrite addr v =>
    match field addr.toNat 23 20 with
    | 0 =>
      match registerAt (field addr.toNat 19 0) with
      | some r => decodeHostRegWrite r v
      | none => .forbiddenWrite
    | _ => .forbiddenWrite
  | .controlRead _ => .forbiddenRead
  | .controlWrite addr v =>
    match (registerAt addr.toNat).bind (fun r => setterAt .control r v) with
    | some i => .run i
    | none => .forbiddenWrite

/-! The encoder. -/

/-- The command word of a command (30_encoding R71, R74, R83); a setter has none. -/
def encodeCommand : Instr → Option Word
  | .nop => some 0x00000000
  | .rst => some 0x10000000
  | .prep => some 0x20000000
  | .proc nout nin n => some (BitVec.ofNat 32 (0x30000000 + nout * 2 ^ 24 + nin * 2 ^ 20 + n))
  | .bwr ch src n => some (BitVec.ofNat 32 (0x40000000 + ch * 2 ^ 24 + sourceBit src * 2 ^ 23 + n))
  | .brd ch n => some (BitVec.ofNat 32 (0x50000000 + ch * 2 ^ 24 + n))
  | .badd ch src n => some (BitVec.ofNat 32 (0x60000000 + ch * 2 ^ 24 + sourceBit src * 2 ^ 23 + n))
  | .adv n => some (BitVec.ofNat 32 (0x70000000 + n))
  | .setdt _ _ => none
  | .setdry _ _ => none
  | .setwet _ _ => none
  | .setfb _ _ => none

/-- The REG write of a setter on a port (30_encoding R72, R74). -/
def encodeSetter (port : Port) (addr : Nat) (v : Word) : Transaction :=
  match port with
  | .host => .hostWrite (BitVec.ofNat 24 addr) v
  | .control => .controlWrite (BitVec.ofNat 20 addr) v

/-- The host write of CMD that starts a command (30_encoding R70). -/
def encodeStart (i : Instr) : Transaction := .hostWrite 0 ((encodeCommand i).getD 0)

/-- The transaction that asks for an operation: a host write of CMD, or a setter's REG write
(30_encoding R70, R72, R83). -/
def encode : Instr → Transaction
  | .nop => encodeStart .nop
  | .rst => encodeStart .rst
  | .prep => encodeStart .prep
  | .proc nout nin n => encodeStart (.proc nout nin n)
  | .bwr ch src n => encodeStart (.bwr ch src n)
  | .brd ch n => encodeStart (.brd ch n)
  | .badd ch src n => encodeStart (.badd ch src n)
  | .adv n => encodeStart (.adv n)
  | .setdt port v => encodeSetter port 0x10 v
  | .setdry port v => encodeSetter port 0x11 v
  | .setwet port v => encodeSetter port 0x12 v
  | .setfb port v => encodeSetter port 0x13 v

/-! The opcode table's own numbering. -/

/-- The transaction whose bits the opcode table numbers `w`: a row of 32 bits is a word written to CMD; a row of
format W is a REG address, 20 bits in 24, and its data word lies above the row's bits, so it is 0
(30_encoding R72; entry 12). -/
def tableTransaction (nbits w : Nat) : Transaction :=
  if nbits ≤ 24 then .hostWrite (BitVec.ofNat 24 w) 0 else .hostWrite 0 (BitVec.ofNat 32 w)

/-- What the decoder reads from a row's bits; none where it refuses. -/
def decodeTableWord (nbits w : Nat) : Option Instr :=
  match decodeTransaction (tableTransaction nbits w) with
  | .run i => some i
  | _ => none

end Sys2Proof
end

