-- ==== Sys2Proof/Machine/State.lean ====
section
/-! DEFINITION. The state of DelayX CORE (10_state R20 to R43), why a step can stop, and the state after reset
(10_state R42). Plain data. -/

namespace Sys2Proof.Machine

/-- A memory as (word address, word) pairs, addresses rising. The smallest unit the spec addresses is the word
(20_memory R51, R56), so the cells are words (entry 9). `Memory.wf` is the canonical form. -/
abbrev Memory := List (Nat × Word)

/-- The canonical form: addresses strictly rising, and no entry equal to what an unlisted address reads as
(`fill`; none where an unlisted word holds no value). -/
abbrev Memory.wf (fill : Option Word) (m : Memory) : Prop :=
  m.Pairwise (fun x y => x.1 < y.1) ∧ ∀ x ∈ m, fill ≠ some x.2

/-- A host-writable storage register: its bits and its hidden *set* mark (10_state R25). -/
structure HostReg where
  bits : Word
  isSet : Bool
deriving DecidableEq, Repr

/-- A host-writable register after reset: the mark is clear (10_state R25, R42); its bits are 0 (DESIGN CHOICE,
entry 6), which nothing reads while the mark is clear. -/
def HostReg.unset : HostReg := { bits := 0, isSet := false }

/-- A host-writable register a done write has stored `v` in (10_state R25). -/
def HostReg.written (v : Word) : HostReg := { bits := v, isSet := true }

/-- The fault codes (60_exceptions R141). -/
inductive ErrCode where
  | illegalCmd
  | config
  | unset
  | notPrepared
  | badOperand
  | badParam
  | badAddr
deriving DecidableEq, Repr

/-- The three outcomes of a transaction (00_scope R16). -/
inductive TxnResult where
  | done
  | fault (code : ErrCode)
  | discarded
deriving DecidableEq, Repr

/-- How the last transaction ended, and the word a read returned. -/
structure Answer where
  result : TxnResult
  data : Option Word
deriving DecidableEq, Repr

/-- What reaches the engine from outside, in order of arrival (20_memory R50, R57; entries 1 and 14). -/
inductive Event where
  /-- An access on a slave port. -/
  | transaction (t : Transaction)
  /-- The host writes a word of its own block memory, between commands (20_memory R64). -/
  | hostBlk (ch : BitVec 4) (i : BitVec 16) (v : Word)
  /-- Hardware reset (10_state R42). -/
  | reset
deriving DecidableEq, Repr

/-- The whole state (10_state R20, R22), and the model's own four fields. -/
structure State where
  /-- STATUS bit 0 (10_state R28). -/
  busy : Bool
  /-- STATUS bit 1 (10_state R28). -/
  prepared : Bool
  /-- STATUS bits 15:8; none is 0x00 (60_exceptions R141). -/
  err : Option ErrCode
  /-- The operand registers (10_state R23, R24). -/
  srLo : HostReg
  srHi : HostReg
  blockSize : HostReg
  numCh : HostReg
  gainStart : HostReg
  gainEnd : HostReg
  /-- The geometry registers (10_state R30 to R34). -/
  bufLen : Word
  wrPos : Word
  rdPos : Word
  delaySamples : Word
  cfgBlock : Word
  cfgNch : Word
  cfgSrLo : Word
  cfgSrHi : Word
  /-- The parameters (10_state R35). -/
  delayTime : HostReg
  dryMix : HostReg
  wetMix : HostReg
  feedback : HostReg
  /-- The delay buffer (10_state R38); an unlisted word is `+0.0`. -/
  ring : Memory
  /-- The scratch (10_state R39); an unlisted word is unwritten. -/
  wet : Memory
  /-- The host's audio block (10_state R40); an unlisted word is `+0.0` (entry 8). -/
  blk : Memory
  /-- The model's own: what has arrived and is not yet taken, oldest first (entry 1). -/
  inbox : List Event
  /-- The model's own: how the last transaction ended (00_scope R16, R19; entry 17). -/
  answer : Option Answer
  /-- The model's own: how many free values have been used (entry 5). -/
  draws : Nat
  /-- The model's own: the configuration (00_scope R5, R13, R18), changed by no step (entries 4 and 21). -/
  conf : Configuration
deriving DecidableEq, Repr

/-- Why the machine stops. -/
inductive Fault where
  /-- A command would touch, or leave a cursor at, a word of `space` that 20_memory R52 says does not exist.
  Raised by PREP, PROC, BWR, BRD, BADD, ADV and SETDT in states that break the invariants of 10_state R36, which no
  run reaches, and by PROC, BWR, BRD, BADD on operands no command word carries. Safe (entry 11). -/
  | noSuchWord (space : Space)
deriving DecidableEq, Repr

/-- Why an instruction has no meaning. -/
inductive Refusal where
  /-- Raised by an arm of exec whose instruction is not modelled yet. Safe. No arm raises it today. -/
  | notModelled (mnemonic : String)
deriving DecidableEq, Repr

/-- What a step of this machine answers. -/
abbrev StepResult := Host.Outcome State Fault Refusal

/-- The machine right after reset, for an implementation with the configuration `l` (10_state R42). -/
def State.resetWith (l : Configuration) : State where
  busy := false
  prepared := false
  err := none
  srLo := .unset
  srHi := .unset
  blockSize := .unset
  numCh := .unset
  gainStart := .unset
  gainEnd := .unset
  bufLen := 0
  wrPos := 0
  rdPos := 0
  delaySamples := 0
  cfgBlock := 0
  cfgNch := 0
  cfgSrLo := 0
  cfgSrHi := 0
  delayTime := .unset
  dryMix := .unset
  wetMix := .unset
  feedback := .unset
  ring := []
  wet := []
  blk := []
  inbox := []
  answer := none
  draws := 0
  conf := l

/-- The machine right after reset, with the parameters 00_scope R5 suggests (entry 4) and the numerics of
00_scope R13. -/
def State.reset : State := State.resetWith Config.suggested

end Sys2Proof.Machine
end

