-- ==== Sys2Proof/Machine/Ops.lean ====
section
/-! DEFINITION. The named operations over memories and registers, fault entry (60_exceptions R142 to R145) and the
return from it (60_exceptions R147), and the sequential loop of 00_scope R15. -/

namespace Sys2Proof.Machine

/-! Memory, by words. -/

/-- The word listed at an address. -/
def Memory.lookup : Memory → Nat → Option Word
  | [], _ => none
  | (k, v) :: m, a => if k = a then some v else Memory.lookup m a

/-- The list with `(a, v)` in its place. -/
def Memory.insert : Memory → Nat → Word → Memory
  | [], a, v => [(a, v)]
  | (k, x) :: m, a, v =>
    if a < k then (a, v) :: (k, x) :: m
    else if a = k then (a, v) :: m
    else (k, x) :: Memory.insert m a v

/-- The list without an address. -/
def Memory.erase (m : Memory) (a : Nat) : Memory := m.filter (fun x => x.1 != a)

/-- The word at an address, or what an unlisted one reads as. -/
def Memory.read (fill : Option Word) (m : Memory) (a : Nat) : Option Word := (Memory.lookup m a).or fill

/-- A write that keeps the canonical form. -/
def Memory.write (fill : Option Word) (m : Memory) (a : Nat) (v : Word) : Memory :=
  if fill = some v then Memory.erase m a else Memory.insert m a v

/-- What an unlisted word of a space reads as: RING and BLK `+0.0` (10_state R38; entries 7 and 8), WET nothing
(10_state R39). -/
def fillOf : Space → Option Word
  | .ring => some 0
  | .wet => none
  | .blk => some 0

/-- The address of `ring[c][j]`: 4 bits of region over 32 of index (20_memory R51, R52). -/
def ringAddr (c j : Nat) : Nat := c * 2 ^ 32 + j

/-- The address of `wet[c][k]` and of `blk[ch][i]` (20_memory R52). -/
def blockAddr (c k : Nat) : Nat := c * 65536 + k

/-- `ring[c][j]`. -/
def ringRead (m : Memory) (c j : Nat) : F32 := (Memory.read (fillOf .ring) m (ringAddr c j)).getD 0

/-- `ring[c][j] <- v`. -/
def ringWrite (m : Memory) (c j : Nat) (v : F32) : Memory := Memory.write (fillOf .ring) m (ringAddr c j) v

/-- `wet[c][k]`, none while it is unwritten (10_state R39). -/
def wetRead (m : Memory) (c k : Nat) : Option F32 := Memory.read (fillOf .wet) m (blockAddr c k)

/-- `wet[c][k] <- v`: the word becomes written. -/
def wetWrite (m : Memory) (c k : Nat) (v : F32) : Memory := Memory.write (fillOf .wet) m (blockAddr c k) v

/-- `blk[ch][i]`. -/
def blkRead (m : Memory) (ch i : Nat) : F32 := (Memory.read (fillOf .blk) m (blockAddr ch i)).getD 0

/-- `blk[ch][i] <- v`. -/
def blkWrite (m : Memory) (ch i : Nat) (v : F32) : Memory := Memory.write (fillOf .blk) m (blockAddr ch i) v

/-! Loops. -/

/-- `for k in 0 .. n-1: x <- f k x`, ascending, nothing where `n = 0` (00_scope R15). -/
def upTo {α : Type} (f : Nat → α → α) : Nat → α → α
  | 0, x => x
  | n + 1, x => f n (upTo f n x)

/-! Named updates of the state. -/

/-- The oldest event is taken; `rest` stays. -/
def State.dequeue (rest : List Event) (s : State) : State := { s with inbox := rest }

/-- A transaction that is done; a read returns `data` (00_scope R16). -/
def State.finish (data : Option Word) (s : State) : State := { s with answer := some ⟨.done, data⟩ }

/-- Fault entry: `ERR <- code` if `ERR = 0`; nothing else is saved (60_exceptions R144; 00_scope R15). A faulting
read returns `data`. -/
def State.raise (code : ErrCode) (data : Option Word) (s : State) : State :=
  { s with err := s.err.or (some code), answer := some ⟨.fault code, data⟩ }

/-- A transaction discarded while `ERR ≠ 0`: nothing changes (60_exceptions R145). -/
def State.discard (data : Option Word) (s : State) : State := { s with answer := some ⟨.discarded, data⟩ }

/-- The return from the faulted state, by RST or reset: every piece of the engine's state takes its reset value
(10_state R42; 40_init R91; 60_exceptions R147). BLK is the host's and stays; so do the model's own fields
(entry 15). -/
def State.softReset (s : State) : State :=
  { State.resetWith s.conf with blk := s.blk, inbox := s.inbox, answer := s.answer, draws := s.draws }

/-- The command in flight completes (10_state R28). -/
def State.complete (s : State) : State := { s with busy := false }

/-- The next `n` free values are used. -/
def State.drawn (n : Nat) (s : State) : State := { s with draws := s.draws + n }

/-- An operand register is written (43_parameters R130). -/
def State.putOperand (r : OperandReg) (v : Word) (s : State) : State :=
  match r with
  | .srLo => { s with srLo := .written v }
  | .srHi => { s with srHi := .written v }
  | .blockSize => { s with blockSize := .written v }
  | .numCh => { s with numCh := .written v }
  | .gainStart => { s with gainStart := .written v }
  | .gainEnd => { s with gainEnd := .written v }

/-- `DELAY_TIME <- v`. -/
def State.putDelayTime (v : F32) (s : State) : State := { s with delayTime := .written v }

/-- `DRY_MIX <- v`. -/
def State.putDryMix (v : F32) (s : State) : State := { s with dryMix := .written v }

/-- `WET_MIX <- v`. -/
def State.putWetMix (v : F32) (s : State) : State := { s with wetMix := .written v }

/-- `FEEDBACK <- v`. -/
def State.putFeedback (v : F32) (s : State) : State := { s with feedback := .written v }

/-- `DELAY_SAMPLES <- d`, `RD_POS <- rd`. -/
def State.putDelay (d rd : Nat) (s : State) : State :=
  { s with delaySamples := BitVec.ofNat 32 d, rdPos := BitVec.ofNat 32 rd }

/-- `WR_POS <- wr`, `RD_POS <- rd`. -/
def State.putCursors (wr rd : Nat) (s : State) : State :=
  { s with wrPos := BitVec.ofNat 32 wr, rdPos := BitVec.ofNat 32 rd }

def State.putRing (m : Memory) (s : State) : State := { s with ring := m }

def State.putWet (m : Memory) (s : State) : State := { s with wet := m }

def State.putBlk (m : Memory) (s : State) : State := { s with blk := m }

/-- What PREP latches: the copies of its operands and the length `len`; RING silent, every WET word unwritten,
`WR_POS = 0`, `PREPARED = 1` (40_init R92; 10_state R34, R38, R39). -/
def State.configure (len : Nat) (s : State) : State :=
  { s with
    cfgSrLo := s.srLo.bits, cfgSrHi := s.srHi.bits, cfgBlock := s.blockSize.bits, cfgNch := s.numCh.bits
    bufLen := BitVec.ofNat 32 len, ring := [], wet := [], wrPos := 0, prepared := true }

/-! The frame of every transaction but RST. -/

/-- Taken while `ERR ≠ 0`, it is discarded; else the first check that fails is raised; else it does its work
(60_exceptions R142, R143, R145). -/
def State.transact (s : State) (check : Option ErrCode) (work : StepResult) : StepResult :=
  if s.err.isSome then .next (s.discard none)
  else
    match check with
    | some code => .next (s.raise code none)
    | none => work

end Sys2Proof.Machine
end

