-- ==== Sys2Proof/Machine/Operands.lean ====
section
/-! DEFINITION. The operand forms: the sample rate, the channel clamp (41_process R103), the split of a span
(42_bulk R111), the gain ramp (42_bulk R112), the wrap of a cursor (20_memory R66), the checks commands make
(60_exceptions R143), and the words a command may touch (20_memory R52). -/

namespace Sys2Proof.Machine

/-- The numerics record of the configuration (00_scope R13, R18). -/
def State.numerics (s : State) : Config.Numerics := numericsRecord s.conf.numerics

/-- `SR = SR_HI ++ SR_LO`, the operand of PREP (10_state R23). -/
def State.sampleRate (s : State) : F64 := s.srHi.bits ++ s.srLo.bits

/-- `CFG_SR`, PREP's copy (10_state R34). -/
def State.cfgRate (s : State) : F64 := s.cfgSrHi ++ s.cfgSrLo

/-- `L` (10_state R30). -/
def State.len (s : State) : Nat := s.bufLen.toNat

/-- The delay channel of block channel `ch`: `min(ch, NCH-1)` (41_process R103). -/
def State.delayChannel (s : State) (ch : Nat) : Nat := min ch (s.cfgNch.toNat - 1)

/-- A cursor one further, 0 at `len` (41_process R101). -/
def bump (len pos : Nat) : Nat := if pos + 1 = len then 0 else pos + 1

/-- The read cursor of delay `d` behind `wr`: `(WR_POS + L - D) mod L` (10_state R32, R37). -/
def readCursor (len wr d : Nat) : Nat := (wr + len - d) % len

/-- `n1 = min(n, L - pos)`, the first sub-copy of a span (42_bulk R111). -/
def firstPart (len pos n : Nat) : Nat := min n (len - pos)

/-- `idx(k)`, the ring position of element `k` of a span (42_bulk R111). -/
def spanIndex (len pos n k : Nat) : Nat :=
  if k < firstPart len pos n then pos + k else k - firstPart len pos n

/-! The gain ramp (42_bulk R112). A bulk command of `n ≥ 1` elements that starts at the `t`-th free value uses the
values `t` and `t + 1` for the increment and four for each element. -/

/-- The first free value of element `k`. -/
def bulkDraw (t k : Nat) : Nat := t + 2 + 4 * k

/-- `inc = fdiv(fsub(GE, GS), u2f(n))`. -/
def gainStep (c : Config.Numerics) (t : Nat) (gs ge : F32) (n : Nat) : F32 :=
  fdiv c (t + 1) (fsub c t ge gs) (u2f c n)

/-- `g_k`: `g_0 = GS`, `g_(k+1) = fadd(g_k, inc)`. -/
def gainAt (c : Config.Numerics) (t : Nat) (gs inc : F32) : Nat → F32
  | 0 => gs
  | k + 1 => fadd c (bulkDraw t k + 3) (gainAt c t gs inc k) inc

/-- The gain of element `k` of a bulk command of `n` elements. -/
def State.gain (s : State) (n k : Nat) : F32 :=
  gainAt s.numerics s.draws s.gainStart.bits (gainStep s.numerics s.draws s.gainStart.bits s.gainEnd.bits n) k

/-- Element `k` of the source of BWR and BADD: `blk[CH][k]`, or `wet[dc][k]`, a free value while that word is
unwritten (42_bulk R110, R113; 10_state R39). -/
def State.sourceWord (s : State) (ch : Nat) (src : Source) (k : Nat) : F32 :=
  match src with
  | .blk => blkRead s.blk ch k
  | .wet => (wetRead s.wet (s.delayChannel ch) k).getD (Config.freeWord (bulkDraw s.draws k))

/-- How many free values a bulk command of `n` elements uses; none where `n = 0` (42_bulk R110). -/
def bulkDraws (n : Nat) : Nat := if n = 0 then 0 else 2 + 4 * n

/-! Entry checks: the first that fails, by the order of 60_exceptions R143. -/

/-- PREP (40_init R92, checks 1 to 5). -/
def State.prepCheck (s : State) : Option ErrCode :=
  if !(s.srLo.isSet && s.srHi.isSet && s.blockSize.isSet && s.numCh.isSet && s.delayTime.isSet) then some .unset
  else if !f64Positive s.sampleRate then some .config
  else if s.blockSize.bits.toNat = 0 ∨ s.conf.blockMax < s.blockSize.bits.toNat then some .config
  else if s.numCh.bits.toNat = 0 ∨ s.conf.nchMax < s.numCh.bits.toNat then some .config
  else if cap s.sampleRate = 0 ∨ s.conf.lenMax < cap s.sampleRate ∨ cap s.sampleRate < s.blockSize.bits.toNat then
    some .config
  else none

/-- PROC (41_process R100, checks 1 to 3). -/
def State.procCheck (nin n : Nat) (s : State) : Option ErrCode :=
  if !s.prepared then some .notPrepared
  else if !(s.dryMix.isSet && s.wetMix.isSet && s.feedback.isSet) then some .unset
  else if nin = 0 ∨ s.cfgBlock.toNat < n then some .badOperand
  else none

/-- BWR, BRD and BADD (42_bulk R110, checks 1 to 3). -/
def State.bulkCheck (n : Nat) (s : State) : Option ErrCode :=
  if !s.prepared then some .notPrepared
  else if !(s.gainStart.isSet && s.gainEnd.isSet) then some .unset
  else if s.cfgBlock.toNat < n then some .badOperand
  else none

/-- ADV (42_bulk R116). -/
def State.advCheck (s : State) : Option ErrCode := if !s.prepared then some .notPrepared else none

/-- SETDT (43_parameters R126). -/
def delayCheck (v : F32) : Option ErrCode := if legalDelay v then none else some .badParam

/-- SETDRY, SETWET, SETFB (43_parameters R127 to R129). -/
def mixCheck (v : F32) : Option ErrCode := if legalMix v then none else some .badParam

/-! The words a command may touch (20_memory R52). In a state that keeps 10_state R36 they always exist
(entry 11). -/

/-- Every cursor names a ring word, and a block fits the ring. -/
def State.ringReady (s : State) : Bool :=
  decide (1 ≤ s.cfgNch.toNat) && decide (s.cfgBlock.toNat ≤ s.len) && decide (s.wrPos.toNat < s.len) &&
    decide (s.rdPos.toNat < s.len)

/-- `blk[ch][i]` exists for `ch < channels`, `i < n`. -/
def blkReady (channels n : Nat) : Bool := decide (channels ≤ 16) && decide (n ≤ 65536)

/-- The work of a command that touches RING words and block channels, where those words exist. -/
def State.touching (s : State) (channels n : Nat) (work : State) : StepResult :=
  if !s.ringReady then .fault (.noSuchWord .ring)
  else if !blkReady channels n then .fault (.noSuchWord .blk)
  else .next work

/-- The work of a command that places the read cursor `d` samples back in a ring of `len` words, where such a cursor
exists (10_state R46). -/
def retuning (len d : Nat) (work : State) : StepResult :=
  if len = 0 ∨ len < d then .fault (.noSuchWord .ring) else .next work

end Sys2Proof.Machine
end

