-- ==== Sys2Proof/Machine/Bulk.lean ====
section
/-! DEFINITION. The wraparound-safe bulk copies BWR, BRD, BADD and the cursor step ADV (42_bulk R110 to R116). -/

namespace Sys2Proof.Machine

/-- `idx(k)` of the span of `n` words at the write cursor (42_bulk R110, R111). -/
def State.writeIndex (s : State) (n k : Nat) : Nat := spanIndex s.len s.wrPos.toNat n k

/-- `idx(k)` of the span of `n` words at the read cursor (42_bulk R110, R111). -/
def State.readIndex (s : State) (n k : Nat) : Nat := spanIndex s.len s.rdPos.toNat n k

/-- `fmul(g_k, src_k)`, the attenuated source element of BWR and BADD (42_bulk R113, R115). -/
def State.scaledSource (s : State) (ch : Nat) (src : Source) (n k : Nat) : F32 :=
  fmul s.numerics (bulkDraw s.draws k + 1) (s.gain n k) (s.sourceWord ch src k)

/-- Element `k` of BWR (42_bulk R113). -/
def State.bwrElement (s : State) (ch : Nat) (src : Source) (n k : Nat) (ring : Memory) : Memory :=
  ringWrite ring (s.delayChannel ch) (s.writeIndex n k) (s.scaledSource ch src n k)

/-- BWR: the block overwrites a span of the ring at the write cursor (42_bulk R113). -/
def execBwr (ch : Nat) (src : Source) (n : Nat) (s : State) : StepResult :=
  s.transact (s.bulkCheck n)
    (s.touching (ch + 1) n
      (((s.putRing (upTo (s.bwrElement ch src n) n s.ring)).drawn (bulkDraws n)).finish none))

/-- Element `k` of BRD (42_bulk R114). -/
def State.brdElement (s : State) (ch n k : Nat) (wet : Memory) : Memory :=
  wetWrite wet (s.delayChannel ch) k
    (fmul s.numerics (bulkDraw s.draws k + 1) (s.gain n k) (ringRead s.ring (s.delayChannel ch) (s.readIndex n k)))

/-- BRD: a span of the ring at the read cursor goes to the scratch (42_bulk R114). -/
def execBrd (ch n : Nat) (s : State) : StepResult :=
  s.transact (s.bulkCheck n)
    (s.touching (ch + 1) n
      (((s.putWet (upTo (s.brdElement ch n) n s.wet)).drawn (bulkDraws n)).finish none))

/-- Element `k` of BADD: the ring word is the left operand of the sum (42_bulk R115). -/
def State.baddElement (s : State) (ch : Nat) (src : Source) (n k : Nat) (ring : Memory) : Memory :=
  ringWrite ring (s.delayChannel ch) (s.writeIndex n k)
    (fadd s.numerics (bulkDraw s.draws k + 2) (ringRead ring (s.delayChannel ch) (s.writeIndex n k))
      (s.scaledSource ch src n k))

/-- BADD: the block is added to a span of the ring at the write cursor (42_bulk R115). -/
def execBadd (ch : Nat) (src : Source) (n : Nat) (s : State) : StepResult :=
  s.transact (s.bulkCheck n)
    (s.touching (ch + 1) n
      (((s.putRing (upTo (s.baddElement ch src n) n s.ring)).drawn (bulkDraws n)).finish none))

/-- ADV: both cursors by `n`, modulo `L` (42_bulk R116). -/
def execAdv (n : Nat) (s : State) : StepResult :=
  s.transact s.advCheck
    (retuning s.len 0
      ((s.putCursors ((s.wrPos.toNat + n) % s.len) ((s.rdPos.toNat + n) % s.len)).finish none))

end Sys2Proof.Machine
end

