-- ==== Sys2Proof/Machine/Init.lean ====
section
/-! DEFINITION. NOP, RST, PREP (40_init R90 to R92). -/

namespace Sys2Proof.Machine

/-- NOP: nothing (40_init R90). -/
def execNop (s : State) : StepResult := s.transact none (.next (s.finish none))

/-- RST: the reset state, faulted or not (40_init R91; 60_exceptions R147). -/
def execRst (s : State) : StepResult := .next (s.softReset.finish none)

/-- PREP: latch the operands, silence the ring, place the cursors (40_init R92). -/
def execPrep (s : State) : StepResult :=
  let len := cap s.sampleRate
  let d := dsamp s.delayTime.bits s.sampleRate
  s.transact s.prepCheck
    (retuning len d (((s.configure len).putDelay d (readCursor len 0 d)).finish none))

end Sys2Proof.Machine
end

