-- ==== Sys2Proof/Machine/Process.lean ====
section
/-! DEFINITION. PROC, the per-sample dry/wet mixer with feedback path (41_process R100 to R108). -/

namespace Sys2Proof.Machine

/-- What PROC carries from one sample to the next: the two memories it writes and its local cursors
(10_state R27). -/
structure MixPos where
  ring : Memory
  blk : Memory
  r : Nat
  w : Nat
deriving DecidableEq, Repr

/-- The first of the five free values of sample `i` of channel `ch`, in a block of `n` samples. -/
def mixDraw (t n ch i : Nat) : Nat := t + 5 * (ch * n + i)

/-- `fadd(fmul(DRY_MIX, in), fmul(WET_MIX, d))`, with the free values from `t` (41_process R101). -/
def State.mixOut (s : State) (t : Nat) (inp d : F32) : F32 :=
  fadd s.numerics (t + 2) (fmul s.numerics t s.dryMix.bits inp) (fmul s.numerics (t + 1) s.wetMix.bits d)

/-- `fadd(in, fmul(FEEDBACK, d))`, with the free values from `t` (41_process R101). -/
def State.mixBack (s : State) (t : Nat) (inp d : F32) : F32 :=
  fadd s.numerics (t + 4) inp (fmul s.numerics (t + 3) s.feedback.bits d)

/-- Sample `i` of channel `ch`: read, mix, write back, advance, write out (41_process R101). -/
def State.mixSample (s : State) (n ch i : Nat) (x : MixPos) : MixPos :=
  let dc := s.delayChannel ch
  let t := mixDraw s.draws n ch i
  let inp := blkRead x.blk ch i
  let d := ringRead x.ring dc x.r
  { ring := ringWrite x.ring dc x.w (s.mixBack t inp d)
    blk := blkWrite x.blk ch i (s.mixOut t inp d)
    r := bump s.len x.r
    w := bump s.len x.w }

/-- The `n` samples of one channel, from the engine's cursors (41_process R101). -/
def State.mixChannel (s : State) (n ch : Nat) (x : MixPos) : MixPos :=
  upTo (s.mixSample n ch) n { x with r := s.rdPos.toNat, w := s.wrPos.toNat }

/-- The `nin` input channels, ascending (41_process R101, R103). -/
def State.mixChannels (s : State) (nin n : Nat) : MixPos :=
  upTo (s.mixChannel n) nin { ring := s.ring, blk := s.blk, r := s.rdPos.toNat, w := s.wrPos.toNat }

/-- A block channel of `n` samples cleared to `+0.0` (41_process R105). -/
def clearChannel (n ch : Nat) (blk : Memory) : Memory := upTo (fun i m => blkWrite m ch i 0) n blk

/-- The output channels `nin .. nout-1` cleared; none where `nout ≤ nin` (41_process R105). -/
def clearChannels (nin nout n : Nat) (blk : Memory) : Memory :=
  upTo (fun j m => clearChannel n (nin + j) m) (nout - nin) blk

/-- The state PROC leaves (41_process R101, R104, R105). -/
def State.processed (s : State) (nout nin n : Nat) : State :=
  let x := s.mixChannels nin n
  ((((s.putRing x.ring).putBlk (clearChannels nin nout n x.blk)).putCursors
    ((s.wrPos.toNat + n) % s.len) ((s.rdPos.toNat + n) % s.len)).drawn (5 * (nin * n))).finish none

/-- PROC (41_process R100, R101). -/
def execProc (nout nin n : Nat) (s : State) : StepResult :=
  s.transact (s.procCheck nin n) (s.touching (max nin nout) n (s.processed nout nin n))

end Sys2Proof.Machine
end

