-- ==== Sys2Proof/Machine/Setters.lean ====
section
/-! DEFINITION. The parameter setters (43_parameters R125 to R129). The two ports are equivalent. -/

namespace Sys2Proof.Machine

/-- SETDT: store the delay time; while prepared, recompute `D` and the read cursor (43_parameters R126). -/
def execSetdt (_port : Port) (v : F32) (s : State) : StepResult :=
  let d := dsamp v s.cfgRate
  s.transact (delayCheck v)
    (if s.prepared then
      retuning s.len d (((s.putDelayTime v).putDelay d (readCursor s.len s.wrPos.toNat d)).finish none)
    else .next ((s.putDelayTime v).finish none))

/-- SETDRY (43_parameters R127). -/
def execSetdry (_port : Port) (v : F32) (s : State) : StepResult :=
  s.transact (mixCheck v) (.next ((s.putDryMix v).finish none))

/-- SETWET (43_parameters R128). -/
def execSetwet (_port : Port) (v : F32) (s : State) : StepResult :=
  s.transact (mixCheck v) (.next ((s.putWetMix v).finish none))

/-- SETFB (43_parameters R129). -/
def execSetfb (_port : Port) (v : F32) (s : State) : StepResult :=
  s.transact (mixCheck v) (.next ((s.putFeedback v).finish none))

end Sys2Proof.Machine
end

