-- ==== Sys2Proof/Machine/Dispatch.lean ====
section
/-! DEFINITION. The meaning of every operation of the opcode table. -/

namespace Sys2Proof.Machine

def exec (i : Instr) (s : State) : Host.Outcome State Fault Refusal :=
  match i with
  | .nop => Sys2Proof.Machine.execNop s
  | .rst => Sys2Proof.Machine.execRst s
  | .prep => Sys2Proof.Machine.execPrep s
  | .proc nout nin n => Sys2Proof.Machine.execProc nout nin n s
  | .bwr ch src n => Sys2Proof.Machine.execBwr ch src n s
  | .brd ch n => Sys2Proof.Machine.execBrd ch n s
  | .badd ch src n => Sys2Proof.Machine.execBadd ch src n s
  | .adv n => Sys2Proof.Machine.execAdv n s
  | .setdt port v => Sys2Proof.Machine.execSetdt port v s
  | .setdry port v => Sys2Proof.Machine.execSetdry port v s
  | .setwet port v => Sys2Proof.Machine.execSetwet port v s
  | .setfb port v => Sys2Proof.Machine.execSetfb port v s

end Sys2Proof.Machine
end

