-- ==== Sys2Proof/Machine/Flags.lean ====
section
/-! DEFINITION. STATUS (10_state R28, R29) and the fault codes (60_exceptions R141). The architecture has no other
flag. -/

namespace Sys2Proof.Machine

/-- The code of a fault (60_exceptions R141). -/
def ErrCode.code : ErrCode → Nat
  | .illegalCmd => 0x01
  | .config => 0x02
  | .unset => 0x03
  | .notPrepared => 0x04
  | .badOperand => 0x05
  | .badParam => 0x06
  | .badAddr => 0x07

/-- The field ERR: 0 where no fault has been raised. -/
def State.errField (s : State) : Nat :=
  match s.err with
  | none => 0x00
  | some code => code.code

/-- STATUS: BUSY bit 0, PREPARED bit 1, ERR bits 15:8, the rest 0 (10_state R28). -/
def State.statusWord (s : State) : Word :=
  BitVec.ofNat 32 (s.errField * 2 ^ 8 + s.prepared.toNat * 2 + s.busy.toNat)

end Sys2Proof.Machine
end

