-- ==== Sys2Proof/Machine/Port.lean ====
section
/-! DEFINITION. The ports: register and window access (43_parameters R130 to R132), forbidden accesses (20_memory
R65), illegal command words (30_encoding R78, R79), and the order in which events are taken (20_memory R57). -/

namespace Sys2Proof.Machine

/-- What a read of a host-writable register returns: its bits, or a free value while it is unset (10_state R25). -/
def State.hostRegValue (r : HostReg) (s : State) : Word := if r.isSet then r.bits else Config.freeWord s.draws

/-- How many free values that read uses. -/
def hostRegDraws (r : HostReg) : Nat := if r.isSet then 0 else 1

/-- What a read of a geometry register returns: 0 while `PREPARED = 0` (43_parameters R131). -/
def State.geometryValue (v : Word) (s : State) : Word := if s.prepared then v else 0

/-- What a host read of a register returns (43_parameters R131). -/
def State.registerValue (r : RegName) (s : State) : Word :=
  match r with
  | .cmd => 0
  | .status => s.statusWord
  | .srLo => s.hostRegValue s.srLo
  | .srHi => s.hostRegValue s.srHi
  | .blockSize => s.hostRegValue s.blockSize
  | .numCh => s.hostRegValue s.numCh
  | .gainStart => s.hostRegValue s.gainStart
  | .gainEnd => s.hostRegValue s.gainEnd
  | .bufLen => s.geometryValue s.bufLen
  | .wrPos => s.geometryValue s.wrPos
  | .rdPos => s.geometryValue s.rdPos
  | .delaySamples => s.geometryValue s.delaySamples
  | .cfgBlock => s.geometryValue s.cfgBlock
  | .cfgNch => s.geometryValue s.cfgNch
  | .cfgSrLo => s.geometryValue s.cfgSrLo
  | .cfgSrHi => s.geometryValue s.cfgSrHi
  | .delayTime => s.hostRegValue s.delayTime
  | .dryMix => s.hostRegValue s.dryMix
  | .wetMix => s.hostRegValue s.wetMix
  | .feedback => s.hostRegValue s.feedback

/-- How many free values that read uses. -/
def State.registerDraws (r : RegName) (s : State) : Nat :=
  match r with
  | .srLo => hostRegDraws s.srLo
  | .srHi => hostRegDraws s.srHi
  | .blockSize => hostRegDraws s.blockSize
  | .numCh => hostRegDraws s.numCh
  | .gainStart => hostRegDraws s.gainStart
  | .gainEnd => hostRegDraws s.gainEnd
  | .delayTime => hostRegDraws s.delayTime
  | .dryMix => hostRegDraws s.dryMix
  | .wetMix => hostRegDraws s.wetMix
  | .feedback => hostRegDraws s.feedback
  | .cmd | .status | .bufLen | .wrPos | .rdPos => 0
  | .delaySamples | .cfgBlock | .cfgNch | .cfgSrLo | .cfgSrHi => 0

/-- RD of a register, faulted or not (43_parameters R131). -/
def State.readRegister (r : RegName) (s : State) : State :=
  (s.drawn (s.registerDraws r)).finish (some (s.registerValue r))

/-- An access that is a fault `code`, or discarded while faulted (20_memory R65; 60_exceptions R144, R145;
entry 16). -/
def State.refuse (code : ErrCode) (data : Option Word) (s : State) : State :=
  if s.err.isSome then s.discard data else s.raise code data

/-- RDW, faulted or not: a free value for an unwritten word; outside the prepared window a forbidden access that
returns 0 (43_parameters R132; 20_memory R65). -/
def State.readWindow (c k : Nat) (s : State) : State :=
  if s.prepared ∧ c < s.cfgNch.toNat ∧ k < s.cfgBlock.toNat then
    match wetRead s.wet c k with
    | some v => s.finish (some v)
    | none => (s.drawn 1).finish (some (Config.freeWord s.draws))
  else s.refuse .badAddr (some 0)

/-- WR of an operand register; discarded while faulted (43_parameters R130; 60_exceptions R145). -/
def State.writeOperand (r : OperandReg) (v : Word) (s : State) : State :=
  if s.err.isSome then s.discard none else (s.putOperand r v).finish none

/-- What the engine does next. -/
inductive Fetch where
  /-- No event has arrived: the engine waits and keeps all state (60_exceptions R152). -/
  | idle
  /-- The oldest event asks for a command or a setter, to be run in this state. -/
  | run (i : Instr) (s : State)
  /-- The oldest event, taken, leaves this state. -/
  | answered (s : State)
deriving DecidableEq, Repr

/-- A transaction, taken. -/
def State.take (t : Transaction) (s : State) : Fetch :=
  match decodeTransaction t with
  | .run i => .run i s
  | .illegal _ => .answered (s.refuse .illegalCmd none)
  | .operand r v => .answered (s.writeOperand r v)
  | .register r => .answered (s.readRegister r)
  | .window c k => .answered (s.readWindow c k)
  | .forbiddenRead => .answered (s.refuse .badAddr (some 0))
  | .forbiddenWrite => .answered (s.refuse .badAddr none)

/-- The events not held while a command runs: a host read of STATUS (20_memory R57), and reset. -/
def Event.unheld : Event → Bool
  | .transaction t => decodeTransaction t == .register .status
  | .hostBlk _ _ _ => false
  | .reset => true

/-- An event, taken (20_memory R57, R64; 10_state R42). -/
def State.takeEvent (e : Event) (s : State) : Fetch :=
  match e with
  | .transaction t => s.take t
  | .hostBlk ch i v => .answered (s.putBlk (blkWrite s.blk ch.toNat i.toNat v))
  | .reset => .answered s.softReset

/-- The oldest event, taken; while `BUSY = 1` it is held until the command in flight has completed, unless it is a
STATUS read (20_memory R57). -/
def State.fetch (s : State) : Fetch :=
  match s.inbox with
  | [] => if s.busy then .answered s.complete else .idle
  | e :: rest =>
    if s.busy && !e.unheld then .answered s.complete
    else (s.dequeue rest).takeEvent e

end Sys2Proof.Machine
end

