-- ==== Sys2Proof/Machine/Step.lean ====
section
/-! DEFINITION. One step: the oldest event is taken (20_memory R57); a command or a setter is run by exec. -/

namespace Sys2Proof.Machine

/-- One step of the engine. -/
def step (s : State) : Host.Outcome State Fault Refusal :=
  match s.fetch with
  | .idle => .next s
  | .run i t => exec i t
  | .answered t => .next t

/-- `s` with the transaction of a row of the opcode table as its oldest event and no command in flight, so that the
next step takes exactly it (entries 12 and 13). -/
def State.withFetchWord (s : State) (nbits w : Nat) : State :=
  { s with busy := false, inbox := .transaction (tableTransaction nbits w) :: s.inbox }

end Sys2Proof.Machine
end

