-- ==== Sys2Proof/Machine/Outcome.lean ====
section
/-! DEFINITION. The step of the engine with the fault an outcome of its own, told from an ordinary next state
(60_exceptions R146). `step` is its image in the host's three outcomes, in which a fault that is taken is a next state
(entry 2). -/

namespace Sys2Proof.Machine

/-- How a step of the engine ends (60_exceptions R146). -/
inductive EngineOutcome where
  /-- An ordinary next state: no fault was raised. -/
  | ordinary (t : State)
  /-- The transaction taken raised the fault `code`, and `t` is the faulted state (60_exceptions R144), from which the
  engine goes on as 60_exceptions R145 and R147 say. -/
  | fault (code : ErrCode) (t : State)
  /-- The model stops (entry 11). -/
  | stopped (why : Fault)
  /-- The instruction has no meaning. -/
  | refused (why : Refusal)
deriving DecidableEq, Repr

/-- The fault raised between `s` and `t`: the code ERR holds in `t`, where it was 0 in `s` (60_exceptions R144, R145). -/
def State.raised (s t : State) : Option ErrCode := if s.err = none then t.err else none

/-- What a step from `s` answers, with the fault kept apart. -/
def engineOutcome (s : State) (r : StepResult) : EngineOutcome :=
  match r with
  | .next t =>
    match s.raised t with
    | some code => .fault code t
    | none => .ordinary t
  | .fault why => .stopped why
  | .refused why => .refused why

/-- One step of the engine (60_exceptions R146). -/
def engineStep (s : State) : EngineOutcome := engineOutcome s (step s)

/-- The outcome as the host's interface has it: the state a fault leaves is the next state (60_exceptions R144). -/
def EngineOutcome.host (o : EngineOutcome) : StepResult :=
  match o with
  | .ordinary t => .next t
  | .fault _ t => .next t
  | .stopped why => .fault why
  | .refused why => .refused why

end Sys2Proof.Machine
end

