-- ==== Sys2Proof/Safety.lean ====
section
/-! DEFINITION. What a good state is (10_state R35 to R39, R43; 00_scope R5, R19), what a good run is (60_exceptions
R146), and the terms statements are made in: exact real values (00_scope R10 to R12), the recurrence of PROC
(41_process R101, R102), the gain ramp (42_bulk R112), the opcode rows (30_encoding R74). -/

namespace Sys2Proof.Machine

/-! Exact values. -/

/-- `real(v)` of a finite F32, by the formula of 00_scope R10. -/
def f32Real (w : F32) : ℚ :=
  (if f32Negative w then -1 else 1) *
    (if f32Exponent w = 0 then (f32Fraction w : ℚ) * 2 ^ (-149 : ℤ)
     else (1 + (f32Fraction w : ℚ) / 2 ^ 23) * 2 ^ ((f32Exponent w : ℤ) - 127))

/-- `real(v)` of a finite F64, by the formula of 00_scope R11. -/
def f64Real (w : F64) : ℚ :=
  (if f64Negative w then -1 else 1) *
    (if f64Exponent w = 0 then (f64Fraction w : ℚ) * 2 ^ (-1074 : ℤ)
     else (1 + (f64Fraction w : ℚ) / 2 ^ 52) * 2 ^ ((f64Exponent w : ℤ) - 1023))

/-! Good states. -/

/-- What holds while `PREPARED = 1` (10_state R30 to R34, R36, R37). -/
structure State.Geometry (s : State) : Prop where
  rate : f64Positive s.cfgRate = true
  len_cap : s.len = cap s.cfgRate
  len_le : s.len ≤ s.conf.lenMax
  block_pos : 1 ≤ s.cfgBlock.toNat
  block_le : s.cfgBlock.toNat ≤ s.len
  block_max : s.cfgBlock.toNat ≤ s.conf.blockMax
  channels_pos : 1 ≤ s.cfgNch.toNat
  channels_le : s.cfgNch.toNat ≤ s.conf.nchMax
  delay_set : s.delayTime.isSet = true
  delay : s.delaySamples.toNat = dsamp s.delayTime.bits s.cfgRate
  write_lt : s.wrPos.toNat < s.len
  read_law : s.rdPos.toNat = readCursor s.len s.wrPos.toNat s.delaySamples.toNat

/-- What holds while `PREPARED = 0` (10_state R43). -/
structure State.Blank (s : State) : Prop where
  bufLen : s.bufLen = 0
  wrPos : s.wrPos = 0
  rdPos : s.rdPos = 0
  delaySamples : s.delaySamples = 0
  cfgBlock : s.cfgBlock = 0
  cfgNch : s.cfgNch = 0
  cfgSrLo : s.cfgSrLo = 0
  cfgSrHi : s.cfgSrHi = 0

/-- A memory lists only words that exist: the address is below `rows * width`, and the index below `cols`
(20_memory R52). -/
def Memory.Within (width rows cols : Nat) (m : Memory) : Prop :=
  ∀ x ∈ m, x.1 / width < rows ∧ x.1 % width < cols

/-- The invariant of the machine. -/
structure State.Inv (s : State) : Prop where
  conf : s.conf.Admissible
  ring_wf : Memory.wf (fillOf .ring) s.ring
  wet_wf : Memory.wf (fillOf .wet) s.wet
  blk_wf : Memory.wf (fillOf .blk) s.blk
  ring_within : s.ring.Within (2 ^ 32) s.cfgNch.toNat s.len
  wet_within : s.wet.Within 65536 s.cfgNch.toNat s.cfgBlock.toNat
  blk_within : s.blk.Within 65536 16 65536
  delay_legal : s.delayTime.isSet = true → legalDelay s.delayTime.bits = true
  dry_legal : s.dryMix.isSet = true → legalMix s.dryMix.bits = true
  wet_legal : s.wetMix.isSet = true → legalMix s.wetMix.bits = true
  feedback_legal : s.feedback.isSet = true → legalMix s.feedback.bits = true
  geometry : s.prepared = true → s.Geometry
  blank : s.prepared = false → s.Blank

/-- The table of 10_state R42, RING and BLK apart: STATUS 0 and idle, the ten host-writable registers unset, the eight
geometry registers 0, every WET word unwritten. -/
abbrev State.AtReset (s : State) : Prop :=
  s.statusWord = 0 ∧ s.busy = false ∧ s.prepared = false ∧ s.err = none ∧
    (∀ r ∈ [s.srLo, s.srHi, s.blockSize, s.numCh, s.gainStart, s.gainEnd, s.delayTime, s.dryMix, s.wetMix,
      s.feedback], r.isSet = false) ∧
    (∀ v ∈ [s.bufLen, s.wrPos, s.rdPos, s.delaySamples, s.cfgBlock, s.cfgNch, s.cfgSrLo, s.cfgSrHi], v = 0) ∧
    ∀ c k, wetRead s.wet c k = none

/-- A run has ended well: the engine is idle and not faulted (00_scope R19). -/
abbrev State.EndedWell (s : State) : Prop := s.busy = false ∧ s.err = none

/-- The state `k` steps from `s`, if the run there is good: `ERR = 0` throughout, every step an ordinary one, a good end
(60_exceptions R146; 00_scope R19). -/
def goodRun : Nat → State → Option State
  | 0, s => if s.EndedWell then some s else none
  | k + 1, s =>
    if s.err = none then
      match engineStep s with
      | .ordinary t => goodRun k t
      | _ => none
    else none

/-! What statements are about. -/

/-- `s` with one more event, the oldest. -/
def State.presented (e : Event) (s : State) : State := { s with inbox := e :: s.inbox }

/-- A host read of a word address. -/
def hostReadOf (addr : Nat) : Event := .transaction (.hostRead (BitVec.ofNat 24 addr))

/-- A host write of `v` to a word address. -/
def hostWriteOf (addr : Nat) (v : Word) : Event := .transaction (.hostWrite (BitVec.ofNat 24 addr) v)

/-- A control-port write of `v` to a REG address. -/
def controlWriteOf (addr : Nat) (v : Word) : Event := .transaction (.controlWrite (BitVec.ofNat 20 addr) v)

/-- A control-port read of a REG address. -/
def controlReadOf (addr : Nat) : Event := .transaction (.controlRead (BitVec.ofNat 20 addr))

/-- Every register PREP needs is set (40_init R92 check 1). -/
abbrev State.PrepSet (s : State) : Prop :=
  s.srLo.isSet = true ∧ s.srHi.isSet = true ∧ s.blockSize.isSet = true ∧ s.numCh.isSet = true ∧
    s.delayTime.isSet = true

/-- The checks 2 to 5 of PREP pass (40_init R92). -/
abbrev State.PrepAccepts (s : State) : Prop :=
  f64Positive s.sampleRate = true ∧
    (1 ≤ s.blockSize.bits.toNat ∧ s.blockSize.bits.toNat ≤ s.conf.blockMax) ∧
    (1 ≤ s.numCh.bits.toNat ∧ s.numCh.bits.toNat ≤ s.conf.nchMax) ∧
    (1 ≤ cap s.sampleRate ∧ cap s.sampleRate ≤ s.conf.lenMax ∧ s.blockSize.bits.toNat ≤ cap s.sampleRate)

/-- Every register PROC needs is set (41_process R100 check 2). -/
abbrev State.MixSet (s : State) : Prop :=
  s.dryMix.isSet = true ∧ s.wetMix.isSet = true ∧ s.feedback.isSet = true

/-- Every register a bulk copy needs is set (42_bulk R110 check 2). -/
abbrev State.GainSet (s : State) : Prop := s.gainStart.isSet = true ∧ s.gainEnd.isSet = true

/-- A good, prepared, unfaulted state in which PROC of `nin` inputs and `n` samples passes its checks
(41_process R100). -/
abbrev State.ProcReady (s : State) (nin n : Nat) : Prop :=
  s.Inv ∧ s.err = none ∧ s.prepared = true ∧ s.MixSet ∧ 1 ≤ nin ∧ n ≤ s.cfgBlock.toNat

/-- A good, prepared, unfaulted state in which a bulk copy of `n` samples passes its checks (42_bulk R110). -/
abbrev State.BulkReady (s : State) (n : Nat) : Prop :=
  s.Inv ∧ s.err = none ∧ s.prepared = true ∧ s.GainSet ∧ n ≤ s.cfgBlock.toNat

/-- The ring position of element `k` of a span at the write cursor: `(WR_POS + k) mod L` (20_memory R66). -/
def State.writeSpan (s : State) (k : Nat) : Nat := (s.wrPos.toNat + k) % s.len

/-- The ring position of element `k` of a span at the read cursor: `(RD_POS + k) mod L`. -/
def State.readSpan (s : State) (k : Nat) : Nat := (s.rdPos.toNat + k) % s.len

/-! The arithmetic of PROC and of the bulk copies, written out with the operations of 00_scope R13 alone, those of the
configuration's numerics record. The number before the operands is the free value an operation uses should its result be
a NaN (entry 5). -/

/-- `D'`: how many samples before it was written a word is read; `D`, or `L` where `D = 0` (41_process R102). -/
def State.lag (s : State) : Nat := if s.delaySamples.toNat = 0 then s.len else s.delaySamples.toNat

/-- Channel `ch` of a PROC of `n` samples, which finds the delay buffer as `before` and leaves it as `after`, and whose
output stands in `out`: at sample `k` the delayed sample `d` is the word written `D'` samples before, by this block from
`k = D'` on, and what the buffer held at the read cursor until then; `fadd(fmul(DRY_MIX, x), fmul(WET_MIX, d))` is put
out and `fadd(x, fmul(FEEDBACK, d))` written at the write cursor (41_process R101, R102); the delay channel is
`min(ch, NCH-1)` (41_process R103). -/
def State.ChannelRecurrence (s : State) (before after out : Memory) (n ch : Nat) : Prop :=
  ∀ k, k < n →
    let dc := min ch (s.cfgNch.toNat - 1)
    let x := blkRead s.blk ch k
    let d := if s.lag ≤ k then ringRead after dc (s.writeSpan (k - s.lag)) else ringRead before dc (s.readSpan k)
    let u := s.draws + 5 * (ch * n + k)
    let c := s.numerics
    blkRead out ch k = fadd c (u + 2) (fmul c u s.dryMix.bits x) (fmul c (u + 1) s.wetMix.bits d) ∧
      ringRead after dc (s.writeSpan k) = fadd c (u + 4) x (fmul c (u + 3) s.feedback.bits d)

/-- `g` is the gain ramp of a bulk copy of `n` elements: `g_0 = GS` and `g_(k+1) = fadd(g_k, inc)` with
`inc = fdiv(fsub(GE, GS), u2f(n))` (42_bulk R112). -/
def State.Ramp (s : State) (n : Nat) (g : Nat → F32) : Prop :=
  g 0 = s.gainStart.bits ∧
    ∀ k, g (k + 1) = fadd s.numerics (s.draws + 5 + 4 * k) (g k)
      (fdiv s.numerics (s.draws + 1) (fsub s.numerics s.draws s.gainEnd.bits s.gainStart.bits) (u2f s.numerics n))

/-- `b` is what the bulk-strategy block of `n` samples on channel `ch` leaves: `SETGAIN 1.0; BRD; BWR.B;
SETGAIN FEEDBACK; BADD.W; ADV` (42_bulk R117), a SETGAIN being its two register writes. -/
def State.BulkBlock (s : State) (ch n : Nat) (b : State) : Prop :=
  ∃ b1 b2 b3,
    exec (.brd ch n) { s with gainStart := ⟨0x3F800000, true⟩, gainEnd := ⟨0x3F800000, true⟩ } = .next b1 ∧
    exec (.bwr ch .blk n) b1 = .next b2 ∧
    exec (.badd ch .wet n) { b2 with gainStart := s.feedback, gainEnd := s.feedback } = .next b3 ∧
    exec (.adv n) b3 = .next b

/-! The opcode map. -/

/-- `match` and `mask` of the eight command rows (30_encoding R74). -/
def commandRows : List (Word × Word) :=
  [(0x00000000, 0xFFFFFFFF), (0x10000000, 0xFFFFFFFF), (0x20000000, 0xFFFFFFFF), (0x30000000, 0xF00F0000),
   (0x40000000, 0xF07F0000), (0x50000000, 0xF0FF0000), (0x60000000, 0xF07F0000), (0x70000000, 0xFFFF0000)]

/-- `(w AND mask) = match`. -/
abbrev Matches (w : Word) (row : Word × Word) : Prop := w &&& row.2 = row.1

end Sys2Proof.Machine
end

