-- ==== Sys2Proof/Certificates/Slice0/Obligations.lean ====
section
/-! DEFINITION. The statements for the provers, file by file of spec/. -/

open Sys2Proof Sys2Proof.Machine

/-! 30_encoding, 20_memory: decoding. -/

/-- 30_encoding R71, R73, R74, R72; 20_memory R53, R54: the transaction the encoder writes for a well-formed operation
decodes to that operation, every operand at every value. -/
def Obligations.EncodeThenDecode : Prop :=
  ∀ i : Instr, i.WellFormed → decodeTransaction (encode i) = .run i

/-- 30_encoding R71, R73, R79: a word that decodes is the one word of its command, and its fields fit. -/
def Obligations.DecodeThenEncode : Prop :=
  ∀ (w : Word) (i : Instr), decodeCommand w = .ok i → i.WellFormed ∧ encodeCommand i = some w

/-- 30_encoding R73, R74, R86: a word decodes to the command of a row exactly when it matches the row under its mask,
with the row's fields as unsigned integers; a word that matches no row is illegal; the rows are disjoint; a write of
REG 0x10 to 0x13 on either port is a setter. -/
def Obligations.DecodeByRow : Prop :=
  (∀ w : Word,
    (Matches w (0x00000000, 0xFFFFFFFF) ↔ decodeCommand w = .ok .nop) ∧
    (Matches w (0x10000000, 0xFFFFFFFF) ↔ decodeCommand w = .ok .rst) ∧
    (Matches w (0x20000000, 0xFFFFFFFF) ↔ decodeCommand w = .ok .prep) ∧
    (Matches w (0x30000000, 0xF00F0000) ↔ decodeCommand w =
      .ok (.proc (w.extractLsb' 24 4).toNat (w.extractLsb' 20 4).toNat (w.extractLsb' 0 16).toNat)) ∧
    (Matches w (0x40000000, 0xF07F0000) ↔ decodeCommand w =
      .ok (.bwr (w.extractLsb' 24 4).toNat (if w.getLsbD 23 then .wet else .blk) (w.extractLsb' 0 16).toNat)) ∧
    (Matches w (0x50000000, 0xF0FF0000) ↔ decodeCommand w =
      .ok (.brd (w.extractLsb' 24 4).toNat (w.extractLsb' 0 16).toNat)) ∧
    (Matches w (0x60000000, 0xF07F0000) ↔ decodeCommand w =
      .ok (.badd (w.extractLsb' 24 4).toNat (if w.getLsbD 23 then .wet else .blk) (w.extractLsb' 0 16).toNat)) ∧
    (Matches w (0x70000000, 0xFFFF0000) ↔ decodeCommand w = .ok (.adv (w.extractLsb' 0 16).toNat)) ∧
    ((∀ row ∈ commandRows, ¬ Matches w row) ↔ ∃ why, decodeCommand w = .error why) ∧
    ∀ row ∈ commandRows, ∀ row' ∈ commandRows, Matches w row → Matches w row' → row = row') ∧
  ∀ (p : Port) (v : Word),
    decodeTransaction (encodeSetter p 0x10 v) = .run (.setdt p v) ∧
    decodeTransaction (encodeSetter p 0x11 v) = .run (.setdry p v) ∧
    decodeTransaction (encodeSetter p 0x12 v) = .run (.setwet p v) ∧
    decodeTransaction (encodeSetter p 0x13 v) = .run (.setfb p v)

/-- 30_encoding R71, R74: words written out from the format tables. -/
def Obligations.WrittenWordsDecode : Prop :=
  decodeCommand 0b0011_0010_0001_0000_0000_0010_0000_0000 = .ok (.proc 2 1 512) ∧
    decodeCommand 0b0100_0000_1000_0000_0000_0000_0000_0100 = .ok (.bwr 0 .wet 4) ∧
    decodeCommand 0b0101_0001_0000_0000_0000_0010_0000_0000 = .ok (.brd 1 512) ∧
    decodeCommand 0b0110_0001_0000_0000_0000_0000_0000_0100 = .ok (.badd 1 .blk 4) ∧
    decodeCommand 0b0111_0000_0000_0000_1111_1111_1111_1111 = .ok (.adv 65535)

/-- 20_memory R57 (entry 1): when the oldest event asks for an operation and no command is in flight, a step takes it
off the inbox and is exec of it. -/
def Obligations.StepRunsDecoded : Prop :=
  ∀ (s : State) (tr : Transaction) (rest : List Event) (i : Instr),
    s.busy = false → s.inbox = .transaction tr :: rest → decodeTransaction tr = .run i →
      step s = exec i { s with inbox := rest }

/-- Entries 12 and 13: a step after `withFetchWord` is exec of the operation the decoder reads from the row's bits,
in the state before. -/
def Obligations.FetchedWordRuns : Prop :=
  ∀ (s : State) (nbits w : Nat) (i : Instr), decodeTableWord nbits w = some i →
    step (s.withFetchWord nbits w) = exec i { s with busy := false }

/-- 30_encoding R78, R79; 60_exceptions R144: a word that matches no row (a reserved OPC, a 1 in a zero field, BRD with
`S = 1`), written to CMD while `ERR = 0`, sets ERR to ILLEGAL_CMD and changes nothing else. -/
def Obligations.IllegalCommandFaults : Prop :=
  ∀ (s : State) (w : Word), s.busy = false → s.err = none →
    (∀ row ∈ commandRows, ¬ Matches w row) →
      step (s.presented (hostWriteOf 0x00 w)) =
        .next { s with err := some .illegalCmd, answer := some ⟨.fault .illegalCmd, none⟩ }

/-- 20_memory R57: while BUSY is 1 a transaction stays in the inbox until the command in flight has completed, but a
host read of STATUS is answered at once and shows BUSY = 1. -/
def Obligations.HeldWhileBusy : Prop :=
  ∀ (s : State) (tr : Transaction), s.busy = true →
    (decodeTransaction tr ≠ .register .status →
      step (s.presented (.transaction tr)) = .next { s.presented (.transaction tr) with busy := false }) ∧
    (∃ t w, step (s.presented (hostReadOf 0x01)) = .next t ∧ t = { s with answer := t.answer } ∧
      t.answer = some ⟨.done, some w⟩ ∧ field w.toNat 0 0 = 1)

/-! 10_state, 70_reset: reset and the invariant. -/

/-- 10_state R42, 00_scope R13, R18: the state after reset, whatever the configuration; reset keeps the configuration,
and State.reset has the numerics of R13, IEEE 754 binary32 (entries 4 and 21). -/
def Obligations.ResetState : Prop :=
  (∀ l : Configuration, (State.resetWith l).AtReset ∧ (State.resetWith l).conf = l) ∧ State.reset.numerics = binary32

/-- The invariant holds after reset, for every admissible choice of the parameters (00_scope R5). -/
def Obligations.ResetMeetsInvariant : Prop :=
  (∀ l : Configuration, l.Admissible → (State.resetWith l).Inv) ∧ State.reset.Inv

/-- 10_state R36, R37, R35, R43: every step keeps the invariant: memories canonical and inside their spaces, legal
parameters, the geometry, the cursor law. -/
def Obligations.StepKeepsInvariant : Prop :=
  ∀ s t : State, s.Inv → step s = .next t → t.Inv

/-- 00_scope R16, 60_exceptions R150, 30_encoding R85: from a good state a step always answers a next state; no
transaction stops the machine. -/
def Obligations.StepAlwaysAnswers : Prop :=
  ∀ s : State, s.Inv → ∃ t, step s = .next t

/-- 10_state R37, R36: after any step from a good state that leaves the engine prepared, the read cursor is `(WR_POS + L
- D) mod L` and trails the write cursor by `D` modulo `L`; both are inside the ring, which holds a block. -/
def Obligations.CursorLaw : Prop :=
  ∀ s t : State, s.Inv → step s = .next t → t.prepared = true →
    t.rdPos.toNat = (t.wrPos.toNat + t.len - t.delaySamples.toNat) % t.len ∧
      (t.wrPos.toNat + t.len - t.rdPos.toNat) % t.len = t.delaySamples.toNat % t.len ∧
      t.wrPos.toNat < t.len ∧ t.rdPos.toNat < t.len ∧ t.cfgBlock.toNat ≤ t.len

/-- 10_state R46: for a legal delay time and a legal sample rate the delay is at most the capacity. -/
def Obligations.DelayAtMostCapacity : Prop :=
  ∀ (dt : F32) (sr : F64), legalDelay dt = true → f64Positive sr = true → dsamp dt sr ≤ cap sr

/-- 00_scope R9, 10_state R44, R45: `rnd` is the nearest integer, the larger at a tie, the floor of the exact value plus
one half; `cap` and `dsamp` are `rnd` of the exact real products. -/
def Obligations.RoundedExactProducts : Prop :=
  (∀ num den : Nat, 0 < den → (rnd num den : ℤ) = ⌊(num : ℚ) / den + 1 / 2⌋ ∧
    ∀ m : Nat, m ≠ rnd num den →
      |(num : ℚ) / den - rnd num den| ≤ |(num : ℚ) / den - m| ∧
        (|(num : ℚ) / den - rnd num den| = |(num : ℚ) / den - m| → m < rnd num den)) ∧
    (∀ sr : F64, f64Positive sr = true → (cap sr : ℤ) = ⌊2 * f64Real sr + 1 / 2⌋) ∧
    ∀ (dt : F32) (sr : F64), legalDelay dt = true → f64Positive sr = true →
      (dsamp dt sr : ℤ) = ⌊f32Real dt * f64Real sr + 1 / 2⌋

/-- 10_state R35, 00_scope R10 to R12, 40_init R92 check 2: the legal values of the four parameters and of the sample
rate, on exact real values. -/
def Obligations.LegalRanges : Prop :=
  (∀ v : F32, legalDelay v = true ↔ f32Finite v = true ∧ 0 < f32Real v ∧ f32Real v ≤ 2) ∧
    (∀ v : F32, legalMix v = true ↔ f32Finite v = true ∧ 0 ≤ f32Real v ∧ f32Real v ≤ 1) ∧
    ∀ v : F64, f64Positive v = true ↔ f64Finite v = true ∧ 0 < f64Real v

/-! 40_init: NOP, RST, PREP. -/

/-- 40_init R90: NOP is done in every unfaulted state and changes nothing (but the model's record of the answer). -/
def Obligations.NopChangesNothing : Prop :=
  ∀ s : State, s.err = none → exec .nop s = .next { s with answer := some ⟨.done, none⟩ }

/-- 10_state R42; 40_init R91; 60_exceptions R147: RST is done in every state, faulted or not, and hardware reset is
taken in every state; after either the state is that of reset, and BLK is untouched. The model's choice: reset arrives
as an event (entry 14) and is taken at once where `BUSY = 1` (entry 3), and the inbox, the free-value counter and, for
reset, the record of the last answer stay (entry 15, unsafe for reset). -/
def Obligations.RstRestoresReset : Prop :=
  ∀ s : State,
    (∃ t, exec .rst s = .next t ∧ t.AtReset ∧ t.blk = s.blk ∧ t.inbox = s.inbox ∧ t.conf = s.conf ∧
      t.draws = s.draws ∧ t.answer = some ⟨.done, none⟩) ∧
    ∃ t, step (s.presented .reset) = .next t ∧ t.AtReset ∧ t.blk = s.blk ∧ t.inbox = s.inbox ∧
      t.conf = s.conf ∧ t.draws = s.draws ∧ t.answer = s.answer

/-- 40_init R92: a PREP whose checks pass latches its operands, sets `L`, `D`, the cursors and PREPARED, silences the
ring, unwrites the scratch, and changes nothing else. -/
def Obligations.PrepConfigures : Prop :=
  ∀ s : State, s.Inv → s.err = none → s.PrepSet → s.PrepAccepts →
    ∃ t, exec .prep s = .next t ∧
      t = { s with
        cfgSrLo := s.srLo.bits, cfgSrHi := s.srHi.bits, cfgBlock := s.blockSize.bits, cfgNch := s.numCh.bits
        bufLen := t.bufLen, delaySamples := t.delaySamples, wrPos := 0, rdPos := t.rdPos, prepared := true
        ring := t.ring, wet := t.wet, answer := some ⟨.done, none⟩ } ∧
      t.len = cap s.sampleRate ∧ t.delaySamples.toNat = dsamp s.delayTime.bits s.sampleRate ∧
      t.rdPos.toNat = (cap s.sampleRate - dsamp s.delayTime.bits s.sampleRate) % cap s.sampleRate ∧
      (∀ c j, ringRead t.ring c j = 0) ∧ ∀ c k, wetRead t.wet c k = none

/-- 40_init R92, 60_exceptions R143: a PREP with an unset operand faults UNSET; else one whose operands are refused
faults CONFIG; either changes nothing but ERR. -/
def Obligations.PrepFaults : Prop :=
  ∀ s : State, s.err = none →
    (¬ s.PrepSet → exec .prep s = .next { s with err := some .unset, answer := some ⟨.fault .unset, none⟩ }) ∧
      (s.PrepSet → ¬ s.PrepAccepts →
        exec .prep s = .next { s with err := some .config, answer := some ⟨.fault .config, none⟩ })

/-- 40_init R93: after a PREP that is done the bounds of the configuration hold and the ring is silent. -/
def Obligations.PrepEstablishes : Prop :=
  ∀ s t : State, s.Inv → exec .prep s = .next t → t.answer = some ⟨.done, none⟩ →
    t.prepared = true ∧ (1 ≤ t.cfgBlock.toNat ∧ t.cfgBlock.toNat ≤ t.len ∧ t.len ≤ t.conf.lenMax) ∧
      (1 ≤ t.cfgNch.toNat ∧ t.cfgNch.toNat ≤ t.conf.nchMax) ∧ (∀ c j, ringRead t.ring c j = 0) ∧
      t.wrPos = 0 ∧ t.rdPos.toNat < t.len ∧ t.delaySamples.toNat ≤ t.len

/-! 41_process: PROC. -/

/-- 41_process R100, R104: PROC is done in every state its checks accept; both cursors move by `N` modulo `L`; every
register, flag and WET word is unchanged. -/
def Obligations.ProcMovesCursors : Prop :=
  ∀ (s : State) (nout nin n : Nat), (Instr.proc nout nin n).WellFormed → s.ProcReady nin n →
    ∃ t, exec (.proc nout nin n) s = .next t ∧
      t = { s with
        wrPos := t.wrPos, rdPos := t.rdPos, ring := t.ring, blk := t.blk, draws := t.draws
        answer := some ⟨.done, none⟩ } ∧
      t.wrPos.toNat = (s.wrPos.toNat + n) % s.len ∧ t.rdPos.toNat = (s.rdPos.toNat + n) % s.len

/-- 41_process R101, R103, R105: PROC writes no ring word but `ring[min(ch, NCH-1)][(WR_POS + i) mod L]` of an input
channel, no block word but the first `N` of the counted channels, and clears the output channels without input. -/
def Obligations.ProcWritesOnlyItsWords : Prop :=
  ∀ (s : State) (nout nin n : Nat), (Instr.proc nout nin n).WellFormed → s.ProcReady nin n →
    ∃ t, exec (.proc nout nin n) s = .next t ∧
      (∀ c j, j < 2 ^ 32 →
        (¬ ∃ ch i, ch < nin ∧ i < n ∧ c = min ch (s.cfgNch.toNat - 1) ∧ j = s.writeSpan i) →
          ringRead t.ring c j = ringRead s.ring c j) ∧
      (∀ ch i, i < 65536 → ¬ (ch < max nin nout ∧ i < n) → blkRead t.blk ch i = blkRead s.blk ch i) ∧
      ∀ ch i, nin ≤ ch → ch < nout → i < n → blkRead t.blk ch i = 0

/-- 41_process R101, R103: whatever the channel counts, the input channels run in ascending order: `rings ch` is the
delay buffer before channel `ch`, which meets the recurrence from `rings ch` to `rings (ch + 1)` in its delay channel
`min(ch, NCH-1)` and changes no other ring word. -/
def Obligations.ProcRunsChannelsInOrder : Prop :=
  ∀ (s : State) (nout nin n : Nat), (Instr.proc nout nin n).WellFormed → s.ProcReady nin n →
    ∃ (t : State) (rings : Nat → Memory), exec (.proc nout nin n) s = .next t ∧
      rings 0 = s.ring ∧ rings nin = t.ring ∧
      ∀ ch, ch < nin →
        s.ChannelRecurrence (rings ch) (rings (ch + 1)) t.blk n ch ∧
          ∀ c j, j < 2 ^ 32 → (¬ ∃ i, i < n ∧ c = min ch (s.cfgNch.toNat - 1) ∧ j = s.writeSpan i) →
            ringRead (rings (ch + 1)) c j = ringRead (rings ch) c j

/-- 41_process R101, R102: with a delay channel of its own, every input channel realises the recurrence over the block:
the output is `fadd(fmul(DRY_MIX, x), fmul(WET_MIX, d))` and the ring word `fadd(x, fmul(FEEDBACK, d))`, `d` being the
word written `D'` samples before. -/
def Obligations.ProcRecurrence : Prop :=
  ∀ (s : State) (nout nin n : Nat), (Instr.proc nout nin n).WellFormed → s.ProcReady nin n →
    nin ≤ s.cfgNch.toNat →
      ∃ t, exec (.proc nout nin n) s = .next t ∧
        ∀ ch, ch < nin → s.ChannelRecurrence s.ring t.ring t.blk n ch

/-- 41_process R103: with delay channels of their own, a channel's output and its ring region do not depend on any
other channel's samples or ring region. -/
def Obligations.ProcChannelsIndependent : Prop :=
  ∀ (s s' : State) (nout nin n ch : Nat), (Instr.proc nout nin n).WellFormed → s.ProcReady nin n →
    s'.ProcReady nin n → nin ≤ s.cfgNch.toNat → ch < nin → s' = { s with ring := s'.ring, blk := s'.blk } →
    (∀ j, j < s.len → ringRead s'.ring ch j = ringRead s.ring ch j) →
    (∀ i, i < n → blkRead s'.blk ch i = blkRead s.blk ch i) →
      ∃ t t', exec (.proc nout nin n) s = .next t ∧ exec (.proc nout nin n) s' = .next t' ∧
        (∀ i, i < n → blkRead t'.blk ch i = blkRead t.blk ch i) ∧
        ∀ j, j < s.len → ringRead t'.ring ch j = ringRead t.ring ch j

/-- 41_process R106 (f), 90_conflicts C13: with the numerics of 00_scope R13, silence with `FEEDBACK = +0.0` over a
finite ring silences the words it writes. -/
def Obligations.ProcSilenceSilences : Prop :=
  ∀ (s : State) (nout nin n : Nat), (Instr.proc nout nin n).WellFormed → s.ProcReady nin n →
    s.numerics = binary32 → s.feedback.bits = 0 → (∀ ch i, ch < nin → i < n → blkRead s.blk ch i = 0) →
    (∀ c j, c < s.cfgNch.toNat → j < s.len → f32Finite (ringRead s.ring c j) = true) →
      ∃ t, exec (.proc nout nin n) s = .next t ∧
        ∀ ch i, ch < nin → i < n → ringRead t.ring (min ch (s.cfgNch.toNat - 1)) (s.writeSpan i) = 0

/-- 41_process R100, 60_exceptions R143: PROC faults NOT_PREPARED, else UNSET, else BAD_OPERAND, and changes nothing
but ERR. -/
def Obligations.ProcFaults : Prop :=
  ∀ (s : State) (nout nin n : Nat), s.err = none →
    (s.prepared = false → exec (.proc nout nin n) s =
      .next { s with err := some .notPrepared, answer := some ⟨.fault .notPrepared, none⟩ }) ∧
    (s.prepared = true → ¬ s.MixSet → exec (.proc nout nin n) s =
      .next { s with err := some .unset, answer := some ⟨.fault .unset, none⟩ }) ∧
    (s.prepared = true → s.MixSet → (nin = 0 ∨ s.cfgBlock.toNat < n) → exec (.proc nout nin n) s =
      .next { s with err := some .badOperand, answer := some ⟨.fault .badOperand, none⟩ })

/-! 42_bulk: BWR, BRD, BADD, ADV. -/

/-- 42_bulk R111: the split of a span: `idx(k)` is `(pos + k) mod L`, the positions are distinct, the remainder is at
most `pos`. -/
def Obligations.SplitRule : Prop :=
  ∀ len pos n : Nat, n ≤ len → pos < len →
    (∀ k, k < n → spanIndex len pos n k = (pos + k) % len) ∧
      (∀ k k', k < n → k' < n → spanIndex len pos n k = spanIndex len pos n k' → k = k') ∧
      n - firstPart len pos n ≤ pos

/-- 42_bulk R112: with the numerics of 00_scope R13 and both ends of the ramp the same finite gain the increment
`fdiv(fsub(GE, GS), u2f(n))` is `+0.0` and every gain is that gain, but that `-0.0` becomes `+0.0` from the second
element on. -/
def Obligations.EqualEndsConstantGain : Prop :=
  ∀ (s : State) (g : F32) (n : Nat), s.gainStart.bits = g → s.gainEnd.bits = g → f32Finite g = true → 1 ≤ n →
    n < 65536 → s.numerics = binary32 →
      fdiv s.numerics (s.draws + 1) (fsub s.numerics s.draws g g) (u2f s.numerics n) = 0 ∧
        ∀ gain : Nat → F32, s.Ramp n gain → ∀ k, gain k = if g = 0x80000000 ∧ 1 ≤ k then 0 else g

/-- 42_bulk R110, R112, R113, 41_process R103: BWR is done in every state its checks accept; element `k` of the span at
the write cursor of delay channel `min(CH, NCH-1)` becomes `fmul(g_k, src_k)`, `g` being the ramp; nothing else changes.
An unwritten scratch word is read as a free value (entry 5). -/
def Obligations.BwrWritesSpan : Prop :=
  ∀ (s : State) (ch n : Nat) (src : Source), (Instr.bwr ch src n).WellFormed → s.BulkReady n →
    ∃ (t : State) (g : Nat → F32), exec (.bwr ch src n) s = .next t ∧ s.Ramp n g ∧
      t = { s with ring := t.ring, draws := t.draws, answer := some ⟨.done, none⟩ } ∧
      (∀ k, k < n → ringRead t.ring (min ch (s.cfgNch.toNat - 1)) (s.writeSpan k) =
        fmul s.numerics (s.draws + 3 + 4 * k) (g k)
          (match src with
            | .blk => blkRead s.blk ch k
            | .wet => (wetRead s.wet (min ch (s.cfgNch.toNat - 1)) k).getD (Config.freeWord (s.draws + 2 + 4 * k)))) ∧
      ∀ c j, j < 2 ^ 32 → (¬ ∃ k, k < n ∧ c = min ch (s.cfgNch.toNat - 1) ∧ j = s.writeSpan k) →
        ringRead t.ring c j = ringRead s.ring c j

/-- 42_bulk R110, R112, R114, 41_process R103: BRD is done in every state its checks accept; scratch word `k` of delay
channel `min(CH, NCH-1)` becomes `g_k`, of the ramp, times element `k` of the span at the read cursor; nothing else
changes. -/
def Obligations.BrdReadsSpan : Prop :=
  ∀ (s : State) (ch n : Nat), (Instr.brd ch n).WellFormed → s.BulkReady n →
    ∃ (t : State) (g : Nat → F32), exec (.brd ch n) s = .next t ∧ s.Ramp n g ∧
      t = { s with wet := t.wet, draws := t.draws, answer := some ⟨.done, none⟩ } ∧
      (∀ k, k < n → wetRead t.wet (min ch (s.cfgNch.toNat - 1)) k =
        some (fmul s.numerics (s.draws + 3 + 4 * k) (g k)
          (ringRead s.ring (min ch (s.cfgNch.toNat - 1)) (s.readSpan k)))) ∧
      ∀ c k, k < 65536 → ¬ (c = min ch (s.cfgNch.toNat - 1) ∧ k < n) → wetRead t.wet c k = wetRead s.wet c k

/-- 42_bulk R110, R112, R115, R118, 41_process R103: BADD is done in every state its checks accept; element `k` of the
span at the write cursor of delay channel `min(CH, NCH-1)` becomes `fadd(ring, fmul(g_k, src_k))`, `g` being the ramp;
nothing else changes. An unwritten scratch word is read as a free value (entry 5). -/
def Obligations.BaddAddsToSpan : Prop :=
  ∀ (s : State) (ch n : Nat) (src : Source), (Instr.badd ch src n).WellFormed → s.BulkReady n →
    ∃ (t : State) (g : Nat → F32), exec (.badd ch src n) s = .next t ∧ s.Ramp n g ∧
      t = { s with ring := t.ring, draws := t.draws, answer := some ⟨.done, none⟩ } ∧
      (∀ k, k < n → ringRead t.ring (min ch (s.cfgNch.toNat - 1)) (s.writeSpan k) =
        fadd s.numerics (s.draws + 4 + 4 * k) (ringRead s.ring (min ch (s.cfgNch.toNat - 1)) (s.writeSpan k))
          (fmul s.numerics (s.draws + 3 + 4 * k) (g k)
            (match src with
              | .blk => blkRead s.blk ch k
              | .wet => (wetRead s.wet (min ch (s.cfgNch.toNat - 1)) k).getD (Config.freeWord (s.draws + 2 + 4 * k))))) ∧
      ∀ c j, j < 2 ^ 32 → (¬ ∃ k, k < n ∧ c = min ch (s.cfgNch.toNat - 1) ∧ j = s.writeSpan k) →
        ringRead t.ring c j = ringRead s.ring c j

/-- 42_bulk R110, D40: with `n = 0` the bulk copies are done and access no memory. -/
def Obligations.BulkZeroLength : Prop :=
  ∀ (s : State) (ch : Nat) (src : Source), ch < 16 → s.BulkReady 0 →
    exec (.bwr ch src 0) s = .next { s with answer := some ⟨.done, none⟩ } ∧
      exec (.brd ch 0) s = .next { s with answer := some ⟨.done, none⟩ } ∧
      exec (.badd ch src 0) s = .next { s with answer := some ⟨.done, none⟩ }

/-- 42_bulk R110, 60_exceptions R143: the bulk copies fault NOT_PREPARED, else UNSET, else BAD_OPERAND, and change
nothing but ERR. -/
def Obligations.BulkFaults : Prop :=
  ∀ (s : State) (ch n : Nat) (src : Source) (i : Instr), s.err = none →
    i ∈ [Instr.bwr ch src n, .brd ch n, .badd ch src n] →
    (s.prepared = false →
      exec i s = .next { s with err := some .notPrepared, answer := some ⟨.fault .notPrepared, none⟩ }) ∧
    (s.prepared = true → ¬ s.GainSet →
      exec i s = .next { s with err := some .unset, answer := some ⟨.fault .unset, none⟩ }) ∧
    (s.prepared = true → s.GainSet → s.cfgBlock.toNat < n →
      exec i s = .next { s with err := some .badOperand, answer := some ⟨.fault .badOperand, none⟩ })

/-- 42_bulk R116: ADV is the word `0x70000000 OR n`; it moves both cursors by `n` modulo `L` while prepared, for every
`n`, changes nothing else, and faults NOT_PREPARED otherwise. -/
def Obligations.AdvMovesCursors : Prop :=
  (∀ n : BitVec 16, decodeCommand (0x70000000 ||| n.zeroExtend 32) = .ok (.adv n.toNat)) ∧
  ∀ (s : State) (n : Nat), s.Inv → s.err = none →
    (s.prepared = true → ∃ t, exec (.adv n) s = .next t ∧
      t = { s with wrPos := t.wrPos, rdPos := t.rdPos, answer := some ⟨.done, none⟩ } ∧
      t.wrPos.toNat = (s.wrPos.toNat + n) % s.len ∧ t.rdPos.toNat = (s.rdPos.toNat + n) % s.len) ∧
    (s.prepared = false → exec (.adv n) s =
      .next { s with err := some .notPrepared, answer := some ⟨.fault .notPrepared, none⟩ })

/-- 42_bulk R117, for every input channel `ch` with a delay channel of its own: the bulk block leaves the cursors as
PROC does and no other region changed; where no word of the read span is written earlier in the block (`D = 0` or `n ≤
D`) it leaves region `ch` as PROC does, and the delayed samples in the scratch; where one is (`1 ≤ D < n`) an impulse
into a silent region tells them apart, PROC having put the impulse's echo where the bulk block leaves `+0.0`. The
equality is on finite samples, so that no NaN is drawn, and a feedback that is not `-0.0`, so that the gain is constant;
the difference is for a feedback that is not zero; both with the numerics of 00_scope R13. -/
def Obligations.BulkBlockEqualsProc : Prop :=
  ∀ (s : State) (nout nin n ch : Nat), (Instr.proc nout nin n).WellFormed → s.ProcReady nin n →
    nin ≤ s.cfgNch.toNat → ch < nin →
      ∃ p b, exec (.proc nout nin n) s = .next p ∧ s.BulkBlock ch n b ∧
        b.wrPos = p.wrPos ∧ b.rdPos = p.rdPos ∧
        (∀ c j, c ≠ ch → j < 2 ^ 32 → ringRead b.ring c j = ringRead s.ring c j) ∧
        (s.delaySamples.toNat = 0 ∨ n ≤ s.delaySamples.toNat → s.numerics = binary32 → s.feedback.bits ≠ 0x80000000 →
          (∀ k, k < n → f32Finite (blkRead s.blk ch k) = true) →
          (∀ j, j < s.len → f32Finite (ringRead s.ring ch j) = true) →
            (∀ j, j < 2 ^ 32 → ringRead b.ring ch j = ringRead p.ring ch j) ∧
              ∀ k, k < n → wetRead b.wet ch k = some (ringRead s.ring ch (s.readSpan k))) ∧
        (1 ≤ s.delaySamples.toNat → s.delaySamples.toNat < n → s.numerics = binary32 → f32Units s.feedback.bits ≠ 0 →
          (∀ k, k < n → blkRead s.blk ch k = if k = 0 then 0x3F800000 else 0) →
          (∀ j, j < s.len → ringRead s.ring ch j = 0) →
            ringRead p.ring ch (s.writeSpan s.delaySamples.toNat) = s.feedback.bits ∧
              ringRead b.ring ch (s.writeSpan s.delaySamples.toNat) = 0)

/-! 43_parameters: the setters and register access. -/

/-- 43_parameters R126: SETDT on either port, at REG 0x10: a finite value with `0 < real(v) <= 2` is stored and, while
prepared, `D` and the read cursor are recomputed; any other faults BAD_PARAM; nothing else changes. -/
def Obligations.SetdtRetunes : Prop :=
  ∀ (s : State) (p : Port) (v : F32), s.Inv → s.err = none →
    decodeTransaction (encodeSetter p 0x10 v) = .run (.setdt p v) ∧
    (f32Finite v = true ∧ 0 < f32Real v ∧ f32Real v ≤ 2 →
      (s.prepared = false →
        exec (.setdt p v) s = .next { s with delayTime := ⟨v, true⟩, answer := some ⟨.done, none⟩ }) ∧
      (s.prepared = true → ∃ t, exec (.setdt p v) s = .next t ∧
        t = { s with
          delayTime := ⟨v, true⟩, delaySamples := t.delaySamples, rdPos := t.rdPos
          answer := some ⟨.done, none⟩ } ∧
        t.delaySamples.toNat = dsamp v s.cfgRate ∧
        t.rdPos.toNat = (s.wrPos.toNat + s.len - dsamp v s.cfgRate) % s.len)) ∧
    (¬ (f32Finite v = true ∧ 0 < f32Real v ∧ f32Real v ≤ 2) → exec (.setdt p v) s =
      .next { s with err := some .badParam, answer := some ⟨.fault .badParam, none⟩ })

/-- 43_parameters R127, R128, R129: SETDRY, SETWET and SETFB on either port, at REG 0x11 to 0x13: a finite value with
`0 <= real(v) <= 1` is stored and nothing else changes; any other faults BAD_PARAM. -/
def Obligations.MixSettersStore : Prop :=
  ∀ (s : State) (p : Port) (v : F32), s.err = none →
    (decodeTransaction (encodeSetter p 0x11 v) = .run (.setdry p v) ∧
      decodeTransaction (encodeSetter p 0x12 v) = .run (.setwet p v) ∧
      decodeTransaction (encodeSetter p 0x13 v) = .run (.setfb p v)) ∧
    (f32Finite v = true ∧ 0 ≤ f32Real v ∧ f32Real v ≤ 1 →
      exec (.setdry p v) s = .next { s with dryMix := ⟨v, true⟩, answer := some ⟨.done, none⟩ } ∧
      exec (.setwet p v) s = .next { s with wetMix := ⟨v, true⟩, answer := some ⟨.done, none⟩ } ∧
      exec (.setfb p v) s = .next { s with feedback := ⟨v, true⟩, answer := some ⟨.done, none⟩ }) ∧
    (¬ (f32Finite v = true ∧ 0 ≤ f32Real v ∧ f32Real v ≤ 1) →
      ∀ i ∈ [Instr.setdry p v, .setwet p v, .setfb p v],
        exec i s = .next { s with err := some .badParam, answer := some ⟨.fault .badParam, none⟩ })

/-- 43_parameters R130: a host write of an operand register stores the word, sets the register, and changes nothing
else. -/
def Obligations.OperandWritesStore : Prop :=
  ∀ (s : State) (v : Word), s.busy = false → s.err = none →
    step (s.presented (hostWriteOf 0x02 v)) = .next { s with srLo := ⟨v, true⟩, answer := some ⟨.done, none⟩ } ∧
    step (s.presented (hostWriteOf 0x03 v)) = .next { s with srHi := ⟨v, true⟩, answer := some ⟨.done, none⟩ } ∧
    step (s.presented (hostWriteOf 0x04 v)) = .next { s with blockSize := ⟨v, true⟩, answer := some ⟨.done, none⟩ } ∧
    step (s.presented (hostWriteOf 0x05 v)) = .next { s with numCh := ⟨v, true⟩, answer := some ⟨.done, none⟩ } ∧
    step (s.presented (hostWriteOf 0x06 v)) = .next { s with gainStart := ⟨v, true⟩, answer := some ⟨.done, none⟩ } ∧
    step (s.presented (hostWriteOf 0x07 v)) = .next { s with gainEnd := ⟨v, true⟩, answer := some ⟨.done, none⟩ }

/-- 43_parameters R131, 10_state R25, R28, R43, 60_exceptions R141: what a host read of each register returns, faulted
or not: CMD 0, STATUS its fields, ERR among them with the code of its fault, a host-writable register its bits or, while
unset, a free word, a geometry register its value or, while unprepared, 0; nothing else changes. A reserved address
faults BAD_ADDR and returns 0, or while faulted returns 0 and changes nothing. -/
def Obligations.RegisterReads : Prop :=
  ∀ s : State, s.busy = false →
    step (s.presented (hostReadOf 0x00)) = .next { s with answer := some ⟨.done, some 0⟩ } ∧
    (∃ w, step (s.presented (hostReadOf 0x01)) = .next { s with answer := some ⟨.done, some w⟩ } ∧
      field w.toNat 0 0 = 0 ∧ field w.toNat 1 1 = s.prepared.toNat ∧ field w.toNat 7 2 = 0 ∧
      field w.toNat 31 16 = 0 ∧
      field w.toNat 15 8 =
        (match s.err with
          | none => 0x00
          | some .illegalCmd => 0x01
          | some .config => 0x02
          | some .unset => 0x03
          | some .notPrepared => 0x04
          | some .badOperand => 0x05
          | some .badParam => 0x06
          | some .badAddr => 0x07)) ∧
    (∀ x ∈ [(0x02, s.srLo), (0x03, s.srHi), (0x04, s.blockSize), (0x05, s.numCh), (0x06, s.gainStart),
        (0x07, s.gainEnd), (0x10, s.delayTime), (0x11, s.dryMix), (0x12, s.wetMix), (0x13, s.feedback)],
      (x.2.isSet = true → step (s.presented (hostReadOf x.1)) =
        .next { s with answer := some ⟨.done, some x.2.bits⟩ }) ∧
      (x.2.isSet = false → step (s.presented (hostReadOf x.1)) =
        .next { s with answer := some ⟨.done, some (Config.freeWord s.draws)⟩, draws := s.draws + 1 })) ∧
    (∀ x ∈ [(0x08, s.bufLen), (0x09, s.wrPos), (0x0A, s.rdPos), (0x0B, s.delaySamples), (0x0C, s.cfgBlock),
        (0x0D, s.cfgNch), (0x0E, s.cfgSrLo), (0x0F, s.cfgSrHi)],
      step (s.presented (hostReadOf x.1)) =
        .next { s with answer := some ⟨.done, some (if s.prepared then x.2 else 0)⟩ }) ∧
    ∀ addr, 0x14 ≤ addr → addr < 2 ^ 20 →
      (s.err = none → step (s.presented (hostReadOf addr)) =
        .next { s with err := some .badAddr, answer := some ⟨.fault .badAddr, some 0⟩ }) ∧
      (s.err ≠ none → step (s.presented (hostReadOf addr)) =
        .next { s with answer := some ⟨.discarded, some 0⟩ })

/-- 43_parameters R132: a read of a word of the WET window returns it, or a free word while it is unwritten, and
changes nothing else, faulted or not; outside the prepared window it faults BAD_ADDR and returns 0, or while faulted
returns 0 and changes nothing. -/
def Obligations.WindowReads : Prop :=
  ∀ (s : State) (c k : Nat), s.busy = false → c < 16 → k < 65536 →
    (s.prepared = true ∧ c < s.cfgNch.toNat ∧ k < s.cfgBlock.toNat →
      (∀ v, wetRead s.wet c k = some v → step (s.presented (hostReadOf (0x100000 + c * 65536 + k))) =
        .next { s with answer := some ⟨.done, some v⟩ }) ∧
      (wetRead s.wet c k = none → step (s.presented (hostReadOf (0x100000 + c * 65536 + k))) =
        .next { s with answer := some ⟨.done, some (Config.freeWord s.draws)⟩, draws := s.draws + 1 })) ∧
    (¬ (s.prepared = true ∧ c < s.cfgNch.toNat ∧ k < s.cfgBlock.toNat) →
      (s.err = none → step (s.presented (hostReadOf (0x100000 + c * 65536 + k))) =
        .next { s with err := some .badAddr, answer := some ⟨.fault .badAddr, some 0⟩ }) ∧
      (s.err ≠ none → step (s.presented (hostReadOf (0x100000 + c * 65536 + k))) =
        .next { s with answer := some ⟨.discarded, some 0⟩ }))

/-! 60_exceptions, 20_memory: faults and the ports. -/

/-- 20_memory R65: the accesses forbidden whatever the state, on either port: while `ERR = 0` each faults BAD_ADDR and
changes nothing else; a faulting read returns 0. -/
def Obligations.ForbiddenAccessesFault : Prop :=
  ∀ (s : State) (addr : Nat) (v : Word) (d : Option Word) (e : Event), s.busy = false → s.err = none →
    ((addr < 2 ^ 24 ∧ (0x200000 ≤ addr ∨ (0x14 ≤ addr ∧ addr < 0x100000)) ∧ d = some 0 ∧ e = hostReadOf addr) ∨
      (addr < 2 ^ 24 ∧ (0x14 ≤ addr ∨ addr = 0x01 ∨ (0x08 ≤ addr ∧ addr ≤ 0x0F)) ∧ d = none ∧
        e = hostWriteOf addr v) ∨
      (addr < 2 ^ 20 ∧ d = some 0 ∧ e = controlReadOf addr) ∨
      (addr < 2 ^ 20 ∧ ¬ (0x10 ≤ addr ∧ addr ≤ 0x13) ∧ d = none ∧ e = controlWriteOf addr v)) →
      step (s.presented e) = .next { s with err := some .badAddr, answer := some ⟨.fault .badAddr, d⟩ }

/-- 60_exceptions R149, 20_memory R54, 43_parameters R125: a control-port access can change nothing but the four
parameters, `D`, the read cursor and ERR; a write to 0x10 to 0x13 does what the host port's does. -/
def Obligations.ControlPortReach : Prop :=
  (∀ (s t : State) (addr : Nat) (v : Word) (e : Event), s.busy = false →
    (e = controlReadOf addr ∨ e = controlWriteOf addr v) → step (s.presented e) = .next t →
      t = { s with
        delayTime := t.delayTime, dryMix := t.dryMix, wetMix := t.wetMix, feedback := t.feedback
        delaySamples := t.delaySamples, rdPos := t.rdPos, err := t.err, answer := t.answer }) ∧
    ∀ (s : State) (addr : Nat) (v : Word), s.busy = false → 0x10 ≤ addr → addr ≤ 0x13 →
      step (s.presented (controlWriteOf addr v)) = step (s.presented (hostWriteOf addr v))

/-- 60_exceptions R142, R144: a transaction taken while `ERR = 0` that ends in a fault has changed nothing but ERR,
which holds its code; if it is a read it returns 0. -/
def Obligations.FaultsArePrecise : Prop :=
  ∀ (s t : State) (tr : Transaction) (code : ErrCode) (d : Option Word), s.busy = false → s.err = none →
    step (s.presented (.transaction tr)) = .next t → t.answer = some ⟨.fault code, d⟩ →
      t = { s with err := some code, answer := some ⟨.fault code, d⟩ } ∧
        (∀ a, tr = .hostRead a → d = some 0) ∧ ∀ a, tr = .controlRead a → d = some 0

/-- 60_exceptions R145: while faulted every command but RST, every setter and every register write is discarded, and
reads change nothing. -/
def Obligations.FaultedIsQuiescent : Prop :=
  ∀ (s : State) (code : ErrCode), s.busy = false → s.err = some code →
    (∀ i, i ≠ .rst → exec i s = .next { s with answer := some ⟨.discarded, none⟩ }) ∧
    (∀ addr v, addr < 2 ^ 24 → ¬ (addr = 0 ∧ v = 0x10000000) →
      step (s.presented (hostWriteOf addr v)) = .next { s with answer := some ⟨.discarded, none⟩ }) ∧
    (∀ addr v, step (s.presented (controlWriteOf addr v)) = .next { s with answer := some ⟨.discarded, none⟩ }) ∧
    ∀ addr e t, (e = hostReadOf addr ∨ e = controlReadOf addr) → step (s.presented e) = .next t →
      t = { s with answer := t.answer, draws := t.draws }

/-- 60_exceptions R147: only RST and hardware reset clear ERR; otherwise the first fault's code stays. -/
def Obligations.OnlyResetClearsError : Prop :=
  ∀ (s t : State) (code : ErrCode), s.err = some code → step s = .next t →
    t.err = some code ∨ (t.err = none ∧ ∃ e rest, s.inbox = e :: rest ∧
      (e = .reset ∨ ∃ tr, e = .transaction tr ∧ decodeTransaction tr = .run .rst))

/-- 10_state R29, 40_init R94: PREPARED becomes 1 only by PREP, and becomes 0 only by RST or reset. -/
def Obligations.OnlyPrepPrepares : Prop :=
  ∀ s t : State, step s = .next t → s.prepared ≠ t.prepared →
    ∃ e rest, s.inbox = e :: rest ∧
      ((t.prepared = true ∧ ∃ tr, e = .transaction tr ∧ decodeTransaction tr = .run .prep) ∨
        (t.prepared = false ∧ (e = .reset ∨ ∃ tr, e = .transaction tr ∧ decodeTransaction tr = .run .rst)))

/-- 10_state R34, 40_init R94: `L`, `NCH`, CFG_BLOCK and CFG_SR change only by PREP, RST or reset; the configuration,
the implementation's parameters and its numerics record, never changes. -/
def Obligations.GeometryFixedBetweenPreps : Prop :=
  ∀ s t : State, step s = .next t →
    t.conf = s.conf ∧
      ((t.bufLen = s.bufLen ∧ t.cfgNch = s.cfgNch ∧ t.cfgBlock = s.cfgBlock ∧ t.cfgSrLo = s.cfgSrLo ∧
          t.cfgSrHi = s.cfgSrHi) ∨
        ∃ e rest, s.inbox = e :: rest ∧ (e = .reset ∨
          ∃ tr, e = .transaction tr ∧ (decodeTransaction tr = .run .prep ∨ decodeTransaction tr = .run .rst)))

/-- 20_memory R55: a transaction that is no command leaves RING, WET and BLK as they are. -/
def Obligations.OnlyCommandsTouchMemories : Prop :=
  ∀ (s t : State) (tr : Transaction), s.busy = false → step (s.presented (.transaction tr)) = .next t →
    (∀ w, tr ≠ .hostWrite 0 w) → t.ring = s.ring ∧ t.wet = s.wet ∧ t.blk = s.blk

/-! 20_memory: the memories. -/

/-- 20_memory R61: a read returns the word written last at its address, and a write leaves every other word alone. -/
def Obligations.ReadAfterWrite : Prop :=
  ∀ (m : Memory) (c j c' j' : Nat) (v : Word),
    (j < 2 ^ 32 → j' < 2 ^ 32 →
      ringRead (ringWrite m c j v) c' j' = if c' = c ∧ j' = j then v else ringRead m c' j') ∧
    (j < 65536 → j' < 65536 →
      wetRead (wetWrite m c j v) c' j' = (if c' = c ∧ j' = j then some v else wetRead m c' j') ∧
      blkRead (blkWrite m c j v) c' j' = if c' = c ∧ j' = j then v else blkRead m c' j')

/-- The canonical form is one form per contents (entry 9): two canonical memories that read the same everywhere are the
same list. -/
def Obligations.CanonicalFormUnique : Prop :=
  ∀ (fill : Option Word) (m m' : Memory), Memory.wf fill m → Memory.wf fill m' →
    (∀ a, Memory.read fill m a = Memory.read fill m' a) → m = m'

/-- 20_memory R64 (entry 14): a host write of BLK between commands changes that word and nothing else. -/
def Obligations.HostWritesBlock : Prop :=
  ∀ (s : State) (ch : BitVec 4) (i : BitVec 16) (v : Word), s.busy = false →
    ∃ t, step (s.presented (.hostBlk ch i v)) = .next t ∧ t = { s with blk := t.blk } ∧
      ∀ ch' i', i' < 65536 → blkRead t.blk ch' i' =
        if ch' = ch.toNat ∧ i' = i.toNat then v else blkRead s.blk ch' i'

/-! 00_scope: the numerics. -/

/-- 00_scope R13: the rounding of an exact magnitude of `num / den` units of 2^-149 is the nearest finite binary32, a
tie goes to the even one, and it is infinity exactly from the largest finite one plus half its spacing on. -/
def Obligations.RoundsToNearestEven : Prop :=
  ∀ num den : Nat, 0 < den →
    (roundMagnitude num den = 0x7F800000 ↔ (2 ^ 277 - 2 ^ 252) * den ≤ num) ∧
      (roundMagnitude num den < 0x7F800000 → ∀ m, m < 0x7F800000 → m ≠ roundMagnitude num den →
        |(num : ℚ) / den - f32Units (f32Pack false (roundMagnitude num den))| ≤
          |(num : ℚ) / den - f32Units (f32Pack false m)| ∧
        (|(num : ℚ) / den - f32Units (f32Pack false (roundMagnitude num den))| =
            |(num : ℚ) / den - f32Units (f32Pack false m)| → roundMagnitude num den % 2 = 0))

/-- 00_scope R13: on finite operands a finite sum, difference, product or quotient is the binary32 nearest to the exact
real result. -/
def Obligations.ArithmeticIsNearest : Prop :=
  ∀ a b r y : F32, f32Finite a = true → f32Finite b = true → f32Finite r = true → f32Finite y = true →
    (binary32.add a b = some r → |f32Real r - (f32Real a + f32Real b)| ≤ |f32Real y - (f32Real a + f32Real b)|) ∧
    (binary32.sub a b = some r → |f32Real r - (f32Real a - f32Real b)| ≤ |f32Real y - (f32Real a - f32Real b)|) ∧
    (binary32.mul a b = some r → |f32Real r - f32Real a * f32Real b| ≤ |f32Real y - f32Real a * f32Real b|) ∧
    (binary32.div a b = some r → f32Real b ≠ 0 →
      |f32Real r - f32Real a / f32Real b| ≤ |f32Real y - f32Real a / f32Real b|)

/-- 00_scope R13: the exactness properties the rule names, and that `u2f` is exact below 2^16. -/
def Obligations.NumericsIdentities : Prop :=
  (∀ x : F32, f32IsNaN x = false → binary32.mul 0x3F800000 x = some x) ∧
    (∀ x : F32, f32IsNaN x = false → x ≠ 0x80000000 → binary32.add 0 x = some x) ∧
    (∀ x : F32, f32Finite x = true → binary32.mul x 0 = some 0 ∨ binary32.mul x 0 = some 0x80000000) ∧
    ∀ n : Nat, n < 65536 → f32Finite (u2f binary32 n) = true ∧ f32Real (u2f binary32 n) = n

/-- 00_scope R14: fadd, fsub, fmul and fdiv of 00_scope R13's numerics with a NaN operand, and in the invalid
operations, give the NaN a free word picks (entry 5); a free word always picks a NaN, and every NaN is picked by some
word. -/
def Obligations.InvalidGivesAnyNaN : Prop :=
  (∀ b, f32IsNaN (nanWord b) = true) ∧ (∀ w, f32IsNaN w = true → ∃ b, nanWord b = w) ∧
    ∀ (t : Nat) (a b : F32),
      let c := binary32
      let nan := nanWord (Config.freeWord t)
      (f32IsNaN a = true ∨ f32IsNaN b = true →
        ∀ r ∈ [fadd c t a b, fsub c t a b, fmul c t a b, fdiv c t a b], r = nan) ∧
      (f32IsInf a = true → f32IsInf b = true →
        (if f32Negative a = f32Negative b then fsub c t a b else fadd c t a b) = nan ∧ fdiv c t a b = nan) ∧
      (f32Finite a = true → f32Units a = 0 →
        (f32IsInf b = true → fmul c t a b = nan ∧ fmul c t b a = nan) ∧
        (f32Finite b = true → f32Units b = 0 → fdiv c t a b = nan))

/-! 60_exceptions R146: the fault as an outcome of its own. -/

/-- 60_exceptions R146, R144, R145; 00_scope R19: the engine's step answers a fault, with its code, exactly where the
transaction taken ends in one, an ordinary next state exactly where it is done, and while faulted no fault at all; a run
of ordinary steps to a good end is a run of the host's steps with `ERR = 0` throughout that ends idle. That the host's
step answers the faulted state as a next state is the model's choice (entry 2). -/
def Obligations.FaultIsADistinctOutcome : Prop :=
  (∀ (s t : State) (tr : Transaction), s.busy = false → s.err = none →
    (∀ code, engineStep (s.presented (.transaction tr)) = .fault code t ↔
      step (s.presented (.transaction tr)) = .next t ∧ ∃ d, t.answer = some ⟨.fault code, d⟩) ∧
    (engineStep (s.presented (.transaction tr)) = .ordinary t ↔
      step (s.presented (.transaction tr)) = .next t ∧ ∃ d, t.answer = some ⟨.done, d⟩)) ∧
    (∀ (s t : State) (code : ErrCode), s.err ≠ none → engineStep s ≠ .fault code t) ∧
    ∀ (k : Nat) (s t : State), goodRun k s = some t →
      t.EndedWell ∧ Sys2Proof.core.run k s = .next t ∧
        ∀ j, j ≤ k → ∃ u : State, Sys2Proof.core.run j s = .next u ∧ u.err = none
end

