-- ==== Sys2Proof/Laws/Numerics.lean ====
section
/-! SUPPORT. Small facts about the numbers: bounds of the fields, the delay against the capacity. -/

namespace Sys2Proof.Machine

theorem f32Exponent_lt (w : F32) : f32Exponent w < 256 := Nat.mod_lt _ (by norm_num)

theorem f32Fraction_lt (w : F32) : f32Fraction w < 2 ^ 23 := Nat.mod_lt _ (by norm_num)

/-- `rnd` is monotone in the numerator. -/
theorem rnd_mono {a b den : Nat} (h : a ≤ b) : rnd a den ≤ rnd b den :=
  Nat.div_le_div_right (by omega)

/-- Scaling both sides of the fraction changes nothing. -/
theorem rnd_scale {num den k : Nat} (hk : 0 < k) : rnd (k * num) (k * den) = rnd num den := by
  unfold rnd
  rw [show 2 * (k * num) + k * den = k * (2 * num + den) by ring, show 2 * (k * den) = k * (2 * den) by ring,
    Nat.mul_div_mul_left _ _ hk]

/-- A legal delay time is at most two seconds, in units of 2^-149. -/
theorem legalDelay_units {v : F32} (h : legalDelay v = true) : f32Units v ≤ 2 * 2 ^ 149 := by
  simp only [legalDelay, Bool.and_eq_true, decide_eq_true_eq] at h
  obtain ⟨⟨_, h1⟩, h2⟩ := h
  unfold f32Scaled at h1 h2
  split_ifs at h1 h2
  · omega
  · exact_mod_cast h2

end Sys2Proof.Machine
end

