-- ==== Sys2Proof/Laws/Memory.lean ====
section
/-! SUPPORT. The laws of the memories: a read after a write, and the canonical form kept. -/

namespace Sys2Proof.Machine

theorem Memory.lookup_insert_same (m : Memory) (a : Nat) (v : Word) :
    Memory.lookup (Memory.insert m a v) a = some v := by
  induction m with
  | nil => simp [Memory.insert, Memory.lookup]
  | cons x m ih =>
    obtain ⟨k, x⟩ := x
    simp only [Memory.insert]
    split_ifs with h1 h2
    · simp [Memory.lookup]
    · simp [Memory.lookup]
    · rw [Memory.lookup, if_neg (fun h => h2 h.symm), ih]

theorem Memory.lookup_insert_ne (m : Memory) {a b : Nat} (v : Word) (h : b ≠ a) :
    Memory.lookup (Memory.insert m a v) b = Memory.lookup m b := by
  induction m with
  | nil => simp [Memory.insert, Memory.lookup, h.symm]
  | cons x m ih =>
    obtain ⟨k, x⟩ := x
    simp only [Memory.insert]
    split_ifs with h1 h2
    · simp [Memory.lookup, h.symm]
    · subst h2; simp [Memory.lookup, h.symm]
    · simp [Memory.lookup, ih]

theorem Memory.lookup_erase_same (m : Memory) (a : Nat) : Memory.lookup (Memory.erase m a) a = none := by
  induction m with
  | nil => rfl
  | cons x m ih =>
    obtain ⟨k, x⟩ := x
    by_cases h : k = a
    · simpa [Memory.erase, h] using ih
    · simpa [Memory.erase, Memory.lookup, h] using ih

theorem Memory.lookup_erase_ne (m : Memory) {a b : Nat} (h : b ≠ a) :
    Memory.lookup (Memory.erase m a) b = Memory.lookup m b := by
  induction m with
  | nil => rfl
  | cons x m ih =>
    obtain ⟨k, x⟩ := x
    unfold Memory.erase at ih ⊢
    by_cases hk : k = a
    · simp only [hk, List.filter_cons, bne_self_eq_false, Bool.false_eq_true, if_false, Memory.lookup]
      rw [if_neg h.symm, ih]
    · simp only [List.filter_cons, bne_iff_ne, ne_eq, hk, not_false_eq_true, if_true, Memory.lookup, ih]

/-- A read after a write to the same address gives the word written (20_memory R61). -/
@[simp] theorem Memory.read_write_same (fill : Option Word) (m : Memory) (a : Nat) (v : Word) :
    Memory.read fill (Memory.write fill m a v) a = some v := by
  unfold Memory.read Memory.write
  split_ifs with h
  · simp [Memory.lookup_erase_same, h]
  · simp [Memory.lookup_insert_same]

/-- A write leaves every other address alone. -/
theorem Memory.read_write_ne (fill : Option Word) (m : Memory) {a b : Nat} (v : Word) (h : b ≠ a) :
    Memory.read fill (Memory.write fill m a v) b = Memory.read fill m b := by
  unfold Memory.read Memory.write
  split_ifs
  · rw [Memory.lookup_erase_ne m h]
  · rw [Memory.lookup_insert_ne m v h]

theorem Memory.mem_insert {m : Memory} {a : Nat} {v : Word} {x : Nat × Word}
    (h : x ∈ Memory.insert m a v) : x = (a, v) ∨ x ∈ m := by
  induction m with
  | nil => simpa [Memory.insert] using h
  | cons y m ih =>
    obtain ⟨k, y⟩ := y
    simp only [Memory.insert] at h
    split_ifs at h
    · simpa using h
    · simp only [List.mem_cons] at h ⊢; tauto
    · simp only [List.mem_cons] at h ⊢; rcases h with h | h
      · tauto
      · rcases ih h with h | h <;> tauto

/-- What a write can list: the pair written, and what was listed. -/
theorem Memory.mem_write {fill : Option Word} {m : Memory} {a : Nat} {v : Word} {x : Nat × Word}
    (h : x ∈ Memory.write fill m a v) : x = (a, v) ∨ x ∈ m := by
  unfold Memory.write at h
  split_ifs at h
  · exact .inr (List.mem_of_mem_filter h)
  · exact Memory.mem_insert h

theorem Memory.insert_sorted {m : Memory} (a : Nat) (v : Word)
    (h : m.Pairwise (fun x y => x.1 < y.1)) : (Memory.insert m a v).Pairwise (fun x y => x.1 < y.1) := by
  induction m with
  | nil => simp [Memory.insert]
  | cons y m ih =>
    obtain ⟨k, y⟩ := y
    rw [List.pairwise_cons] at h
    simp only [Memory.insert]
    split_ifs with h1 h2
    · refine List.pairwise_cons.2 ⟨fun z hz => ?_, List.pairwise_cons.2 h⟩
      rcases List.mem_cons.1 hz with rfl | hz
      · exact h1
      · exact h1.trans (h.1 z hz)
    · subst h2; exact List.pairwise_cons.2 h
    · refine List.pairwise_cons.2 ⟨fun z hz => ?_, ih h.2⟩
      rcases Memory.mem_insert hz with rfl | hz
      · simp only; omega
      · exact h.1 z hz

/-- A write keeps the canonical form. -/
theorem Memory.write_wf {fill : Option Word} {m : Memory} (a : Nat) (v : Word) (h : Memory.wf fill m) :
    Memory.wf fill (Memory.write fill m a v) := by
  unfold Memory.write
  split_ifs with hv
  · exact ⟨h.1.filter _, fun x hx => h.2 x (List.mem_of_mem_filter hx)⟩
  · refine ⟨Memory.insert_sorted a v h.1, fun x hx => ?_⟩
    rcases Memory.mem_insert hx with rfl | hx
    · exact hv
    · exact h.2 x hx

/-- The empty memory is canonical: the memories of `State.reset` and of PREP. -/
theorem Memory.nil_wf (fill : Option Word) : Memory.wf fill [] := ⟨.nil, fun _ h => by cases h⟩

/-! The three spaces by their coordinates. -/

theorem ringAddr_inj {c c' j j' : Nat} (hj : j < 2 ^ 32) (hj' : j' < 2 ^ 32) :
    ringAddr c j = ringAddr c' j' ↔ c = c' ∧ j = j' := by
  unfold ringAddr; omega

theorem blockAddr_inj {c c' k k' : Nat} (hk : k < 65536) (hk' : k' < 65536) :
    blockAddr c k = blockAddr c' k' ↔ c = c' ∧ k = k' := by
  unfold blockAddr; omega

@[simp] theorem ringRead_ringWrite_same (m : Memory) (c j : Nat) (v : F32) :
    ringRead (ringWrite m c j v) c j = v := by simp [ringRead, ringWrite]

theorem ringRead_ringWrite_ne (m : Memory) {c c' j j' : Nat} (v : F32) (h : ringAddr c' j' ≠ ringAddr c j) :
    ringRead (ringWrite m c j v) c' j' = ringRead m c' j' := by
  simp [ringRead, ringWrite, Memory.read_write_ne _ _ _ h]

@[simp] theorem blkRead_blkWrite_same (m : Memory) (ch i : Nat) (v : F32) :
    blkRead (blkWrite m ch i v) ch i = v := by simp [blkRead, blkWrite]

theorem blkRead_blkWrite_ne (m : Memory) {ch ch' i i' : Nat} (v : F32) (h : blockAddr ch' i' ≠ blockAddr ch i) :
    blkRead (blkWrite m ch i v) ch' i' = blkRead m ch' i' := by
  simp [blkRead, blkWrite, Memory.read_write_ne _ _ _ h]

@[simp] theorem wetRead_wetWrite_same (m : Memory) (c k : Nat) (v : F32) :
    wetRead (wetWrite m c k v) c k = some v := by simp [wetRead, wetWrite]

theorem wetRead_wetWrite_ne (m : Memory) {c c' k k' : Nat} (v : F32) (h : blockAddr c' k' ≠ blockAddr c k) :
    wetRead (wetWrite m c k v) c' k' = wetRead m c' k' := by
  simp [wetRead, wetWrite, Memory.read_write_ne _ _ _ h]

theorem ringWrite_wf {m : Memory} (c j : Nat) (v : F32) (h : Memory.wf (fillOf .ring) m) :
    Memory.wf (fillOf .ring) (ringWrite m c j v) := Memory.write_wf _ _ h

theorem wetWrite_wf {m : Memory} (c k : Nat) (v : F32) (h : Memory.wf (fillOf .wet) m) :
    Memory.wf (fillOf .wet) (wetWrite m c k v) := Memory.write_wf _ _ h

theorem blkWrite_wf {m : Memory} (ch i : Nat) (v : F32) (h : Memory.wf (fillOf .blk) m) :
    Memory.wf (fillOf .blk) (blkWrite m ch i v) := Memory.write_wf _ _ h

/-- A ring nothing is listed in is silent (10_state R38). -/
@[simp] theorem ringRead_nil (c j : Nat) : ringRead [] c j = 0 := rfl

/-- A scratch nothing is listed in is unwritten (10_state R39). -/
@[simp] theorem wetRead_nil (c k : Nat) : wetRead [] c k = none := rfl

/-! Loops. -/

@[simp] theorem upTo_zero {α : Type} (f : Nat → α → α) (x : α) : upTo f 0 x = x := rfl

theorem upTo_succ {α : Type} (f : Nat → α → α) (n : Nat) (x : α) : upTo f (n + 1) x = f n (upTo f n x) := rfl

/-- The invariant of a loop: it holds at the start and each pass below `n` keeps it. -/
theorem upTo_induct {α : Type} {f : Nat → α → α} {n : Nat} {x : α} (P : Nat → α → Prop) (h0 : P 0 x)
    (hs : ∀ k y, k < n → P k y → P (k + 1) (f k y)) : P n (upTo f n x) := by
  induction n with
  | zero => exact h0
  | succ n ih => exact hs n _ (Nat.lt_succ_self n) (ih fun k y hk => hs k y (Nat.lt_succ_of_lt hk))

end Sys2Proof.Machine
end

