-- ==== Sys2Proof/Laws/State.lean ====
section
/-! SUPPORT. What each named update does to each field: one lemma per field per update. -/

namespace Sys2Proof.Machine

/-! dequeue -/

@[simp] theorem State.dequeue_busy (s : State) (rest : List Event) : (s.dequeue rest).busy = s.busy := rfl
@[simp] theorem State.dequeue_prepared (s : State) (rest : List Event) : (s.dequeue rest).prepared = s.prepared := rfl
@[simp] theorem State.dequeue_err (s : State) (rest : List Event) : (s.dequeue rest).err = s.err := rfl
@[simp] theorem State.dequeue_srLo (s : State) (rest : List Event) : (s.dequeue rest).srLo = s.srLo := rfl
@[simp] theorem State.dequeue_srHi (s : State) (rest : List Event) : (s.dequeue rest).srHi = s.srHi := rfl
@[simp] theorem State.dequeue_blockSize (s : State) (rest : List Event) : (s.dequeue rest).blockSize = s.blockSize := rfl
@[simp] theorem State.dequeue_numCh (s : State) (rest : List Event) : (s.dequeue rest).numCh = s.numCh := rfl
@[simp] theorem State.dequeue_gainStart (s : State) (rest : List Event) : (s.dequeue rest).gainStart = s.gainStart := rfl
@[simp] theorem State.dequeue_gainEnd (s : State) (rest : List Event) : (s.dequeue rest).gainEnd = s.gainEnd := rfl
@[simp] theorem State.dequeue_bufLen (s : State) (rest : List Event) : (s.dequeue rest).bufLen = s.bufLen := rfl
@[simp] theorem State.dequeue_wrPos (s : State) (rest : List Event) : (s.dequeue rest).wrPos = s.wrPos := rfl
@[simp] theorem State.dequeue_rdPos (s : State) (rest : List Event) : (s.dequeue rest).rdPos = s.rdPos := rfl
@[simp] theorem State.dequeue_delaySamples (s : State) (rest : List Event) : (s.dequeue rest).delaySamples = s.delaySamples := rfl
@[simp] theorem State.dequeue_cfgBlock (s : State) (rest : List Event) : (s.dequeue rest).cfgBlock = s.cfgBlock := rfl
@[simp] theorem State.dequeue_cfgNch (s : State) (rest : List Event) : (s.dequeue rest).cfgNch = s.cfgNch := rfl
@[simp] theorem State.dequeue_cfgSrLo (s : State) (rest : List Event) : (s.dequeue rest).cfgSrLo = s.cfgSrLo := rfl
@[simp] theorem State.dequeue_cfgSrHi (s : State) (rest : List Event) : (s.dequeue rest).cfgSrHi = s.cfgSrHi := rfl
@[simp] theorem State.dequeue_delayTime (s : State) (rest : List Event) : (s.dequeue rest).delayTime = s.delayTime := rfl
@[simp] theorem State.dequeue_dryMix (s : State) (rest : List Event) : (s.dequeue rest).dryMix = s.dryMix := rfl
@[simp] theorem State.dequeue_wetMix (s : State) (rest : List Event) : (s.dequeue rest).wetMix = s.wetMix := rfl
@[simp] theorem State.dequeue_feedback (s : State) (rest : List Event) : (s.dequeue rest).feedback = s.feedback := rfl
@[simp] theorem State.dequeue_ring (s : State) (rest : List Event) : (s.dequeue rest).ring = s.ring := rfl
@[simp] theorem State.dequeue_wet (s : State) (rest : List Event) : (s.dequeue rest).wet = s.wet := rfl
@[simp] theorem State.dequeue_blk (s : State) (rest : List Event) : (s.dequeue rest).blk = s.blk := rfl
@[simp] theorem State.dequeue_inbox (s : State) (rest : List Event) : (s.dequeue rest).inbox = rest := rfl
@[simp] theorem State.dequeue_answer (s : State) (rest : List Event) : (s.dequeue rest).answer = s.answer := rfl
@[simp] theorem State.dequeue_draws (s : State) (rest : List Event) : (s.dequeue rest).draws = s.draws := rfl
@[simp] theorem State.dequeue_conf (s : State) (rest : List Event) : (s.dequeue rest).conf = s.conf := rfl

/-! finish -/

@[simp] theorem State.finish_busy (s : State) (d : Option Word) : (s.finish d).busy = s.busy := rfl
@[simp] theorem State.finish_prepared (s : State) (d : Option Word) : (s.finish d).prepared = s.prepared := rfl
@[simp] theorem State.finish_err (s : State) (d : Option Word) : (s.finish d).err = s.err := rfl
@[simp] theorem State.finish_srLo (s : State) (d : Option Word) : (s.finish d).srLo = s.srLo := rfl
@[simp] theorem State.finish_srHi (s : State) (d : Option Word) : (s.finish d).srHi = s.srHi := rfl
@[simp] theorem State.finish_blockSize (s : State) (d : Option Word) : (s.finish d).blockSize = s.blockSize := rfl
@[simp] theorem State.finish_numCh (s : State) (d : Option Word) : (s.finish d).numCh = s.numCh := rfl
@[simp] theorem State.finish_gainStart (s : State) (d : Option Word) : (s.finish d).gainStart = s.gainStart := rfl
@[simp] theorem State.finish_gainEnd (s : State) (d : Option Word) : (s.finish d).gainEnd = s.gainEnd := rfl
@[simp] theorem State.finish_bufLen (s : State) (d : Option Word) : (s.finish d).bufLen = s.bufLen := rfl
@[simp] theorem State.finish_wrPos (s : State) (d : Option Word) : (s.finish d).wrPos = s.wrPos := rfl
@[simp] theorem State.finish_rdPos (s : State) (d : Option Word) : (s.finish d).rdPos = s.rdPos := rfl
@[simp] theorem State.finish_delaySamples (s : State) (d : Option Word) : (s.finish d).delaySamples = s.delaySamples := rfl
@[simp] theorem State.finish_cfgBlock (s : State) (d : Option Word) : (s.finish d).cfgBlock = s.cfgBlock := rfl
@[simp] theorem State.finish_cfgNch (s : State) (d : Option Word) : (s.finish d).cfgNch = s.cfgNch := rfl
@[simp] theorem State.finish_cfgSrLo (s : State) (d : Option Word) : (s.finish d).cfgSrLo = s.cfgSrLo := rfl
@[simp] theorem State.finish_cfgSrHi (s : State) (d : Option Word) : (s.finish d).cfgSrHi = s.cfgSrHi := rfl
@[simp] theorem State.finish_delayTime (s : State) (d : Option Word) : (s.finish d).delayTime = s.delayTime := rfl
@[simp] theorem State.finish_dryMix (s : State) (d : Option Word) : (s.finish d).dryMix = s.dryMix := rfl
@[simp] theorem State.finish_wetMix (s : State) (d : Option Word) : (s.finish d).wetMix = s.wetMix := rfl
@[simp] theorem State.finish_feedback (s : State) (d : Option Word) : (s.finish d).feedback = s.feedback := rfl
@[simp] theorem State.finish_ring (s : State) (d : Option Word) : (s.finish d).ring = s.ring := rfl
@[simp] theorem State.finish_wet (s : State) (d : Option Word) : (s.finish d).wet = s.wet := rfl
@[simp] theorem State.finish_blk (s : State) (d : Option Word) : (s.finish d).blk = s.blk := rfl
@[simp] theorem State.finish_inbox (s : State) (d : Option Word) : (s.finish d).inbox = s.inbox := rfl
@[simp] theorem State.finish_answer (s : State) (d : Option Word) : (s.finish d).answer = some ⟨.done, d⟩ := rfl
@[simp] theorem State.finish_draws (s : State) (d : Option Word) : (s.finish d).draws = s.draws := rfl
@[simp] theorem State.finish_conf (s : State) (d : Option Word) : (s.finish d).conf = s.conf := rfl

/-! discard -/

@[simp] theorem State.discard_busy (s : State) (d : Option Word) : (s.discard d).busy = s.busy := rfl
@[simp] theorem State.discard_prepared (s : State) (d : Option Word) : (s.discard d).prepared = s.prepared := rfl
@[simp] theorem State.discard_err (s : State) (d : Option Word) : (s.discard d).err = s.err := rfl
@[simp] theorem State.discard_srLo (s : State) (d : Option Word) : (s.discard d).srLo = s.srLo := rfl
@[simp] theorem State.discard_srHi (s : State) (d : Option Word) : (s.discard d).srHi = s.srHi := rfl
@[simp] theorem State.discard_blockSize (s : State) (d : Option Word) : (s.discard d).blockSize = s.blockSize := rfl
@[simp] theorem State.discard_numCh (s : State) (d : Option Word) : (s.discard d).numCh = s.numCh := rfl
@[simp] theorem State.discard_gainStart (s : State) (d : Option Word) : (s.discard d).gainStart = s.gainStart := rfl
@[simp] theorem State.discard_gainEnd (s : State) (d : Option Word) : (s.discard d).gainEnd = s.gainEnd := rfl
@[simp] theorem State.discard_bufLen (s : State) (d : Option Word) : (s.discard d).bufLen = s.bufLen := rfl
@[simp] theorem State.discard_wrPos (s : State) (d : Option Word) : (s.discard d).wrPos = s.wrPos := rfl
@[simp] theorem State.discard_rdPos (s : State) (d : Option Word) : (s.discard d).rdPos = s.rdPos := rfl
@[simp] theorem State.discard_delaySamples (s : State) (d : Option Word) : (s.discard d).delaySamples = s.delaySamples := rfl
@[simp] theorem State.discard_cfgBlock (s : State) (d : Option Word) : (s.discard d).cfgBlock = s.cfgBlock := rfl
@[simp] theorem State.discard_cfgNch (s : State) (d : Option Word) : (s.discard d).cfgNch = s.cfgNch := rfl
@[simp] theorem State.discard_cfgSrLo (s : State) (d : Option Word) : (s.discard d).cfgSrLo = s.cfgSrLo := rfl
@[simp] theorem State.discard_cfgSrHi (s : State) (d : Option Word) : (s.discard d).cfgSrHi = s.cfgSrHi := rfl
@[simp] theorem State.discard_delayTime (s : State) (d : Option Word) : (s.discard d).delayTime = s.delayTime := rfl
@[simp] theorem State.discard_dryMix (s : State) (d : Option Word) : (s.discard d).dryMix = s.dryMix := rfl
@[simp] theorem State.discard_wetMix (s : State) (d : Option Word) : (s.discard d).wetMix = s.wetMix := rfl
@[simp] theorem State.discard_feedback (s : State) (d : Option Word) : (s.discard d).feedback = s.feedback := rfl
@[simp] theorem State.discard_ring (s : State) (d : Option Word) : (s.discard d).ring = s.ring := rfl
@[simp] theorem State.discard_wet (s : State) (d : Option Word) : (s.discard d).wet = s.wet := rfl
@[simp] theorem State.discard_blk (s : State) (d : Option Word) : (s.discard d).blk = s.blk := rfl
@[simp] theorem State.discard_inbox (s : State) (d : Option Word) : (s.discard d).inbox = s.inbox := rfl
@[simp] theorem State.discard_answer (s : State) (d : Option Word) : (s.discard d).answer = some ⟨.discarded, d⟩ := rfl
@[simp] theorem State.discard_draws (s : State) (d : Option Word) : (s.discard d).draws = s.draws := rfl
@[simp] theorem State.discard_conf (s : State) (d : Option Word) : (s.discard d).conf = s.conf := rfl

/-! raise -/

@[simp] theorem State.raise_busy (s : State) (c : ErrCode) (d : Option Word) : (s.raise c d).busy = s.busy := rfl
@[simp] theorem State.raise_prepared (s : State) (c : ErrCode) (d : Option Word) : (s.raise c d).prepared = s.prepared := rfl
@[simp] theorem State.raise_err (s : State) (c : ErrCode) (d : Option Word) : (s.raise c d).err = s.err.or (some c) := rfl
@[simp] theorem State.raise_srLo (s : State) (c : ErrCode) (d : Option Word) : (s.raise c d).srLo = s.srLo := rfl
@[simp] theorem State.raise_srHi (s : State) (c : ErrCode) (d : Option Word) : (s.raise c d).srHi = s.srHi := rfl
@[simp] theorem State.raise_blockSize (s : State) (c : ErrCode) (d : Option Word) : (s.raise c d).blockSize = s.blockSize := rfl
@[simp] theorem State.raise_numCh (s : State) (c : ErrCode) (d : Option Word) : (s.raise c d).numCh = s.numCh := rfl
@[simp] theorem State.raise_gainStart (s : State) (c : ErrCode) (d : Option Word) : (s.raise c d).gainStart = s.gainStart := rfl
@[simp] theorem State.raise_gainEnd (s : State) (c : ErrCode) (d : Option Word) : (s.raise c d).gainEnd = s.gainEnd := rfl
@[simp] theorem State.raise_bufLen (s : State) (c : ErrCode) (d : Option Word) : (s.raise c d).bufLen = s.bufLen := rfl
@[simp] theorem State.raise_wrPos (s : State) (c : ErrCode) (d : Option Word) : (s.raise c d).wrPos = s.wrPos := rfl
@[simp] theorem State.raise_rdPos (s : State) (c : ErrCode) (d : Option Word) : (s.raise c d).rdPos = s.rdPos := rfl
@[simp] theorem State.raise_delaySamples (s : State) (c : ErrCode) (d : Option Word) : (s.raise c d).delaySamples = s.delaySamples := rfl
@[simp] theorem State.raise_cfgBlock (s : State) (c : ErrCode) (d : Option Word) : (s.raise c d).cfgBlock = s.cfgBlock := rfl
@[simp] theorem State.raise_cfgNch (s : State) (c : ErrCode) (d : Option Word) : (s.raise c d).cfgNch = s.cfgNch := rfl
@[simp] theorem State.raise_cfgSrLo (s : State) (c : ErrCode) (d : Option Word) : (s.raise c d).cfgSrLo = s.cfgSrLo := rfl
@[simp] theorem State.raise_cfgSrHi (s : State) (c : ErrCode) (d : Option Word) : (s.raise c d).cfgSrHi = s.cfgSrHi := rfl
@[simp] theorem State.raise_delayTime (s : State) (c : ErrCode) (d : Option Word) : (s.raise c d).delayTime = s.delayTime := rfl
@[simp] theorem State.raise_dryMix (s : State) (c : ErrCode) (d : Option Word) : (s.raise c d).dryMix = s.dryMix := rfl
@[simp] theorem State.raise_wetMix (s : State) (c : ErrCode) (d : Option Word) : (s.raise c d).wetMix = s.wetMix := rfl
@[simp] theorem State.raise_feedback (s : State) (c : ErrCode) (d : Option Word) : (s.raise c d).feedback = s.feedback := rfl
@[simp] theorem State.raise_ring (s : State) (c : ErrCode) (d : Option Word) : (s.raise c d).ring = s.ring := rfl
@[simp] theorem State.raise_wet (s : State) (c : ErrCode) (d : Option Word) : (s.raise c d).wet = s.wet := rfl
@[simp] theorem State.raise_blk (s : State) (c : ErrCode) (d : Option Word) : (s.raise c d).blk = s.blk := rfl
@[simp] theorem State.raise_inbox (s : State) (c : ErrCode) (d : Option Word) : (s.raise c d).inbox = s.inbox := rfl
@[simp] theorem State.raise_answer (s : State) (c : ErrCode) (d : Option Word) : (s.raise c d).answer = some ⟨.fault c, d⟩ := rfl
@[simp] theorem State.raise_draws (s : State) (c : ErrCode) (d : Option Word) : (s.raise c d).draws = s.draws := rfl
@[simp] theorem State.raise_conf (s : State) (c : ErrCode) (d : Option Word) : (s.raise c d).conf = s.conf := rfl

/-! complete -/

@[simp] theorem State.complete_busy (s : State) : (s.complete).busy = false := rfl
@[simp] theorem State.complete_prepared (s : State) : (s.complete).prepared = s.prepared := rfl
@[simp] theorem State.complete_err (s : State) : (s.complete).err = s.err := rfl
@[simp] theorem State.complete_srLo (s : State) : (s.complete).srLo = s.srLo := rfl
@[simp] theorem State.complete_srHi (s : State) : (s.complete).srHi = s.srHi := rfl
@[simp] theorem State.complete_blockSize (s : State) : (s.complete).blockSize = s.blockSize := rfl
@[simp] theorem State.complete_numCh (s : State) : (s.complete).numCh = s.numCh := rfl
@[simp] theorem State.complete_gainStart (s : State) : (s.complete).gainStart = s.gainStart := rfl
@[simp] theorem State.complete_gainEnd (s : State) : (s.complete).gainEnd = s.gainEnd := rfl
@[simp] theorem State.complete_bufLen (s : State) : (s.complete).bufLen = s.bufLen := rfl
@[simp] theorem State.complete_wrPos (s : State) : (s.complete).wrPos = s.wrPos := rfl
@[simp] theorem State.complete_rdPos (s : State) : (s.complete).rdPos = s.rdPos := rfl
@[simp] theorem State.complete_delaySamples (s : State) : (s.complete).delaySamples = s.delaySamples := rfl
@[simp] theorem State.complete_cfgBlock (s : State) : (s.complete).cfgBlock = s.cfgBlock := rfl
@[simp] theorem State.complete_cfgNch (s : State) : (s.complete).cfgNch = s.cfgNch := rfl
@[simp] theorem State.complete_cfgSrLo (s : State) : (s.complete).cfgSrLo = s.cfgSrLo := rfl
@[simp] theorem State.complete_cfgSrHi (s : State) : (s.complete).cfgSrHi = s.cfgSrHi := rfl
@[simp] theorem State.complete_delayTime (s : State) : (s.complete).delayTime = s.delayTime := rfl
@[simp] theorem State.complete_dryMix (s : State) : (s.complete).dryMix = s.dryMix := rfl
@[simp] theorem State.complete_wetMix (s : State) : (s.complete).wetMix = s.wetMix := rfl
@[simp] theorem State.complete_feedback (s : State) : (s.complete).feedback = s.feedback := rfl
@[simp] theorem State.complete_ring (s : State) : (s.complete).ring = s.ring := rfl
@[simp] theorem State.complete_wet (s : State) : (s.complete).wet = s.wet := rfl
@[simp] theorem State.complete_blk (s : State) : (s.complete).blk = s.blk := rfl
@[simp] theorem State.complete_inbox (s : State) : (s.complete).inbox = s.inbox := rfl
@[simp] theorem State.complete_answer (s : State) : (s.complete).answer = s.answer := rfl
@[simp] theorem State.complete_draws (s : State) : (s.complete).draws = s.draws := rfl
@[simp] theorem State.complete_conf (s : State) : (s.complete).conf = s.conf := rfl

/-! drawn -/

@[simp] theorem State.drawn_busy (s : State) (n : Nat) : (s.drawn n).busy = s.busy := rfl
@[simp] theorem State.drawn_prepared (s : State) (n : Nat) : (s.drawn n).prepared = s.prepared := rfl
@[simp] theorem State.drawn_err (s : State) (n : Nat) : (s.drawn n).err = s.err := rfl
@[simp] theorem State.drawn_srLo (s : State) (n : Nat) : (s.drawn n).srLo = s.srLo := rfl
@[simp] theorem State.drawn_srHi (s : State) (n : Nat) : (s.drawn n).srHi = s.srHi := rfl
@[simp] theorem State.drawn_blockSize (s : State) (n : Nat) : (s.drawn n).blockSize = s.blockSize := rfl
@[simp] theorem State.drawn_numCh (s : State) (n : Nat) : (s.drawn n).numCh = s.numCh := rfl
@[simp] theorem State.drawn_gainStart (s : State) (n : Nat) : (s.drawn n).gainStart = s.gainStart := rfl
@[simp] theorem State.drawn_gainEnd (s : State) (n : Nat) : (s.drawn n).gainEnd = s.gainEnd := rfl
@[simp] theorem State.drawn_bufLen (s : State) (n : Nat) : (s.drawn n).bufLen = s.bufLen := rfl
@[simp] theorem State.drawn_wrPos (s : State) (n : Nat) : (s.drawn n).wrPos = s.wrPos := rfl
@[simp] theorem State.drawn_rdPos (s : State) (n : Nat) : (s.drawn n).rdPos = s.rdPos := rfl
@[simp] theorem State.drawn_delaySamples (s : State) (n : Nat) : (s.drawn n).delaySamples = s.delaySamples := rfl
@[simp] theorem State.drawn_cfgBlock (s : State) (n : Nat) : (s.drawn n).cfgBlock = s.cfgBlock := rfl
@[simp] theorem State.drawn_cfgNch (s : State) (n : Nat) : (s.drawn n).cfgNch = s.cfgNch := rfl
@[simp] theorem State.drawn_cfgSrLo (s : State) (n : Nat) : (s.drawn n).cfgSrLo = s.cfgSrLo := rfl
@[simp] theorem State.drawn_cfgSrHi (s : State) (n : Nat) : (s.drawn n).cfgSrHi = s.cfgSrHi := rfl
@[simp] theorem State.drawn_delayTime (s : State) (n : Nat) : (s.drawn n).delayTime = s.delayTime := rfl
@[simp] theorem State.drawn_dryMix (s : State) (n : Nat) : (s.drawn n).dryMix = s.dryMix := rfl
@[simp] theorem State.drawn_wetMix (s : State) (n : Nat) : (s.drawn n).wetMix = s.wetMix := rfl
@[simp] theorem State.drawn_feedback (s : State) (n : Nat) : (s.drawn n).feedback = s.feedback := rfl
@[simp] theorem State.drawn_ring (s : State) (n : Nat) : (s.drawn n).ring = s.ring := rfl
@[simp] theorem State.drawn_wet (s : State) (n : Nat) : (s.drawn n).wet = s.wet := rfl
@[simp] theorem State.drawn_blk (s : State) (n : Nat) : (s.drawn n).blk = s.blk := rfl
@[simp] theorem State.drawn_inbox (s : State) (n : Nat) : (s.drawn n).inbox = s.inbox := rfl
@[simp] theorem State.drawn_answer (s : State) (n : Nat) : (s.drawn n).answer = s.answer := rfl
@[simp] theorem State.drawn_draws (s : State) (n : Nat) : (s.drawn n).draws = s.draws + n := rfl
@[simp] theorem State.drawn_conf (s : State) (n : Nat) : (s.drawn n).conf = s.conf := rfl

/-! putDelayTime -/

@[simp] theorem State.putDelayTime_busy (s : State) (v : F32) : (s.putDelayTime v).busy = s.busy := rfl
@[simp] theorem State.putDelayTime_prepared (s : State) (v : F32) : (s.putDelayTime v).prepared = s.prepared := rfl
@[simp] theorem State.putDelayTime_err (s : State) (v : F32) : (s.putDelayTime v).err = s.err := rfl
@[simp] theorem State.putDelayTime_srLo (s : State) (v : F32) : (s.putDelayTime v).srLo = s.srLo := rfl
@[simp] theorem State.putDelayTime_srHi (s : State) (v : F32) : (s.putDelayTime v).srHi = s.srHi := rfl
@[simp] theorem State.putDelayTime_blockSize (s : State) (v : F32) : (s.putDelayTime v).blockSize = s.blockSize := rfl
@[simp] theorem State.putDelayTime_numCh (s : State) (v : F32) : (s.putDelayTime v).numCh = s.numCh := rfl
@[simp] theorem State.putDelayTime_gainStart (s : State) (v : F32) : (s.putDelayTime v).gainStart = s.gainStart := rfl
@[simp] theorem State.putDelayTime_gainEnd (s : State) (v : F32) : (s.putDelayTime v).gainEnd = s.gainEnd := rfl
@[simp] theorem State.putDelayTime_bufLen (s : State) (v : F32) : (s.putDelayTime v).bufLen = s.bufLen := rfl
@[simp] theorem State.putDelayTime_wrPos (s : State) (v : F32) : (s.putDelayTime v).wrPos = s.wrPos := rfl
@[simp] theorem State.putDelayTime_rdPos (s : State) (v : F32) : (s.putDelayTime v).rdPos = s.rdPos := rfl
@[simp] theorem State.putDelayTime_delaySamples (s : State) (v : F32) : (s.putDelayTime v).delaySamples = s.delaySamples := rfl
@[simp] theorem State.putDelayTime_cfgBlock (s : State) (v : F32) : (s.putDelayTime v).cfgBlock = s.cfgBlock := rfl
@[simp] theorem State.putDelayTime_cfgNch (s : State) (v : F32) : (s.putDelayTime v).cfgNch = s.cfgNch := rfl
@[simp] theorem State.putDelayTime_cfgSrLo (s : State) (v : F32) : (s.putDelayTime v).cfgSrLo = s.cfgSrLo := rfl
@[simp] theorem State.putDelayTime_cfgSrHi (s : State) (v : F32) : (s.putDelayTime v).cfgSrHi = s.cfgSrHi := rfl
@[simp] theorem State.putDelayTime_delayTime (s : State) (v : F32) : (s.putDelayTime v).delayTime = .written v := rfl
@[simp] theorem State.putDelayTime_dryMix (s : State) (v : F32) : (s.putDelayTime v).dryMix = s.dryMix := rfl
@[simp] theorem State.putDelayTime_wetMix (s : State) (v : F32) : (s.putDelayTime v).wetMix = s.wetMix := rfl
@[simp] theorem State.putDelayTime_feedback (s : State) (v : F32) : (s.putDelayTime v).feedback = s.feedback := rfl
@[simp] theorem State.putDelayTime_ring (s : State) (v : F32) : (s.putDelayTime v).ring = s.ring := rfl
@[simp] theorem State.putDelayTime_wet (s : State) (v : F32) : (s.putDelayTime v).wet = s.wet := rfl
@[simp] theorem State.putDelayTime_blk (s : State) (v : F32) : (s.putDelayTime v).blk = s.blk := rfl
@[simp] theorem State.putDelayTime_inbox (s : State) (v : F32) : (s.putDelayTime v).inbox = s.inbox := rfl
@[simp] theorem State.putDelayTime_answer (s : State) (v : F32) : (s.putDelayTime v).answer = s.answer := rfl
@[simp] theorem State.putDelayTime_draws (s : State) (v : F32) : (s.putDelayTime v).draws = s.draws := rfl
@[simp] theorem State.putDelayTime_conf (s : State) (v : F32) : (s.putDelayTime v).conf = s.conf := rfl

/-! putDryMix -/

@[simp] theorem State.putDryMix_busy (s : State) (v : F32) : (s.putDryMix v).busy = s.busy := rfl
@[simp] theorem State.putDryMix_prepared (s : State) (v : F32) : (s.putDryMix v).prepared = s.prepared := rfl
@[simp] theorem State.putDryMix_err (s : State) (v : F32) : (s.putDryMix v).err = s.err := rfl
@[simp] theorem State.putDryMix_srLo (s : State) (v : F32) : (s.putDryMix v).srLo = s.srLo := rfl
@[simp] theorem State.putDryMix_srHi (s : State) (v : F32) : (s.putDryMix v).srHi = s.srHi := rfl
@[simp] theorem State.putDryMix_blockSize (s : State) (v : F32) : (s.putDryMix v).blockSize = s.blockSize := rfl
@[simp] theorem State.putDryMix_numCh (s : State) (v : F32) : (s.putDryMix v).numCh = s.numCh := rfl
@[simp] theorem State.putDryMix_gainStart (s : State) (v : F32) : (s.putDryMix v).gainStart = s.gainStart := rfl
@[simp] theorem State.putDryMix_gainEnd (s : State) (v : F32) : (s.putDryMix v).gainEnd = s.gainEnd := rfl
@[simp] theorem State.putDryMix_bufLen (s : State) (v : F32) : (s.putDryMix v).bufLen = s.bufLen := rfl
@[simp] theorem State.putDryMix_wrPos (s : State) (v : F32) : (s.putDryMix v).wrPos = s.wrPos := rfl
@[simp] theorem State.putDryMix_rdPos (s : State) (v : F32) : (s.putDryMix v).rdPos = s.rdPos := rfl
@[simp] theorem State.putDryMix_delaySamples (s : State) (v : F32) : (s.putDryMix v).delaySamples = s.delaySamples := rfl
@[simp] theorem State.putDryMix_cfgBlock (s : State) (v : F32) : (s.putDryMix v).cfgBlock = s.cfgBlock := rfl
@[simp] theorem State.putDryMix_cfgNch (s : State) (v : F32) : (s.putDryMix v).cfgNch = s.cfgNch := rfl
@[simp] theorem State.putDryMix_cfgSrLo (s : State) (v : F32) : (s.putDryMix v).cfgSrLo = s.cfgSrLo := rfl
@[simp] theorem State.putDryMix_cfgSrHi (s : State) (v : F32) : (s.putDryMix v).cfgSrHi = s.cfgSrHi := rfl
@[simp] theorem State.putDryMix_delayTime (s : State) (v : F32) : (s.putDryMix v).delayTime = s.delayTime := rfl
@[simp] theorem State.putDryMix_dryMix (s : State) (v : F32) : (s.putDryMix v).dryMix = .written v := rfl
@[simp] theorem State.putDryMix_wetMix (s : State) (v : F32) : (s.putDryMix v).wetMix = s.wetMix := rfl
@[simp] theorem State.putDryMix_feedback (s : State) (v : F32) : (s.putDryMix v).feedback = s.feedback := rfl
@[simp] theorem State.putDryMix_ring (s : State) (v : F32) : (s.putDryMix v).ring = s.ring := rfl
@[simp] theorem State.putDryMix_wet (s : State) (v : F32) : (s.putDryMix v).wet = s.wet := rfl
@[simp] theorem State.putDryMix_blk (s : State) (v : F32) : (s.putDryMix v).blk = s.blk := rfl
@[simp] theorem State.putDryMix_inbox (s : State) (v : F32) : (s.putDryMix v).inbox = s.inbox := rfl
@[simp] theorem State.putDryMix_answer (s : State) (v : F32) : (s.putDryMix v).answer = s.answer := rfl
@[simp] theorem State.putDryMix_draws (s : State) (v : F32) : (s.putDryMix v).draws = s.draws := rfl
@[simp] theorem State.putDryMix_conf (s : State) (v : F32) : (s.putDryMix v).conf = s.conf := rfl

/-! putWetMix -/

@[simp] theorem State.putWetMix_busy (s : State) (v : F32) : (s.putWetMix v).busy = s.busy := rfl
@[simp] theorem State.putWetMix_prepared (s : State) (v : F32) : (s.putWetMix v).prepared = s.prepared := rfl
@[simp] theorem State.putWetMix_err (s : State) (v : F32) : (s.putWetMix v).err = s.err := rfl
@[simp] theorem State.putWetMix_srLo (s : State) (v : F32) : (s.putWetMix v).srLo = s.srLo := rfl
@[simp] theorem State.putWetMix_srHi (s : State) (v : F32) : (s.putWetMix v).srHi = s.srHi := rfl
@[simp] theorem State.putWetMix_blockSize (s : State) (v : F32) : (s.putWetMix v).blockSize = s.blockSize := rfl
@[simp] theorem State.putWetMix_numCh (s : State) (v : F32) : (s.putWetMix v).numCh = s.numCh := rfl
@[simp] theorem State.putWetMix_gainStart (s : State) (v : F32) : (s.putWetMix v).gainStart = s.gainStart := rfl
@[simp] theorem State.putWetMix_gainEnd (s : State) (v : F32) : (s.putWetMix v).gainEnd = s.gainEnd := rfl
@[simp] theorem State.putWetMix_bufLen (s : State) (v : F32) : (s.putWetMix v).bufLen = s.bufLen := rfl
@[simp] theorem State.putWetMix_wrPos (s : State) (v : F32) : (s.putWetMix v).wrPos = s.wrPos := rfl
@[simp] theorem State.putWetMix_rdPos (s : State) (v : F32) : (s.putWetMix v).rdPos = s.rdPos := rfl
@[simp] theorem State.putWetMix_delaySamples (s : State) (v : F32) : (s.putWetMix v).delaySamples = s.delaySamples := rfl
@[simp] theorem State.putWetMix_cfgBlock (s : State) (v : F32) : (s.putWetMix v).cfgBlock = s.cfgBlock := rfl
@[simp] theorem State.putWetMix_cfgNch (s : State) (v : F32) : (s.putWetMix v).cfgNch = s.cfgNch := rfl
@[simp] theorem State.putWetMix_cfgSrLo (s : State) (v : F32) : (s.putWetMix v).cfgSrLo = s.cfgSrLo := rfl
@[simp] theorem State.putWetMix_cfgSrHi (s : State) (v : F32) : (s.putWetMix v).cfgSrHi = s.cfgSrHi := rfl
@[simp] theorem State.putWetMix_delayTime (s : State) (v : F32) : (s.putWetMix v).delayTime = s.delayTime := rfl
@[simp] theorem State.putWetMix_dryMix (s : State) (v : F32) : (s.putWetMix v).dryMix = s.dryMix := rfl
@[simp] theorem State.putWetMix_wetMix (s : State) (v : F32) : (s.putWetMix v).wetMix = .written v := rfl
@[simp] theorem State.putWetMix_feedback (s : State) (v : F32) : (s.putWetMix v).feedback = s.feedback := rfl
@[simp] theorem State.putWetMix_ring (s : State) (v : F32) : (s.putWetMix v).ring = s.ring := rfl
@[simp] theorem State.putWetMix_wet (s : State) (v : F32) : (s.putWetMix v).wet = s.wet := rfl
@[simp] theorem State.putWetMix_blk (s : State) (v : F32) : (s.putWetMix v).blk = s.blk := rfl
@[simp] theorem State.putWetMix_inbox (s : State) (v : F32) : (s.putWetMix v).inbox = s.inbox := rfl
@[simp] theorem State.putWetMix_answer (s : State) (v : F32) : (s.putWetMix v).answer = s.answer := rfl
@[simp] theorem State.putWetMix_draws (s : State) (v : F32) : (s.putWetMix v).draws = s.draws := rfl
@[simp] theorem State.putWetMix_conf (s : State) (v : F32) : (s.putWetMix v).conf = s.conf := rfl

/-! putFeedback -/

@[simp] theorem State.putFeedback_busy (s : State) (v : F32) : (s.putFeedback v).busy = s.busy := rfl
@[simp] theorem State.putFeedback_prepared (s : State) (v : F32) : (s.putFeedback v).prepared = s.prepared := rfl
@[simp] theorem State.putFeedback_err (s : State) (v : F32) : (s.putFeedback v).err = s.err := rfl
@[simp] theorem State.putFeedback_srLo (s : State) (v : F32) : (s.putFeedback v).srLo = s.srLo := rfl
@[simp] theorem State.putFeedback_srHi (s : State) (v : F32) : (s.putFeedback v).srHi = s.srHi := rfl
@[simp] theorem State.putFeedback_blockSize (s : State) (v : F32) : (s.putFeedback v).blockSize = s.blockSize := rfl
@[simp] theorem State.putFeedback_numCh (s : State) (v : F32) : (s.putFeedback v).numCh = s.numCh := rfl
@[simp] theorem State.putFeedback_gainStart (s : State) (v : F32) : (s.putFeedback v).gainStart = s.gainStart := rfl
@[simp] theorem State.putFeedback_gainEnd (s : State) (v : F32) : (s.putFeedback v).gainEnd = s.gainEnd := rfl
@[simp] theorem State.putFeedback_bufLen (s : State) (v : F32) : (s.putFeedback v).bufLen = s.bufLen := rfl
@[simp] theorem State.putFeedback_wrPos (s : State) (v : F32) : (s.putFeedback v).wrPos = s.wrPos := rfl
@[simp] theorem State.putFeedback_rdPos (s : State) (v : F32) : (s.putFeedback v).rdPos = s.rdPos := rfl
@[simp] theorem State.putFeedback_delaySamples (s : State) (v : F32) : (s.putFeedback v).delaySamples = s.delaySamples := rfl
@[simp] theorem State.putFeedback_cfgBlock (s : State) (v : F32) : (s.putFeedback v).cfgBlock = s.cfgBlock := rfl
@[simp] theorem State.putFeedback_cfgNch (s : State) (v : F32) : (s.putFeedback v).cfgNch = s.cfgNch := rfl
@[simp] theorem State.putFeedback_cfgSrLo (s : State) (v : F32) : (s.putFeedback v).cfgSrLo = s.cfgSrLo := rfl
@[simp] theorem State.putFeedback_cfgSrHi (s : State) (v : F32) : (s.putFeedback v).cfgSrHi = s.cfgSrHi := rfl
@[simp] theorem State.putFeedback_delayTime (s : State) (v : F32) : (s.putFeedback v).delayTime = s.delayTime := rfl
@[simp] theorem State.putFeedback_dryMix (s : State) (v : F32) : (s.putFeedback v).dryMix = s.dryMix := rfl
@[simp] theorem State.putFeedback_wetMix (s : State) (v : F32) : (s.putFeedback v).wetMix = s.wetMix := rfl
@[simp] theorem State.putFeedback_feedback (s : State) (v : F32) : (s.putFeedback v).feedback = .written v := rfl
@[simp] theorem State.putFeedback_ring (s : State) (v : F32) : (s.putFeedback v).ring = s.ring := rfl
@[simp] theorem State.putFeedback_wet (s : State) (v : F32) : (s.putFeedback v).wet = s.wet := rfl
@[simp] theorem State.putFeedback_blk (s : State) (v : F32) : (s.putFeedback v).blk = s.blk := rfl
@[simp] theorem State.putFeedback_inbox (s : State) (v : F32) : (s.putFeedback v).inbox = s.inbox := rfl
@[simp] theorem State.putFeedback_answer (s : State) (v : F32) : (s.putFeedback v).answer = s.answer := rfl
@[simp] theorem State.putFeedback_draws (s : State) (v : F32) : (s.putFeedback v).draws = s.draws := rfl
@[simp] theorem State.putFeedback_conf (s : State) (v : F32) : (s.putFeedback v).conf = s.conf := rfl

/-! putDelay -/

@[simp] theorem State.putDelay_busy (s : State) (d rd : Nat) : (s.putDelay d rd).busy = s.busy := rfl
@[simp] theorem State.putDelay_prepared (s : State) (d rd : Nat) : (s.putDelay d rd).prepared = s.prepared := rfl
@[simp] theorem State.putDelay_err (s : State) (d rd : Nat) : (s.putDelay d rd).err = s.err := rfl
@[simp] theorem State.putDelay_srLo (s : State) (d rd : Nat) : (s.putDelay d rd).srLo = s.srLo := rfl
@[simp] theorem State.putDelay_srHi (s : State) (d rd : Nat) : (s.putDelay d rd).srHi = s.srHi := rfl
@[simp] theorem State.putDelay_blockSize (s : State) (d rd : Nat) : (s.putDelay d rd).blockSize = s.blockSize := rfl
@[simp] theorem State.putDelay_numCh (s : State) (d rd : Nat) : (s.putDelay d rd).numCh = s.numCh := rfl
@[simp] theorem State.putDelay_gainStart (s : State) (d rd : Nat) : (s.putDelay d rd).gainStart = s.gainStart := rfl
@[simp] theorem State.putDelay_gainEnd (s : State) (d rd : Nat) : (s.putDelay d rd).gainEnd = s.gainEnd := rfl
@[simp] theorem State.putDelay_bufLen (s : State) (d rd : Nat) : (s.putDelay d rd).bufLen = s.bufLen := rfl
@[simp] theorem State.putDelay_wrPos (s : State) (d rd : Nat) : (s.putDelay d rd).wrPos = s.wrPos := rfl
@[simp] theorem State.putDelay_rdPos (s : State) (d rd : Nat) : (s.putDelay d rd).rdPos = BitVec.ofNat 32 rd := rfl
@[simp] theorem State.putDelay_delaySamples (s : State) (d rd : Nat) : (s.putDelay d rd).delaySamples = BitVec.ofNat 32 d := rfl
@[simp] theorem State.putDelay_cfgBlock (s : State) (d rd : Nat) : (s.putDelay d rd).cfgBlock = s.cfgBlock := rfl
@[simp] theorem State.putDelay_cfgNch (s : State) (d rd : Nat) : (s.putDelay d rd).cfgNch = s.cfgNch := rfl
@[simp] theorem State.putDelay_cfgSrLo (s : State) (d rd : Nat) : (s.putDelay d rd).cfgSrLo = s.cfgSrLo := rfl
@[simp] theorem State.putDelay_cfgSrHi (s : State) (d rd : Nat) : (s.putDelay d rd).cfgSrHi = s.cfgSrHi := rfl
@[simp] theorem State.putDelay_delayTime (s : State) (d rd : Nat) : (s.putDelay d rd).delayTime = s.delayTime := rfl
@[simp] theorem State.putDelay_dryMix (s : State) (d rd : Nat) : (s.putDelay d rd).dryMix = s.dryMix := rfl
@[simp] theorem State.putDelay_wetMix (s : State) (d rd : Nat) : (s.putDelay d rd).wetMix = s.wetMix := rfl
@[simp] theorem State.putDelay_feedback (s : State) (d rd : Nat) : (s.putDelay d rd).feedback = s.feedback := rfl
@[simp] theorem State.putDelay_ring (s : State) (d rd : Nat) : (s.putDelay d rd).ring = s.ring := rfl
@[simp] theorem State.putDelay_wet (s : State) (d rd : Nat) : (s.putDelay d rd).wet = s.wet := rfl
@[simp] theorem State.putDelay_blk (s : State) (d rd : Nat) : (s.putDelay d rd).blk = s.blk := rfl
@[simp] theorem State.putDelay_inbox (s : State) (d rd : Nat) : (s.putDelay d rd).inbox = s.inbox := rfl
@[simp] theorem State.putDelay_answer (s : State) (d rd : Nat) : (s.putDelay d rd).answer = s.answer := rfl
@[simp] theorem State.putDelay_draws (s : State) (d rd : Nat) : (s.putDelay d rd).draws = s.draws := rfl
@[simp] theorem State.putDelay_conf (s : State) (d rd : Nat) : (s.putDelay d rd).conf = s.conf := rfl

/-! putCursors -/

@[simp] theorem State.putCursors_busy (s : State) (wr rd : Nat) : (s.putCursors wr rd).busy = s.busy := rfl
@[simp] theorem State.putCursors_prepared (s : State) (wr rd : Nat) : (s.putCursors wr rd).prepared = s.prepared := rfl
@[simp] theorem State.putCursors_err (s : State) (wr rd : Nat) : (s.putCursors wr rd).err = s.err := rfl
@[simp] theorem State.putCursors_srLo (s : State) (wr rd : Nat) : (s.putCursors wr rd).srLo = s.srLo := rfl
@[simp] theorem State.putCursors_srHi (s : State) (wr rd : Nat) : (s.putCursors wr rd).srHi = s.srHi := rfl
@[simp] theorem State.putCursors_blockSize (s : State) (wr rd : Nat) : (s.putCursors wr rd).blockSize = s.blockSize := rfl
@[simp] theorem State.putCursors_numCh (s : State) (wr rd : Nat) : (s.putCursors wr rd).numCh = s.numCh := rfl
@[simp] theorem State.putCursors_gainStart (s : State) (wr rd : Nat) : (s.putCursors wr rd).gainStart = s.gainStart := rfl
@[simp] theorem State.putCursors_gainEnd (s : State) (wr rd : Nat) : (s.putCursors wr rd).gainEnd = s.gainEnd := rfl
@[simp] theorem State.putCursors_bufLen (s : State) (wr rd : Nat) : (s.putCursors wr rd).bufLen = s.bufLen := rfl
@[simp] theorem State.putCursors_wrPos (s : State) (wr rd : Nat) : (s.putCursors wr rd).wrPos = BitVec.ofNat 32 wr := rfl
@[simp] theorem State.putCursors_rdPos (s : State) (wr rd : Nat) : (s.putCursors wr rd).rdPos = BitVec.ofNat 32 rd := rfl
@[simp] theorem State.putCursors_delaySamples (s : State) (wr rd : Nat) : (s.putCursors wr rd).delaySamples = s.delaySamples := rfl
@[simp] theorem State.putCursors_cfgBlock (s : State) (wr rd : Nat) : (s.putCursors wr rd).cfgBlock = s.cfgBlock := rfl
@[simp] theorem State.putCursors_cfgNch (s : State) (wr rd : Nat) : (s.putCursors wr rd).cfgNch = s.cfgNch := rfl
@[simp] theorem State.putCursors_cfgSrLo (s : State) (wr rd : Nat) : (s.putCursors wr rd).cfgSrLo = s.cfgSrLo := rfl
@[simp] theorem State.putCursors_cfgSrHi (s : State) (wr rd : Nat) : (s.putCursors wr rd).cfgSrHi = s.cfgSrHi := rfl
@[simp] theorem State.putCursors_delayTime (s : State) (wr rd : Nat) : (s.putCursors wr rd).delayTime = s.delayTime := rfl
@[simp] theorem State.putCursors_dryMix (s : State) (wr rd : Nat) : (s.putCursors wr rd).dryMix = s.dryMix := rfl
@[simp] theorem State.putCursors_wetMix (s : State) (wr rd : Nat) : (s.putCursors wr rd).wetMix = s.wetMix := rfl
@[simp] theorem State.putCursors_feedback (s : State) (wr rd : Nat) : (s.putCursors wr rd).feedback = s.feedback := rfl
@[simp] theorem State.putCursors_ring (s : State) (wr rd : Nat) : (s.putCursors wr rd).ring = s.ring := rfl
@[simp] theorem State.putCursors_wet (s : State) (wr rd : Nat) : (s.putCursors wr rd).wet = s.wet := rfl
@[simp] theorem State.putCursors_blk (s : State) (wr rd : Nat) : (s.putCursors wr rd).blk = s.blk := rfl
@[simp] theorem State.putCursors_inbox (s : State) (wr rd : Nat) : (s.putCursors wr rd).inbox = s.inbox := rfl
@[simp] theorem State.putCursors_answer (s : State) (wr rd : Nat) : (s.putCursors wr rd).answer = s.answer := rfl
@[simp] theorem State.putCursors_draws (s : State) (wr rd : Nat) : (s.putCursors wr rd).draws = s.draws := rfl
@[simp] theorem State.putCursors_conf (s : State) (wr rd : Nat) : (s.putCursors wr rd).conf = s.conf := rfl

/-! putRing -/

@[simp] theorem State.putRing_busy (s : State) (m : Memory) : (s.putRing m).busy = s.busy := rfl
@[simp] theorem State.putRing_prepared (s : State) (m : Memory) : (s.putRing m).prepared = s.prepared := rfl
@[simp] theorem State.putRing_err (s : State) (m : Memory) : (s.putRing m).err = s.err := rfl
@[simp] theorem State.putRing_srLo (s : State) (m : Memory) : (s.putRing m).srLo = s.srLo := rfl
@[simp] theorem State.putRing_srHi (s : State) (m : Memory) : (s.putRing m).srHi = s.srHi := rfl
@[simp] theorem State.putRing_blockSize (s : State) (m : Memory) : (s.putRing m).blockSize = s.blockSize := rfl
@[simp] theorem State.putRing_numCh (s : State) (m : Memory) : (s.putRing m).numCh = s.numCh := rfl
@[simp] theorem State.putRing_gainStart (s : State) (m : Memory) : (s.putRing m).gainStart = s.gainStart := rfl
@[simp] theorem State.putRing_gainEnd (s : State) (m : Memory) : (s.putRing m).gainEnd = s.gainEnd := rfl
@[simp] theorem State.putRing_bufLen (s : State) (m : Memory) : (s.putRing m).bufLen = s.bufLen := rfl
@[simp] theorem State.putRing_wrPos (s : State) (m : Memory) : (s.putRing m).wrPos = s.wrPos := rfl
@[simp] theorem State.putRing_rdPos (s : State) (m : Memory) : (s.putRing m).rdPos = s.rdPos := rfl
@[simp] theorem State.putRing_delaySamples (s : State) (m : Memory) : (s.putRing m).delaySamples = s.delaySamples := rfl
@[simp] theorem State.putRing_cfgBlock (s : State) (m : Memory) : (s.putRing m).cfgBlock = s.cfgBlock := rfl
@[simp] theorem State.putRing_cfgNch (s : State) (m : Memory) : (s.putRing m).cfgNch = s.cfgNch := rfl
@[simp] theorem State.putRing_cfgSrLo (s : State) (m : Memory) : (s.putRing m).cfgSrLo = s.cfgSrLo := rfl
@[simp] theorem State.putRing_cfgSrHi (s : State) (m : Memory) : (s.putRing m).cfgSrHi = s.cfgSrHi := rfl
@[simp] theorem State.putRing_delayTime (s : State) (m : Memory) : (s.putRing m).delayTime = s.delayTime := rfl
@[simp] theorem State.putRing_dryMix (s : State) (m : Memory) : (s.putRing m).dryMix = s.dryMix := rfl
@[simp] theorem State.putRing_wetMix (s : State) (m : Memory) : (s.putRing m).wetMix = s.wetMix := rfl
@[simp] theorem State.putRing_feedback (s : State) (m : Memory) : (s.putRing m).feedback = s.feedback := rfl
@[simp] theorem State.putRing_ring (s : State) (m : Memory) : (s.putRing m).ring = m := rfl
@[simp] theorem State.putRing_wet (s : State) (m : Memory) : (s.putRing m).wet = s.wet := rfl
@[simp] theorem State.putRing_blk (s : State) (m : Memory) : (s.putRing m).blk = s.blk := rfl
@[simp] theorem State.putRing_inbox (s : State) (m : Memory) : (s.putRing m).inbox = s.inbox := rfl
@[simp] theorem State.putRing_answer (s : State) (m : Memory) : (s.putRing m).answer = s.answer := rfl
@[simp] theorem State.putRing_draws (s : State) (m : Memory) : (s.putRing m).draws = s.draws := rfl
@[simp] theorem State.putRing_conf (s : State) (m : Memory) : (s.putRing m).conf = s.conf := rfl

/-! putWet -/

@[simp] theorem State.putWet_busy (s : State) (m : Memory) : (s.putWet m).busy = s.busy := rfl
@[simp] theorem State.putWet_prepared (s : State) (m : Memory) : (s.putWet m).prepared = s.prepared := rfl
@[simp] theorem State.putWet_err (s : State) (m : Memory) : (s.putWet m).err = s.err := rfl
@[simp] theorem State.putWet_srLo (s : State) (m : Memory) : (s.putWet m).srLo = s.srLo := rfl
@[simp] theorem State.putWet_srHi (s : State) (m : Memory) : (s.putWet m).srHi = s.srHi := rfl
@[simp] theorem State.putWet_blockSize (s : State) (m : Memory) : (s.putWet m).blockSize = s.blockSize := rfl
@[simp] theorem State.putWet_numCh (s : State) (m : Memory) : (s.putWet m).numCh = s.numCh := rfl
@[simp] theorem State.putWet_gainStart (s : State) (m : Memory) : (s.putWet m).gainStart = s.gainStart := rfl
@[simp] theorem State.putWet_gainEnd (s : State) (m : Memory) : (s.putWet m).gainEnd = s.gainEnd := rfl
@[simp] theorem State.putWet_bufLen (s : State) (m : Memory) : (s.putWet m).bufLen = s.bufLen := rfl
@[simp] theorem State.putWet_wrPos (s : State) (m : Memory) : (s.putWet m).wrPos = s.wrPos := rfl
@[simp] theorem State.putWet_rdPos (s : State) (m : Memory) : (s.putWet m).rdPos = s.rdPos := rfl
@[simp] theorem State.putWet_delaySamples (s : State) (m : Memory) : (s.putWet m).delaySamples = s.delaySamples := rfl
@[simp] theorem State.putWet_cfgBlock (s : State) (m : Memory) : (s.putWet m).cfgBlock = s.cfgBlock := rfl
@[simp] theorem State.putWet_cfgNch (s : State) (m : Memory) : (s.putWet m).cfgNch = s.cfgNch := rfl
@[simp] theorem State.putWet_cfgSrLo (s : State) (m : Memory) : (s.putWet m).cfgSrLo = s.cfgSrLo := rfl
@[simp] theorem State.putWet_cfgSrHi (s : State) (m : Memory) : (s.putWet m).cfgSrHi = s.cfgSrHi := rfl
@[simp] theorem State.putWet_delayTime (s : State) (m : Memory) : (s.putWet m).delayTime = s.delayTime := rfl
@[simp] theorem State.putWet_dryMix (s : State) (m : Memory) : (s.putWet m).dryMix = s.dryMix := rfl
@[simp] theorem State.putWet_wetMix (s : State) (m : Memory) : (s.putWet m).wetMix = s.wetMix := rfl
@[simp] theorem State.putWet_feedback (s : State) (m : Memory) : (s.putWet m).feedback = s.feedback := rfl
@[simp] theorem State.putWet_ring (s : State) (m : Memory) : (s.putWet m).ring = s.ring := rfl
@[simp] theorem State.putWet_wet (s : State) (m : Memory) : (s.putWet m).wet = m := rfl
@[simp] theorem State.putWet_blk (s : State) (m : Memory) : (s.putWet m).blk = s.blk := rfl
@[simp] theorem State.putWet_inbox (s : State) (m : Memory) : (s.putWet m).inbox = s.inbox := rfl
@[simp] theorem State.putWet_answer (s : State) (m : Memory) : (s.putWet m).answer = s.answer := rfl
@[simp] theorem State.putWet_draws (s : State) (m : Memory) : (s.putWet m).draws = s.draws := rfl
@[simp] theorem State.putWet_conf (s : State) (m : Memory) : (s.putWet m).conf = s.conf := rfl

/-! putBlk -/

@[simp] theorem State.putBlk_busy (s : State) (m : Memory) : (s.putBlk m).busy = s.busy := rfl
@[simp] theorem State.putBlk_prepared (s : State) (m : Memory) : (s.putBlk m).prepared = s.prepared := rfl
@[simp] theorem State.putBlk_err (s : State) (m : Memory) : (s.putBlk m).err = s.err := rfl
@[simp] theorem State.putBlk_srLo (s : State) (m : Memory) : (s.putBlk m).srLo = s.srLo := rfl
@[simp] theorem State.putBlk_srHi (s : State) (m : Memory) : (s.putBlk m).srHi = s.srHi := rfl
@[simp] theorem State.putBlk_blockSize (s : State) (m : Memory) : (s.putBlk m).blockSize = s.blockSize := rfl
@[simp] theorem State.putBlk_numCh (s : State) (m : Memory) : (s.putBlk m).numCh = s.numCh := rfl
@[simp] theorem State.putBlk_gainStart (s : State) (m : Memory) : (s.putBlk m).gainStart = s.gainStart := rfl
@[simp] theorem State.putBlk_gainEnd (s : State) (m : Memory) : (s.putBlk m).gainEnd = s.gainEnd := rfl
@[simp] theorem State.putBlk_bufLen (s : State) (m : Memory) : (s.putBlk m).bufLen = s.bufLen := rfl
@[simp] theorem State.putBlk_wrPos (s : State) (m : Memory) : (s.putBlk m).wrPos = s.wrPos := rfl
@[simp] theorem State.putBlk_rdPos (s : State) (m : Memory) : (s.putBlk m).rdPos = s.rdPos := rfl
@[simp] theorem State.putBlk_delaySamples (s : State) (m : Memory) : (s.putBlk m).delaySamples = s.delaySamples := rfl
@[simp] theorem State.putBlk_cfgBlock (s : State) (m : Memory) : (s.putBlk m).cfgBlock = s.cfgBlock := rfl
@[simp] theorem State.putBlk_cfgNch (s : State) (m : Memory) : (s.putBlk m).cfgNch = s.cfgNch := rfl
@[simp] theorem State.putBlk_cfgSrLo (s : State) (m : Memory) : (s.putBlk m).cfgSrLo = s.cfgSrLo := rfl
@[simp] theorem State.putBlk_cfgSrHi (s : State) (m : Memory) : (s.putBlk m).cfgSrHi = s.cfgSrHi := rfl
@[simp] theorem State.putBlk_delayTime (s : State) (m : Memory) : (s.putBlk m).delayTime = s.delayTime := rfl
@[simp] theorem State.putBlk_dryMix (s : State) (m : Memory) : (s.putBlk m).dryMix = s.dryMix := rfl
@[simp] theorem State.putBlk_wetMix (s : State) (m : Memory) : (s.putBlk m).wetMix = s.wetMix := rfl
@[simp] theorem State.putBlk_feedback (s : State) (m : Memory) : (s.putBlk m).feedback = s.feedback := rfl
@[simp] theorem State.putBlk_ring (s : State) (m : Memory) : (s.putBlk m).ring = s.ring := rfl
@[simp] theorem State.putBlk_wet (s : State) (m : Memory) : (s.putBlk m).wet = s.wet := rfl
@[simp] theorem State.putBlk_blk (s : State) (m : Memory) : (s.putBlk m).blk = m := rfl
@[simp] theorem State.putBlk_inbox (s : State) (m : Memory) : (s.putBlk m).inbox = s.inbox := rfl
@[simp] theorem State.putBlk_answer (s : State) (m : Memory) : (s.putBlk m).answer = s.answer := rfl
@[simp] theorem State.putBlk_draws (s : State) (m : Memory) : (s.putBlk m).draws = s.draws := rfl
@[simp] theorem State.putBlk_conf (s : State) (m : Memory) : (s.putBlk m).conf = s.conf := rfl

/-! configure -/

@[simp] theorem State.configure_busy (s : State) (len : Nat) : (s.configure len).busy = s.busy := rfl
@[simp] theorem State.configure_prepared (s : State) (len : Nat) : (s.configure len).prepared = true := rfl
@[simp] theorem State.configure_err (s : State) (len : Nat) : (s.configure len).err = s.err := rfl
@[simp] theorem State.configure_srLo (s : State) (len : Nat) : (s.configure len).srLo = s.srLo := rfl
@[simp] theorem State.configure_srHi (s : State) (len : Nat) : (s.configure len).srHi = s.srHi := rfl
@[simp] theorem State.configure_blockSize (s : State) (len : Nat) : (s.configure len).blockSize = s.blockSize := rfl
@[simp] theorem State.configure_numCh (s : State) (len : Nat) : (s.configure len).numCh = s.numCh := rfl
@[simp] theorem State.configure_gainStart (s : State) (len : Nat) : (s.configure len).gainStart = s.gainStart := rfl
@[simp] theorem State.configure_gainEnd (s : State) (len : Nat) : (s.configure len).gainEnd = s.gainEnd := rfl
@[simp] theorem State.configure_bufLen (s : State) (len : Nat) : (s.configure len).bufLen = BitVec.ofNat 32 len := rfl
@[simp] theorem State.configure_wrPos (s : State) (len : Nat) : (s.configure len).wrPos = 0 := rfl
@[simp] theorem State.configure_rdPos (s : State) (len : Nat) : (s.configure len).rdPos = s.rdPos := rfl
@[simp] theorem State.configure_delaySamples (s : State) (len : Nat) : (s.configure len).delaySamples = s.delaySamples := rfl
@[simp] theorem State.configure_cfgBlock (s : State) (len : Nat) : (s.configure len).cfgBlock = s.blockSize.bits := rfl
@[simp] theorem State.configure_cfgNch (s : State) (len : Nat) : (s.configure len).cfgNch = s.numCh.bits := rfl
@[simp] theorem State.configure_cfgSrLo (s : State) (len : Nat) : (s.configure len).cfgSrLo = s.srLo.bits := rfl
@[simp] theorem State.configure_cfgSrHi (s : State) (len : Nat) : (s.configure len).cfgSrHi = s.srHi.bits := rfl
@[simp] theorem State.configure_delayTime (s : State) (len : Nat) : (s.configure len).delayTime = s.delayTime := rfl
@[simp] theorem State.configure_dryMix (s : State) (len : Nat) : (s.configure len).dryMix = s.dryMix := rfl
@[simp] theorem State.configure_wetMix (s : State) (len : Nat) : (s.configure len).wetMix = s.wetMix := rfl
@[simp] theorem State.configure_feedback (s : State) (len : Nat) : (s.configure len).feedback = s.feedback := rfl
@[simp] theorem State.configure_ring (s : State) (len : Nat) : (s.configure len).ring = [] := rfl
@[simp] theorem State.configure_wet (s : State) (len : Nat) : (s.configure len).wet = [] := rfl
@[simp] theorem State.configure_blk (s : State) (len : Nat) : (s.configure len).blk = s.blk := rfl
@[simp] theorem State.configure_inbox (s : State) (len : Nat) : (s.configure len).inbox = s.inbox := rfl
@[simp] theorem State.configure_answer (s : State) (len : Nat) : (s.configure len).answer = s.answer := rfl
@[simp] theorem State.configure_draws (s : State) (len : Nat) : (s.configure len).draws = s.draws := rfl
@[simp] theorem State.configure_conf (s : State) (len : Nat) : (s.configure len).conf = s.conf := rfl

/-! softReset -/

@[simp] theorem State.softReset_busy (s : State) : (s.softReset).busy = false := rfl
@[simp] theorem State.softReset_prepared (s : State) : (s.softReset).prepared = false := rfl
@[simp] theorem State.softReset_err (s : State) : (s.softReset).err = none := rfl
@[simp] theorem State.softReset_srLo (s : State) : (s.softReset).srLo = .unset := rfl
@[simp] theorem State.softReset_srHi (s : State) : (s.softReset).srHi = .unset := rfl
@[simp] theorem State.softReset_blockSize (s : State) : (s.softReset).blockSize = .unset := rfl
@[simp] theorem State.softReset_numCh (s : State) : (s.softReset).numCh = .unset := rfl
@[simp] theorem State.softReset_gainStart (s : State) : (s.softReset).gainStart = .unset := rfl
@[simp] theorem State.softReset_gainEnd (s : State) : (s.softReset).gainEnd = .unset := rfl
@[simp] theorem State.softReset_bufLen (s : State) : (s.softReset).bufLen = 0 := rfl
@[simp] theorem State.softReset_wrPos (s : State) : (s.softReset).wrPos = 0 := rfl
@[simp] theorem State.softReset_rdPos (s : State) : (s.softReset).rdPos = 0 := rfl
@[simp] theorem State.softReset_delaySamples (s : State) : (s.softReset).delaySamples = 0 := rfl
@[simp] theorem State.softReset_cfgBlock (s : State) : (s.softReset).cfgBlock = 0 := rfl
@[simp] theorem State.softReset_cfgNch (s : State) : (s.softReset).cfgNch = 0 := rfl
@[simp] theorem State.softReset_cfgSrLo (s : State) : (s.softReset).cfgSrLo = 0 := rfl
@[simp] theorem State.softReset_cfgSrHi (s : State) : (s.softReset).cfgSrHi = 0 := rfl
@[simp] theorem State.softReset_delayTime (s : State) : (s.softReset).delayTime = .unset := rfl
@[simp] theorem State.softReset_dryMix (s : State) : (s.softReset).dryMix = .unset := rfl
@[simp] theorem State.softReset_wetMix (s : State) : (s.softReset).wetMix = .unset := rfl
@[simp] theorem State.softReset_feedback (s : State) : (s.softReset).feedback = .unset := rfl
@[simp] theorem State.softReset_ring (s : State) : (s.softReset).ring = [] := rfl
@[simp] theorem State.softReset_wet (s : State) : (s.softReset).wet = [] := rfl
@[simp] theorem State.softReset_blk (s : State) : (s.softReset).blk = s.blk := rfl
@[simp] theorem State.softReset_inbox (s : State) : (s.softReset).inbox = s.inbox := rfl
@[simp] theorem State.softReset_answer (s : State) : (s.softReset).answer = s.answer := rfl
@[simp] theorem State.softReset_draws (s : State) : (s.softReset).draws = s.draws := rfl
@[simp] theorem State.softReset_conf (s : State) : (s.softReset).conf = s.conf := rfl

/-! putOperand -/

@[simp] theorem State.putOperand_busy (s : State) (r : OperandReg) (v : Word) : (s.putOperand r v).busy = s.busy := by
  cases r <;> rfl
@[simp] theorem State.putOperand_prepared (s : State) (r : OperandReg) (v : Word) : (s.putOperand r v).prepared = s.prepared := by
  cases r <;> rfl
@[simp] theorem State.putOperand_err (s : State) (r : OperandReg) (v : Word) : (s.putOperand r v).err = s.err := by
  cases r <;> rfl
@[simp] theorem State.putOperand_bufLen (s : State) (r : OperandReg) (v : Word) : (s.putOperand r v).bufLen = s.bufLen := by
  cases r <;> rfl
@[simp] theorem State.putOperand_wrPos (s : State) (r : OperandReg) (v : Word) : (s.putOperand r v).wrPos = s.wrPos := by
  cases r <;> rfl
@[simp] theorem State.putOperand_rdPos (s : State) (r : OperandReg) (v : Word) : (s.putOperand r v).rdPos = s.rdPos := by
  cases r <;> rfl
@[simp] theorem State.putOperand_delaySamples (s : State) (r : OperandReg) (v : Word) : (s.putOperand r v).delaySamples = s.delaySamples := by
  cases r <;> rfl
@[simp] theorem State.putOperand_cfgBlock (s : State) (r : OperandReg) (v : Word) : (s.putOperand r v).cfgBlock = s.cfgBlock := by
  cases r <;> rfl
@[simp] theorem State.putOperand_cfgNch (s : State) (r : OperandReg) (v : Word) : (s.putOperand r v).cfgNch = s.cfgNch := by
  cases r <;> rfl
@[simp] theorem State.putOperand_cfgSrLo (s : State) (r : OperandReg) (v : Word) : (s.putOperand r v).cfgSrLo = s.cfgSrLo := by
  cases r <;> rfl
@[simp] theorem State.putOperand_cfgSrHi (s : State) (r : OperandReg) (v : Word) : (s.putOperand r v).cfgSrHi = s.cfgSrHi := by
  cases r <;> rfl
@[simp] theorem State.putOperand_delayTime (s : State) (r : OperandReg) (v : Word) : (s.putOperand r v).delayTime = s.delayTime := by
  cases r <;> rfl
@[simp] theorem State.putOperand_dryMix (s : State) (r : OperandReg) (v : Word) : (s.putOperand r v).dryMix = s.dryMix := by
  cases r <;> rfl
@[simp] theorem State.putOperand_wetMix (s : State) (r : OperandReg) (v : Word) : (s.putOperand r v).wetMix = s.wetMix := by
  cases r <;> rfl
@[simp] theorem State.putOperand_feedback (s : State) (r : OperandReg) (v : Word) : (s.putOperand r v).feedback = s.feedback := by
  cases r <;> rfl
@[simp] theorem State.putOperand_ring (s : State) (r : OperandReg) (v : Word) : (s.putOperand r v).ring = s.ring := by
  cases r <;> rfl
@[simp] theorem State.putOperand_wet (s : State) (r : OperandReg) (v : Word) : (s.putOperand r v).wet = s.wet := by
  cases r <;> rfl
@[simp] theorem State.putOperand_blk (s : State) (r : OperandReg) (v : Word) : (s.putOperand r v).blk = s.blk := by
  cases r <;> rfl
@[simp] theorem State.putOperand_inbox (s : State) (r : OperandReg) (v : Word) : (s.putOperand r v).inbox = s.inbox := by
  cases r <;> rfl
@[simp] theorem State.putOperand_answer (s : State) (r : OperandReg) (v : Word) : (s.putOperand r v).answer = s.answer := by
  cases r <;> rfl
@[simp] theorem State.putOperand_draws (s : State) (r : OperandReg) (v : Word) : (s.putOperand r v).draws = s.draws := by
  cases r <;> rfl
@[simp] theorem State.putOperand_conf (s : State) (r : OperandReg) (v : Word) : (s.putOperand r v).conf = s.conf := by
  cases r <;> rfl

@[simp] theorem State.putOperand_srLo (s : State) (r : OperandReg) (v : Word) :
    (s.putOperand r v).srLo = if r = .srLo then .written v else s.srLo := by
  cases r <;> rfl
@[simp] theorem State.putOperand_srHi (s : State) (r : OperandReg) (v : Word) :
    (s.putOperand r v).srHi = if r = .srHi then .written v else s.srHi := by
  cases r <;> rfl
@[simp] theorem State.putOperand_blockSize (s : State) (r : OperandReg) (v : Word) :
    (s.putOperand r v).blockSize = if r = .blockSize then .written v else s.blockSize := by
  cases r <;> rfl
@[simp] theorem State.putOperand_numCh (s : State) (r : OperandReg) (v : Word) :
    (s.putOperand r v).numCh = if r = .numCh then .written v else s.numCh := by
  cases r <;> rfl
@[simp] theorem State.putOperand_gainStart (s : State) (r : OperandReg) (v : Word) :
    (s.putOperand r v).gainStart = if r = .gainStart then .written v else s.gainStart := by
  cases r <;> rfl
@[simp] theorem State.putOperand_gainEnd (s : State) (r : OperandReg) (v : Word) :
    (s.putOperand r v).gainEnd = if r = .gainEnd then .written v else s.gainEnd := by
  cases r <;> rfl

/-! The state after reset -/

@[simp] theorem State.resetWith_busy (l : Configuration) : (State.resetWith l).busy = false := rfl
@[simp] theorem State.resetWith_prepared (l : Configuration) : (State.resetWith l).prepared = false := rfl
@[simp] theorem State.resetWith_err (l : Configuration) : (State.resetWith l).err = none := rfl
@[simp] theorem State.resetWith_srLo (l : Configuration) : (State.resetWith l).srLo = .unset := rfl
@[simp] theorem State.resetWith_srHi (l : Configuration) : (State.resetWith l).srHi = .unset := rfl
@[simp] theorem State.resetWith_blockSize (l : Configuration) : (State.resetWith l).blockSize = .unset := rfl
@[simp] theorem State.resetWith_numCh (l : Configuration) : (State.resetWith l).numCh = .unset := rfl
@[simp] theorem State.resetWith_gainStart (l : Configuration) : (State.resetWith l).gainStart = .unset := rfl
@[simp] theorem State.resetWith_gainEnd (l : Configuration) : (State.resetWith l).gainEnd = .unset := rfl
@[simp] theorem State.resetWith_bufLen (l : Configuration) : (State.resetWith l).bufLen = 0 := rfl
@[simp] theorem State.resetWith_wrPos (l : Configuration) : (State.resetWith l).wrPos = 0 := rfl
@[simp] theorem State.resetWith_rdPos (l : Configuration) : (State.resetWith l).rdPos = 0 := rfl
@[simp] theorem State.resetWith_delaySamples (l : Configuration) : (State.resetWith l).delaySamples = 0 := rfl
@[simp] theorem State.resetWith_cfgBlock (l : Configuration) : (State.resetWith l).cfgBlock = 0 := rfl
@[simp] theorem State.resetWith_cfgNch (l : Configuration) : (State.resetWith l).cfgNch = 0 := rfl
@[simp] theorem State.resetWith_cfgSrLo (l : Configuration) : (State.resetWith l).cfgSrLo = 0 := rfl
@[simp] theorem State.resetWith_cfgSrHi (l : Configuration) : (State.resetWith l).cfgSrHi = 0 := rfl
@[simp] theorem State.resetWith_delayTime (l : Configuration) : (State.resetWith l).delayTime = .unset := rfl
@[simp] theorem State.resetWith_dryMix (l : Configuration) : (State.resetWith l).dryMix = .unset := rfl
@[simp] theorem State.resetWith_wetMix (l : Configuration) : (State.resetWith l).wetMix = .unset := rfl
@[simp] theorem State.resetWith_feedback (l : Configuration) : (State.resetWith l).feedback = .unset := rfl
@[simp] theorem State.resetWith_ring (l : Configuration) : (State.resetWith l).ring = [] := rfl
@[simp] theorem State.resetWith_wet (l : Configuration) : (State.resetWith l).wet = [] := rfl
@[simp] theorem State.resetWith_blk (l : Configuration) : (State.resetWith l).blk = [] := rfl
@[simp] theorem State.resetWith_inbox (l : Configuration) : (State.resetWith l).inbox = [] := rfl
@[simp] theorem State.resetWith_answer (l : Configuration) : (State.resetWith l).answer = none := rfl
@[simp] theorem State.resetWith_draws (l : Configuration) : (State.resetWith l).draws = 0 := rfl
@[simp] theorem State.resetWith_conf (l : Configuration) : (State.resetWith l).conf = l := rfl

end Sys2Proof.Machine
end

