-- ==== Sys2Proof/Laws/Ops.lean ====
section
/-! SUPPORT. Everything each shared operation can do, said once, and what each meaning can answer. -/

namespace Sys2Proof.Machine

/-! The frame of a transaction. -/

theorem State.transact_faulted {s : State} {e : ErrCode} (h : s.err = some e) (c : Option ErrCode) (w : StepResult) :
    s.transact c w = .next (s.discard none) := by simp [State.transact, h]

theorem State.transact_raised {s : State} (h : s.err = none) (code : ErrCode) (w : StepResult) :
    s.transact (some code) w = .next (s.raise code none) := by simp [State.transact, h]

theorem State.transact_passed {s : State} (h : s.err = none) (w : StepResult) : s.transact none w = w := by
  simp [State.transact, h]

/-- A transaction that answers a next state was discarded, or raised the code its check gave, or did its work. -/
theorem State.transact_next {s t : State} {c : Option ErrCode} {w : StepResult} (h : s.transact c w = .next t) :
    (s.err ≠ none ∧ t = s.discard none) ∨ (s.err = none ∧ ∃ code, c = some code ∧ t = s.raise code none) ∨
      (s.err = none ∧ c = none ∧ w = .next t) := by
  unfold State.transact at h
  rcases he : s.err with _ | e
  · rcases c with _ | code
    · exact .inr (.inr ⟨rfl, rfl, by simpa [he] using h⟩)
    · exact .inr (.inl ⟨rfl, code, rfl, by simpa [he] using h.symm⟩)
  · exact .inl ⟨by simp, by simpa [he] using h.symm⟩

theorem State.touching_next {s w t : State} {channels n : Nat} (h : s.touching channels n w = .next t) :
    s.ringReady = true ∧ blkReady channels n = true ∧ t = w := by
  unfold State.touching at h
  split_ifs at h with h1 h2
  simp only [Host.Outcome.next.injEq] at h
  simp_all

theorem State.touching_ready {s : State} {channels n : Nat} (h1 : s.ringReady = true)
    (h2 : blkReady channels n = true) (w : State) : s.touching channels n w = .next w := by
  simp [State.touching, h1, h2]

theorem retuning_next {len d : Nat} {w t : State} (h : retuning len d w = .next t) : 0 < len ∧ d ≤ len ∧ t = w := by
  unfold retuning at h
  split_ifs at h with h1
  simp only [Host.Outcome.next.injEq] at h
  exact ⟨by omega, by omega, h.symm⟩

theorem retuning_ready {len d : Nat} (h1 : 0 < len) (h2 : d ≤ len) (w : State) : retuning len d w = .next w := by
  unfold retuning
  rw [if_neg (by omega)]

theorem State.ringReady_iff (s : State) : s.ringReady = true ↔
    1 ≤ s.cfgNch.toNat ∧ s.cfgBlock.toNat ≤ s.len ∧ s.wrPos.toNat < s.len ∧ s.rdPos.toNat < s.len := by
  simp [State.ringReady, and_assoc]

theorem blkReady_iff (channels n : Nat) : blkReady channels n = true ↔ channels ≤ 16 ∧ n ≤ 65536 := by
  simp [blkReady]

/-! What each meaning can answer. -/

theorem execNop_next {s t : State} (h : execNop s = .next t) :
    (s.err ≠ none ∧ t = s.discard none) ∨ (s.err = none ∧ t = s.finish none) := by
  rcases State.transact_next h with h | ⟨_, _, h, _⟩ | ⟨he, _, h⟩
  · exact .inl h
  · cases h
  · exact .inr ⟨he, by simpa using h.symm⟩

theorem execPrep_next {s t : State} (h : execPrep s = .next t) :
    (s.err ≠ none ∧ t = s.discard none) ∨ (s.err = none ∧ ∃ code, s.prepCheck = some code ∧ t = s.raise code none) ∨
      (s.err = none ∧ s.prepCheck = none ∧ 0 < cap s.sampleRate ∧
        dsamp s.delayTime.bits s.sampleRate ≤ cap s.sampleRate ∧
        t = ((s.configure (cap s.sampleRate)).putDelay (dsamp s.delayTime.bits s.sampleRate)
          (readCursor (cap s.sampleRate) 0 (dsamp s.delayTime.bits s.sampleRate))).finish none) := by
  rcases State.transact_next h with h | h | ⟨he, hc, h⟩
  · exact .inl h
  · exact .inr (.inl h)
  · obtain ⟨h1, h2, h3⟩ := retuning_next h
    exact .inr (.inr ⟨he, hc, h1, h2, h3⟩)

theorem execProc_next {nout nin n : Nat} {s t : State} (h : execProc nout nin n s = .next t) :
    (s.err ≠ none ∧ t = s.discard none) ∨
      (s.err = none ∧ ∃ code, s.procCheck nin n = some code ∧ t = s.raise code none) ∨
      (s.err = none ∧ s.procCheck nin n = none ∧ s.ringReady = true ∧ blkReady (max nin nout) n = true ∧
        t = s.processed nout nin n) := by
  rcases State.transact_next h with h | h | ⟨he, hc, h⟩
  · exact .inl h
  · exact .inr (.inl h)
  · exact .inr (.inr ⟨he, hc, State.touching_next h⟩)

theorem execBwr_next {ch n : Nat} {src : Source} {s t : State} (h : execBwr ch src n s = .next t) :
    (s.err ≠ none ∧ t = s.discard none) ∨
      (s.err = none ∧ ∃ code, s.bulkCheck n = some code ∧ t = s.raise code none) ∨
      (s.err = none ∧ s.bulkCheck n = none ∧ s.ringReady = true ∧ blkReady (ch + 1) n = true ∧
        t = ((s.putRing (upTo (s.bwrElement ch src n) n s.ring)).drawn (bulkDraws n)).finish none) := by
  rcases State.transact_next h with h | h | ⟨he, hc, h⟩
  · exact .inl h
  · exact .inr (.inl h)
  · exact .inr (.inr ⟨he, hc, State.touching_next h⟩)

theorem execBrd_next {ch n : Nat} {s t : State} (h : execBrd ch n s = .next t) :
    (s.err ≠ none ∧ t = s.discard none) ∨
      (s.err = none ∧ ∃ code, s.bulkCheck n = some code ∧ t = s.raise code none) ∨
      (s.err = none ∧ s.bulkCheck n = none ∧ s.ringReady = true ∧ blkReady (ch + 1) n = true ∧
        t = ((s.putWet (upTo (s.brdElement ch n) n s.wet)).drawn (bulkDraws n)).finish none) := by
  rcases State.transact_next h with h | h | ⟨he, hc, h⟩
  · exact .inl h
  · exact .inr (.inl h)
  · exact .inr (.inr ⟨he, hc, State.touching_next h⟩)

theorem execBadd_next {ch n : Nat} {src : Source} {s t : State} (h : execBadd ch src n s = .next t) :
    (s.err ≠ none ∧ t = s.discard none) ∨
      (s.err = none ∧ ∃ code, s.bulkCheck n = some code ∧ t = s.raise code none) ∨
      (s.err = none ∧ s.bulkCheck n = none ∧ s.ringReady = true ∧ blkReady (ch + 1) n = true ∧
        t = ((s.putRing (upTo (s.baddElement ch src n) n s.ring)).drawn (bulkDraws n)).finish none) := by
  rcases State.transact_next h with h | h | ⟨he, hc, h⟩
  · exact .inl h
  · exact .inr (.inl h)
  · exact .inr (.inr ⟨he, hc, State.touching_next h⟩)

theorem execAdv_next {n : Nat} {s t : State} (h : execAdv n s = .next t) :
    (s.err ≠ none ∧ t = s.discard none) ∨
      (s.err = none ∧ ∃ code, s.advCheck = some code ∧ t = s.raise code none) ∨
      (s.err = none ∧ s.advCheck = none ∧ 0 < s.len ∧
        t = (s.putCursors ((s.wrPos.toNat + n) % s.len) ((s.rdPos.toNat + n) % s.len)).finish none) := by
  rcases State.transact_next h with h | h | ⟨he, hc, h⟩
  · exact .inl h
  · exact .inr (.inl h)
  · obtain ⟨h1, _, h3⟩ := retuning_next h
    exact .inr (.inr ⟨he, hc, h1, h3⟩)

theorem execSetdt_next {p : Port} {v : F32} {s t : State} (h : execSetdt p v s = .next t) :
    (s.err ≠ none ∧ t = s.discard none) ∨ (s.err = none ∧ legalDelay v = false ∧ t = s.raise .badParam none) ∨
      (s.err = none ∧ legalDelay v = true ∧ s.prepared = false ∧ t = (s.putDelayTime v).finish none) ∨
      (s.err = none ∧ legalDelay v = true ∧ s.prepared = true ∧ 0 < s.len ∧ dsamp v s.cfgRate ≤ s.len ∧
        t = ((s.putDelayTime v).putDelay (dsamp v s.cfgRate)
          (readCursor s.len s.wrPos.toNat (dsamp v s.cfgRate))).finish none) := by
  rcases State.transact_next h with h | ⟨he, code, hc, h⟩ | ⟨he, hc, h⟩
  · exact .inl h
  · unfold delayCheck at hc; split_ifs at hc with hv; cases hc
    exact .inr (.inl ⟨he, by simpa using hv, h⟩)
  · unfold delayCheck at hc; split_ifs at hc with hv
    cases hp : s.prepared
    · rw [hp] at h; exact .inr (.inr (.inl ⟨he, hv, rfl, by simpa using h.symm⟩))
    · rw [hp] at h
      obtain ⟨h1, h2, h3⟩ := retuning_next (by simpa using h)
      exact .inr (.inr (.inr ⟨he, hv, rfl, h1, h2, h3⟩))

/-- What the three mix setters can answer; `put` is the register's write. -/
theorem mixSetter_next {v : F32} {put s t : State} (h : s.transact (mixCheck v) (.next (put.finish none)) = .next t) :
    (s.err ≠ none ∧ t = s.discard none) ∨ (s.err = none ∧ legalMix v = false ∧ t = s.raise .badParam none) ∨
      (s.err = none ∧ legalMix v = true ∧ t = put.finish none) := by
  rcases State.transact_next h with h | ⟨he, code, hc, h⟩ | ⟨he, hc, h⟩
  · exact .inl h
  · unfold mixCheck at hc; split_ifs at hc with hv; cases hc
    exact .inr (.inl ⟨he, by simpa using hv, h⟩)
  · unfold mixCheck at hc; split_ifs at hc with hv
    exact .inr (.inr ⟨he, hv, by simpa using h.symm⟩)

/-! What a step can do. -/

/-- A step waits, or runs a command or setter, or takes its event otherwise. -/
theorem step_cases {s t : State} (h : step s = .next t) :
    (s.fetch = .idle ∧ t = s) ∨ (∃ i u, s.fetch = .run i u ∧ exec i u = .next t) ∨ s.fetch = .answered t := by
  unfold step at h
  split at h
  · exact .inl ⟨‹_›, by simpa using h.symm⟩
  · exact .inr (.inl ⟨_, _, ‹_›, h⟩)
  · simp only [Host.Outcome.next.injEq] at h; subst h; exact .inr (.inr ‹_›)

/-- Fetching an instruction takes it off the inbox, and it was the oldest event's. -/
theorem fetch_run {s u : State} {i : Instr} (h : s.fetch = .run i u) :
    ∃ tr rest, s.inbox = .transaction tr :: rest ∧ decodeTransaction tr = .run i ∧ s.busy = false ∧
      u = s.dequeue rest := by
  unfold State.fetch at h
  split at h
  · split_ifs at h
  · rename_i e rest heq
    split_ifs at h with hb
    cases e with
    | hostBlk ch i' v => simp [State.takeEvent] at h
    | reset => simp [State.takeEvent] at h
    | transaction tr =>
      simp only [State.takeEvent, State.take] at h
      split at h <;> simp_all [Event.unheld]

/-- What an event that is no instruction leaves: one of the port operations, a host write of BLK, reset, or the
completion of the command in flight. -/
theorem fetch_answered {s t : State} (h : s.fetch = .answered t) :
    t = s.complete ∨ ∃ e rest, s.inbox = e :: rest ∧
      ((∃ code d, t = (s.dequeue rest).refuse code d) ∨ (∃ r v, t = (s.dequeue rest).writeOperand r v) ∨
        (∃ r, t = (s.dequeue rest).readRegister r) ∨ (∃ c k, t = (s.dequeue rest).readWindow c k) ∨
        (∃ ch i v, e = .hostBlk ch i v ∧
          t = (s.dequeue rest).putBlk (blkWrite s.blk ch.toNat i.toNat v)) ∨
        (e = .reset ∧ t = (s.dequeue rest).softReset)) := by
  unfold State.fetch at h
  split at h
  · split_ifs at h
    exact .inl (by simpa using h.symm)
  · rename_i e rest heq
    split_ifs at h with hb
    · exact .inl (by simpa using h.symm)
    · refine .inr ⟨e, rest, heq, ?_⟩
      cases e with
      | hostBlk ch i' v =>
        simp only [State.takeEvent, Fetch.answered.injEq] at h
        exact .inr (.inr (.inr (.inr (.inl ⟨ch, i', v, rfl, h.symm⟩))))
      | reset =>
        simp only [State.takeEvent, Fetch.answered.injEq] at h
        exact .inr (.inr (.inr (.inr (.inr ⟨rfl, h.symm⟩))))
      | transaction tr =>
        simp only [State.takeEvent, State.take] at h
        split at h <;> simp only [Fetch.answered.injEq, reduceCtorEq] at h
        · exact .inl ⟨_, _, h.symm⟩
        · exact .inr (.inl ⟨_, _, h.symm⟩)
        · exact .inr (.inr (.inl ⟨_, h.symm⟩))
        · exact .inr (.inr (.inr (.inl ⟨_, _, h.symm⟩)))
        · exact .inl ⟨_, _, h.symm⟩
        · exact .inl ⟨_, _, h.symm⟩

end Sys2Proof.Machine
end

