-- ==== Sys2Proof/Laws/Loops.lean ====
section
/-! SUPPORT. What the loops of PROC and the bulk copies do to the memories: the words they keep inside their spaces,
the words they write, the words they leave. -/

namespace Sys2Proof.Machine

/-! Addresses and spaces. -/

theorem ringAddr_div {c j : Nat} (h : j < 2 ^ 32) : ringAddr c j / 2 ^ 32 = c := by unfold ringAddr; omega

theorem ringAddr_mod {c j : Nat} (h : j < 2 ^ 32) : ringAddr c j % 2 ^ 32 = j := by unfold ringAddr; omega

theorem blockAddr_div {c k : Nat} (h : k < 65536) : blockAddr c k / 65536 = c := by unfold blockAddr; omega

theorem blockAddr_mod {c k : Nat} (h : k < 65536) : blockAddr c k % 65536 = k := by unfold blockAddr; omega

/-- A write at an address of the space keeps the memory inside it. -/
theorem Memory.Within.write {width rows cols : Nat} {m : Memory} {fill : Option Word} {a : Nat} {v : Word}
    (h : m.Within width rows cols) (h1 : a / width < rows) (h2 : a % width < cols) :
    (Memory.write fill m a v).Within width rows cols := fun x hx => by
  rcases Memory.mem_write hx with rfl | hx
  · exact ⟨h1, h2⟩
  · exact h x hx

theorem Memory.Within.ringWrite {m : Memory} {rows cols c j : Nat} {v : F32} (h : m.Within (2 ^ 32) rows cols)
    (hc : c < rows) (hj : j < cols) (hj2 : j < 2 ^ 32) : (ringWrite m c j v).Within (2 ^ 32) rows cols :=
  h.write (by rwa [ringAddr_div hj2]) (by rwa [ringAddr_mod hj2])

theorem Memory.Within.wetWrite {m : Memory} {rows cols c k : Nat} {v : F32} (h : m.Within 65536 rows cols)
    (hc : c < rows) (hk : k < cols) (hk2 : k < 65536) : (wetWrite m c k v).Within 65536 rows cols :=
  h.write (by rwa [blockAddr_div hk2]) (by rwa [blockAddr_mod hk2])

theorem Memory.Within.blkWrite {m : Memory} {rows cols c k : Nat} {v : F32} (h : m.Within 65536 rows cols)
    (hc : c < rows) (hk : k < cols) (hk2 : k < 65536) : (blkWrite m c k v).Within 65536 rows cols :=
  h.write (by rwa [blockAddr_div hk2]) (by rwa [blockAddr_mod hk2])

theorem State.delayChannel_lt {s : State} (ch : Nat) (h : 1 ≤ s.cfgNch.toNat) :
    s.delayChannel ch < s.cfgNch.toNat := by unfold State.delayChannel; omega

/-! Cursors and spans. -/

theorem bump_eq {len pos : Nat} (h : pos < len) : bump len pos = (pos + 1) % len := by
  unfold bump
  split_ifs with h1
  · rw [h1, Nat.mod_self]
  · rw [Nat.mod_eq_of_lt (by omega)]

theorem bump_lt {len pos : Nat} (h : pos < len) : bump len pos < len := by
  rw [bump_eq h]; exact Nat.mod_lt _ (by omega)

/-- `n` single steps from `pos` (41_process R104). -/
theorem bump_span {len pos k : Nat} (h : 0 < len) : bump len ((pos + k) % len) = (pos + (k + 1)) % len := by
  rw [bump_eq (Nat.mod_lt _ h), Nat.mod_add_mod, Nat.add_assoc]

/-- Within one turn of the ring, different steps are at different words. -/
theorem span_inj {len pos i k : Nat} (hi : i < len) (hk : k < len)
    (h : (pos + i) % len = (pos + k) % len) : i = k := by
  have := Nat.ModEq.add_left_cancel' pos (show pos + i ≡ pos + k [MOD len] from h)
  rwa [Nat.ModEq, Nat.mod_eq_of_lt hi, Nat.mod_eq_of_lt hk] at this

theorem spanIndex_eq {len pos n k : Nat} (hn : n ≤ len) (hp : pos < len) (hk : k < n) :
    spanIndex len pos n k = (pos + k) % len := by
  unfold spanIndex firstPart
  split_ifs with h
  · rw [Nat.mod_eq_of_lt (by omega)]
  · rw [Nat.mod_eq_sub_mod (by omega), Nat.mod_eq_of_lt (by omega)]; omega

/-! Bulk loops: element `k` writes the word at `pos k` of one region, from what was there and its own value. -/

/-- Writing distinct words one after another: each holds what its pass wrote, which saw the word as it was before the
loop, and every other word is as before. -/
theorem upTo_ringWrite {m : Memory} {c n : Nat} {pos : Nat → Nat} {val : Nat → F32 → F32}
    (hlt : ∀ k, k < n → pos k < 2 ^ 32) (hinj : ∀ i k, i < n → k < n → pos i = pos k → i = k) :
    (∀ k, k < n → ringRead (upTo (fun k x => ringWrite x c (pos k) (val k (ringRead x c (pos k)))) n m) c (pos k) =
        val k (ringRead m c (pos k))) ∧
      ∀ c' j, j < 2 ^ 32 → (¬ ∃ k, k < n ∧ c' = c ∧ j = pos k) →
        ringRead (upTo (fun k x => ringWrite x c (pos k) (val k (ringRead x c (pos k)))) n m) c' j =
          ringRead m c' j := by
  induction n with
  | zero => exact ⟨fun k hk => absurd hk (Nat.not_lt_zero k), fun _ _ _ _ => rfl⟩
  | succ n ih =>
    obtain ⟨ih1, ih2⟩ := ih (fun k hk => hlt k (by omega)) (fun i k hi hk => hinj i k (by omega) (by omega))
    have hn := hlt n (Nat.lt_succ_self n)
    have old : ringRead (upTo (fun k x => ringWrite x c (pos k) (val k (ringRead x c (pos k)))) n m) c (pos n) =
        ringRead m c (pos n) :=
      ih2 c (pos n) hn fun ⟨k, hk, _, h⟩ => by have := hinj n k (by omega) (by omega) h; omega
    refine ⟨fun k hk => ?_, fun c' j hj h => ?_⟩
    · rw [upTo_succ]
      rcases Nat.lt_succ_iff_lt_or_eq.1 hk with hk' | rfl
      · rw [ringRead_ringWrite_ne _ _ fun h => ?_, ih1 k hk']
        have := hinj k n hk (Nat.lt_succ_self n) ((ringAddr_inj (hlt k hk) hn).1 h).2
        omega
      · rw [ringRead_ringWrite_same, old]
    · rw [upTo_succ, ringRead_ringWrite_ne _ _ fun he => ?_, ih2 c' j hj fun ⟨k, hk, h'⟩ => h ⟨k, by omega, h'⟩]
      obtain ⟨h1, h2⟩ := (ringAddr_inj hj hn).1 he
      exact h ⟨n, Nat.lt_succ_self n, h1, h2⟩

/-- The same for the scratch, whose words are written in order from the start of a region. -/
theorem upTo_wetWrite {m : Memory} {c n : Nat} {val : Nat → F32} (hn : n ≤ 65536) :
    (∀ k, k < n → wetRead (upTo (fun k x => wetWrite x c k (val k)) n m) c k = some (val k)) ∧
      ∀ c' j, j < 65536 → ¬ (c' = c ∧ j < n) →
        wetRead (upTo (fun k x => wetWrite x c k (val k)) n m) c' j = wetRead m c' j := by
  induction n with
  | zero => exact ⟨fun k hk => absurd hk (Nat.not_lt_zero k), fun _ _ _ _ => rfl⟩
  | succ n ih =>
    obtain ⟨ih1, ih2⟩ := ih (by omega)
    refine ⟨fun k hk => ?_, fun c' j hj h => ?_⟩
    · rw [upTo_succ]
      rcases Nat.lt_succ_iff_lt_or_eq.1 hk with hk' | rfl
      · rw [wetRead_wetWrite_ne _ _ fun h => ?_, ih1 k hk']
        have := ((blockAddr_inj (by omega) (by omega)).1 h).2
        omega
      · rw [wetRead_wetWrite_same]
    · rw [upTo_succ, wetRead_wetWrite_ne _ _ fun he => ?_, ih2 c' j hj fun h' => h ⟨h'.1, by omega⟩]
      obtain ⟨h1, h2⟩ := (blockAddr_inj hj (by omega)).1 he
      exact h ⟨h1, by omega⟩

/-! Clearing. -/

/-- A cleared channel reads `+0.0` in its first `n` words; no other block word changes (41_process R105). -/
theorem blkRead_clearChannel {n ch ch' i : Nat} (m : Memory) (hn : n ≤ 65536) (hi : i < 65536) :
    blkRead (clearChannel n ch m) ch' i = if ch' = ch ∧ i < n then 0 else blkRead m ch' i := by
  unfold clearChannel
  induction n with
  | zero => simp
  | succ n ih =>
    rw [upTo_succ]
    by_cases h : ch' = ch ∧ i = n
    · obtain ⟨rfl, rfl⟩ := h
      rw [blkRead_blkWrite_same, if_pos ⟨rfl, Nat.lt_succ_self _⟩]
    · rw [blkRead_blkWrite_ne _ _ fun he => h ((blockAddr_inj hi (by omega)).1 he), ih (by omega)]
      have : (ch' = ch ∧ i < n) ↔ (ch' = ch ∧ i < n + 1) := by omega
      simp only [this]

theorem blkRead_clearChannels {nin nout n ch i : Nat} (m : Memory) (hn : n ≤ 65536) (hi : i < 65536) :
    blkRead (clearChannels nin nout n m) ch i =
      if nin ≤ ch ∧ ch < nout ∧ i < n then 0 else blkRead m ch i := by
  unfold clearChannels
  suffices h : ∀ d, blkRead (upTo (fun j x => clearChannel n (nin + j) x) d m) ch i =
      if nin ≤ ch ∧ ch < nin + d ∧ i < n then 0 else blkRead m ch i by
    rw [h]
    have : (nin ≤ ch ∧ ch < nin + (nout - nin) ∧ i < n) ↔ (nin ≤ ch ∧ ch < nout ∧ i < n) := by omega
    simp only [this]
  intro d
  induction d with
  | zero => rw [upTo_zero, if_neg (by omega)]
  | succ d ih =>
    rw [upTo_succ, blkRead_clearChannel _ hn hi, ih]
    by_cases h : ch = nin + d ∧ i < n
    · rw [if_pos h, if_pos (by omega)]
    · rw [if_neg h]
      have : (nin ≤ ch ∧ ch < nin + d ∧ i < n) ↔ (nin ≤ ch ∧ ch < nin + (d + 1) ∧ i < n) := by omega
      simp only [this]

/-! What PROC and the clearing keep of the memories' form. -/

/-- Both memories canonical and inside their spaces, both local cursors inside the ring. -/
structure MixPos.Good (s : State) (x : MixPos) : Prop where
  ring_wf : Memory.wf (fillOf .ring) x.ring
  blk_wf : Memory.wf (fillOf .blk) x.blk
  ring_within : x.ring.Within (2 ^ 32) s.cfgNch.toNat s.len
  blk_within : x.blk.Within 65536 16 65536
  r_lt : x.r < s.len
  w_lt : x.w < s.len

theorem State.len_lt (s : State) : s.len < 2 ^ 32 := s.bufLen.isLt

theorem MixPos.Good.sample {s : State} {x : MixPos} {n ch i : Nat} (h : x.Good s) (hc : 1 ≤ s.cfgNch.toNat)
    (hch : ch < 16) (hi : i < 65536) : (s.mixSample n ch i x).Good s where
  ring_wf := ringWrite_wf _ _ _ h.ring_wf
  blk_wf := blkWrite_wf _ _ _ h.blk_wf
  ring_within := h.ring_within.ringWrite (s.delayChannel_lt ch hc) h.w_lt (h.w_lt.trans s.len_lt)
  blk_within := h.blk_within.blkWrite hch hi hi
  r_lt := bump_lt h.r_lt
  w_lt := bump_lt h.w_lt

theorem MixPos.Good.channel {s : State} {x : MixPos} {n ch : Nat} (h : x.Good s) (hc : 1 ≤ s.cfgNch.toNat)
    (hr : s.rdPos.toNat < s.len) (hw : s.wrPos.toNat < s.len) (hch : ch < 16) (hn : n ≤ 65536) :
    (s.mixChannel n ch x).Good s :=
  upTo_induct (fun _ y => MixPos.Good s y) ⟨h.ring_wf, h.blk_wf, h.ring_within, h.blk_within, hr, hw⟩
    fun _ _ hk hy => hy.sample hc hch (by omega)

theorem MixPos.Good.channels {s : State} {nin n : Nat} (h1 : Memory.wf (fillOf .ring) s.ring)
    (h2 : Memory.wf (fillOf .blk) s.blk) (h3 : s.ring.Within (2 ^ 32) s.cfgNch.toNat s.len)
    (h4 : s.blk.Within 65536 16 65536) (hc : 1 ≤ s.cfgNch.toNat) (hr : s.rdPos.toNat < s.len)
    (hw : s.wrPos.toNat < s.len) (hin : nin ≤ 16) (hn : n ≤ 65536) : (s.mixChannels nin n).Good s :=
  upTo_induct (fun _ y => MixPos.Good s y) ⟨h1, h2, h3, h4, hr, hw⟩
    fun _ _ hk hy => hy.channel hc hr hw (by omega) hn

theorem clearChannels_good {nin nout n : Nat} {m : Memory} (h1 : Memory.wf (fillOf .blk) m)
    (h2 : m.Within 65536 16 65536) (ho : nout ≤ 16) (hn : n ≤ 65536) :
    Memory.wf (fillOf .blk) (clearChannels nin nout n m) ∧ (clearChannels nin nout n m).Within 65536 16 65536 :=
  upTo_induct (fun _ y => Memory.wf (fillOf .blk) y ∧ Memory.Within 65536 16 65536 y) ⟨h1, h2⟩
    fun j _ hj hy => upTo_induct (fun _ z => Memory.wf (fillOf .blk) z ∧ Memory.Within 65536 16 65536 z) hy
      fun i _ hi hz => ⟨blkWrite_wf _ _ _ hz.1, hz.2.blkWrite (by omega) (by omega) (by omega)⟩

end Sys2Proof.Machine
end

