-- ==== Sys2Proof/Laws/Invariant.lean ====
section
/-! SUPPORT. What the shared operations keep of the invariant, and what the checks of each command say when they
pass. -/

namespace Sys2Proof.Machine

theorem toNat_ofNat32 {n : Nat} (h : n < 2 ^ 32) : (BitVec.ofNat 32 n).toNat = n := by
  rw [BitVec.toNat_ofNat, Nat.mod_eq_of_lt h]

/-! Checks that pass. -/

theorem prepCheck_none {s : State} (h : s.prepCheck = none) : s.PrepSet ∧ s.PrepAccepts := by
  unfold State.prepCheck at h
  split_ifs at h with h1 h2 h3 h4 h5
  simp only [Bool.not_eq_true, Bool.not_eq_false', Bool.and_eq_true] at h1 h2
  exact ⟨⟨h1.1.1.1.1, h1.1.1.1.2, h1.1.1.2, h1.1.2, h1.2⟩, by simpa using h2, by omega, by omega, by omega⟩

theorem procCheck_none {s : State} {nin n : Nat} (h : s.procCheck nin n = none) :
    s.prepared = true ∧ s.MixSet ∧ 1 ≤ nin ∧ n ≤ s.cfgBlock.toNat := by
  unfold State.procCheck at h
  split_ifs at h with h1 h2 h3
  simp only [Bool.not_eq_true, Bool.not_eq_false', Bool.and_eq_true] at h1 h2
  exact ⟨by simpa using h1, ⟨h2.1.1, h2.1.2, h2.2⟩, by omega, by omega⟩

theorem bulkCheck_none {s : State} {n : Nat} (h : s.bulkCheck n = none) :
    s.prepared = true ∧ s.GainSet ∧ n ≤ s.cfgBlock.toNat := by
  unfold State.bulkCheck at h
  split_ifs at h with h1 h2 h3
  simp only [Bool.not_eq_true, Bool.not_eq_false', Bool.and_eq_true] at h1 h2
  exact ⟨by simpa using h1, ⟨h2.1, h2.2⟩, by omega⟩

theorem advCheck_none {s : State} (h : s.advCheck = none) : s.prepared = true := by
  unfold State.advCheck at h
  split_ifs at h with h1
  simpa using h1

theorem State.ProcReady.check {s : State} {nin n : Nat} (h : s.ProcReady nin n) : s.procCheck nin n = none := by
  obtain ⟨_, _, hp, ⟨h1, h2, h3⟩, h4, h5⟩ := h
  simp only [State.procCheck, hp, h1, h2, h3, Bool.and_self, Bool.not_true, Bool.false_eq_true, if_false]
  rw [if_neg (by omega)]

/-! What a good prepared state gives. -/

theorem State.Inv.delay_le {s : State} (h : s.Inv) (hp : s.prepared = true) : s.delaySamples.toNat ≤ s.len := by
  have g := h.geometry hp
  rw [g.delay, g.len_cap]
  unfold dsamp cap
  rw [← rnd_scale (k := 2 ^ 149) (num := 2 * f64Units s.cfgRate) (by positivity)]
  exact rnd_mono (by
    have := Nat.mul_le_mul_right (f64Units s.cfgRate) (legalDelay_units (h.delay_legal g.delay_set))
    rw [← Nat.mul_assoc, Nat.mul_comm (2 ^ 149) 2]
    exact this)

theorem State.Inv.ready {s : State} (h : s.Inv) (hp : s.prepared = true) : s.ringReady = true := by
  have g := h.geometry hp
  rw [State.ringReady_iff]
  refine ⟨g.channels_pos, g.block_le, g.write_lt, ?_⟩
  rw [g.read_law]
  exact Nat.mod_lt _ (by have := g.write_lt; omega)

/-- Both cursors by `n`: the cursor law stays (41_process R104). -/
theorem readCursor_move {len wr d n : Nat} (hd : d ≤ len) :
    (readCursor len wr d + n) % len = readCursor len ((wr + n) % len) d := by
  unfold readCursor
  rw [Nat.mod_add_mod, show (wr + n) % len + len - d = (wr + n) % len + (len - d) by omega, Nat.mod_add_mod]
  congr 1
  omega

/-! What keeps the invariant. -/

/-- A state whose good fields are those of a good state is good. -/
theorem State.Inv.congr {s t : State} (h : s.Inv) (hl : t.conf = s.conf := by simp)
    (m1 : t.ring = s.ring := by simp) (m2 : t.wet = s.wet := by simp) (m3 : t.blk = s.blk := by simp)
    (a1 : t.delayTime = s.delayTime := by simp) (a2 : t.dryMix = s.dryMix := by simp)
    (a3 : t.wetMix = s.wetMix := by simp) (a4 : t.feedback = s.feedback := by simp)
    (b1 : t.bufLen = s.bufLen := by simp) (b2 : t.wrPos = s.wrPos := by simp) (b3 : t.rdPos = s.rdPos := by simp)
    (b4 : t.delaySamples = s.delaySamples := by simp) (b5 : t.cfgBlock = s.cfgBlock := by simp)
    (b6 : t.cfgNch = s.cfgNch := by simp) (b7 : t.cfgSrLo = s.cfgSrLo := by simp)
    (b8 : t.cfgSrHi = s.cfgSrHi := by simp) (c : t.prepared = s.prepared := by simp) : t.Inv := by
  have hL : t.len = s.len := by unfold State.len; rw [b1]
  have hR : t.cfgRate = s.cfgRate := by unfold State.cfgRate; rw [b7, b8]
  refine ⟨hl ▸ h.conf, m1 ▸ h.ring_wf, m2 ▸ h.wet_wf, m3 ▸ h.blk_wf, ?_, ?_, m3 ▸ h.blk_within, ?_, ?_, ?_, ?_,
    fun hp => ?_, fun hp => ?_⟩
  · rw [m1, b6, hL]; exact h.ring_within
  · rw [m2, b6, b5]; exact h.wet_within
  · rw [a1]; exact h.delay_legal
  · rw [a2]; exact h.dry_legal
  · rw [a3]; exact h.wet_legal
  · rw [a4]; exact h.feedback_legal
  · have g := h.geometry (c ▸ hp)
    refine ⟨?_, ?_, ?_, ?_, ?_, ?_, ?_, ?_, ?_, ?_, ?_, ?_⟩ <;> simp only [hL, hR, hl, a1, b2, b3, b4, b5, b6]
    exacts [g.rate, g.len_cap, g.len_le, g.block_pos, g.block_le, g.block_max, g.channels_pos, g.channels_le,
      g.delay_set, g.delay, g.write_lt, g.read_law]
  · have g := h.blank (c ▸ hp)
    exact ⟨b1 ▸ g.bufLen, b2 ▸ g.wrPos, b3 ▸ g.rdPos, b4 ▸ g.delaySamples, b5 ▸ g.cfgBlock, b6 ▸ g.cfgNch,
      b7 ▸ g.cfgSrLo, b8 ▸ g.cfgSrHi⟩

theorem State.Inv.finish {s : State} (h : s.Inv) (d : Option Word) : (s.finish d).Inv := h.congr

theorem State.Inv.raise {s : State} (h : s.Inv) (c : ErrCode) (d : Option Word) : (s.raise c d).Inv := h.congr

theorem State.Inv.discard {s : State} (h : s.Inv) (d : Option Word) : (s.discard d).Inv := h.congr

theorem State.Inv.drawn {s : State} (h : s.Inv) (n : Nat) : (s.drawn n).Inv := h.congr

theorem State.Inv.dequeue {s : State} (h : s.Inv) (rest : List Event) : (s.dequeue rest).Inv := h.congr

theorem State.Inv.complete {s : State} (h : s.Inv) : s.complete.Inv := h.congr

theorem State.Inv.putOperand {s : State} (h : s.Inv) (r : OperandReg) (v : Word) : (s.putOperand r v).Inv := by
  cases r <;> exact h.congr

/-- A good state with other memories, of the right form. -/
theorem State.Inv.memories {s : State} (h : s.Inv) {ring wet blk : Memory} (h1 : Memory.wf (fillOf .ring) ring)
    (h2 : Memory.wf (fillOf .wet) wet) (h3 : Memory.wf (fillOf .blk) blk)
    (w1 : ring.Within (2 ^ 32) s.cfgNch.toNat s.len) (w2 : wet.Within 65536 s.cfgNch.toNat s.cfgBlock.toNat)
    (w3 : blk.Within 65536 16 65536) : (((s.putRing ring).putWet wet).putBlk blk).Inv where
  conf := h.conf
  ring_wf := h1
  wet_wf := h2
  blk_wf := h3
  ring_within := w1
  wet_within := w2
  blk_within := w3
  delay_legal := h.delay_legal
  dry_legal := h.dry_legal
  wet_legal := h.wet_legal
  feedback_legal := h.feedback_legal
  geometry := fun hp =>
    have g := h.geometry hp
    ⟨g.rate, g.len_cap, g.len_le, g.block_pos, g.block_le, g.block_max, g.channels_pos, g.channels_le, g.delay_set,
      g.delay, g.write_lt, g.read_law⟩
  blank := fun hp =>
    have b := h.blank hp
    ⟨b.bufLen, b.wrPos, b.rdPos, b.delaySamples, b.cfgBlock, b.cfgNch, b.cfgSrLo, b.cfgSrHi⟩

theorem State.Inv.putRing {s : State} (h : s.Inv) {m : Memory} (h1 : Memory.wf (fillOf .ring) m)
    (h2 : m.Within (2 ^ 32) s.cfgNch.toNat s.len) : (s.putRing m).Inv :=
  h.memories h1 h.wet_wf h.blk_wf h2 h.wet_within h.blk_within

theorem State.Inv.putWet {s : State} (h : s.Inv) {m : Memory} (h1 : Memory.wf (fillOf .wet) m)
    (h2 : m.Within 65536 s.cfgNch.toNat s.cfgBlock.toNat) : (s.putWet m).Inv :=
  h.memories h.ring_wf h1 h.blk_wf h.ring_within h2 h.blk_within

theorem State.Inv.putBlk {s : State} (h : s.Inv) {m : Memory} (h1 : Memory.wf (fillOf .blk) m)
    (h2 : m.Within 65536 16 65536) : (s.putBlk m).Inv :=
  h.memories h.ring_wf h.wet_wf h1 h.ring_within h.wet_within h2

/-- Both cursors by `n` modulo `L` (41_process R104; 42_bulk R116). -/
theorem State.Inv.putCursors {s : State} (h : s.Inv) (hp : s.prepared = true) (n : Nat) :
    (s.putCursors ((s.wrPos.toNat + n) % s.len) ((s.rdPos.toNat + n) % s.len)).Inv := by
  have g := h.geometry hp
  have hl : 0 < s.len := Nat.zero_lt_of_lt g.write_lt
  have hw : (BitVec.ofNat 32 ((s.wrPos.toNat + n) % s.len)).toNat = (s.wrPos.toNat + n) % s.len :=
    toNat_ofNat32 ((Nat.mod_lt _ hl).trans s.len_lt)
  have hr : (BitVec.ofNat 32 ((s.rdPos.toNat + n) % s.len)).toNat = (s.rdPos.toNat + n) % s.len :=
    toNat_ofNat32 ((Nat.mod_lt _ hl).trans s.len_lt)
  refine ⟨h.conf, h.ring_wf, h.wet_wf, h.blk_wf, h.ring_within, h.wet_within, h.blk_within, h.delay_legal,
    h.dry_legal, h.wet_legal, h.feedback_legal, fun _ => ?_, fun hq => ?_⟩
  · refine ⟨g.rate, g.len_cap, g.len_le, g.block_pos, g.block_le, g.block_max, g.channels_pos, g.channels_le,
      g.delay_set, g.delay, ?_, ?_⟩
    · rw [State.putCursors_wrPos, hw]; exact Nat.mod_lt _ hl
    · rw [State.putCursors_wrPos, State.putCursors_rdPos, hw, hr, g.read_law]
      exact readCursor_move (h.delay_le hp)
  · rw [State.putCursors_prepared, hp] at hq; cases hq

/-! What PREP and the setters put. The rounded numbers stand as variables, so that nothing evaluates them. -/

/-- PREP's work: the operands latched, the ring of `len` words silent, the delay `d` (40_init R92, R93). -/
theorem State.Inv.configure {s : State} (h : s.Inv) (hs : s.PrepSet) (ha : s.PrepAccepts) {len d : Nat}
    (hlen : cap s.sampleRate = len) (hd : dsamp s.delayTime.bits s.sampleRate = d) (hle : d ≤ len) :
    ((s.configure len).putDelay d (readCursor len 0 d)).Inv := by
  obtain ⟨a1, ⟨a2, a3⟩, ⟨a4, a5⟩, a6, a7, a8⟩ := ha
  rw [hlen] at a6 a7 a8
  have hl := h.conf
  have eL : (BitVec.ofNat 32 len).toNat = len := toNat_ofNat32 (by omega)
  have eD : (BitVec.ofNat 32 d).toNat = d := toNat_ofNat32 (by omega)
  have hm : readCursor len 0 d < len := Nat.mod_lt _ (by omega)
  have eR : (BitVec.ofNat 32 (readCursor len 0 d)).toNat = readCursor len 0 d := toNat_ofNat32 (by omega)
  have hL : ((s.configure len).putDelay d (readCursor len 0 d)).len = len := eL
  refine ⟨hl, Memory.nil_wf _, Memory.nil_wf _, h.blk_wf, (fun _ hx => nomatch hx), (fun _ hx => nomatch hx),
    h.blk_within, h.delay_legal, h.dry_legal, h.wet_legal, h.feedback_legal, fun _ => ?_, (fun hh => nomatch hh)⟩
  refine ⟨a1, hL.trans hlen.symm, by rw [hL]; exact a7, a2, by rw [hL]; exact a8, a3, a4, a5, hs.2.2.2.2,
    eD.trans hd.symm, ?_, ?_⟩
  · rw [hL, State.putDelay_wrPos, State.configure_wrPos]
    exact Nat.zero_lt_of_lt hm
  · rw [hL, State.putDelay_rdPos, State.putDelay_delaySamples, eR, eD]
    rfl

/-- SETDT's work while unprepared (43_parameters R126). -/
theorem State.Inv.putDelayTime {s : State} (h : s.Inv) (hp : s.prepared = false) {v : F32} (hv : legalDelay v = true) :
    (s.putDelayTime v).Inv := by
  refine ⟨h.conf, h.ring_wf, h.wet_wf, h.blk_wf, h.ring_within, h.wet_within, h.blk_within, fun _ => hv,
    h.dry_legal, h.wet_legal, h.feedback_legal, fun hq => ?_, fun hq => ?_⟩
  · rw [State.putDelayTime_prepared, hp] at hq; cases hq
  · have b := h.blank hq
    exact ⟨b.bufLen, b.wrPos, b.rdPos, b.delaySamples, b.cfgBlock, b.cfgNch, b.cfgSrLo, b.cfgSrHi⟩

/-- SETDT's work while prepared, the new delay being `d` samples (43_parameters R126). -/
theorem State.Inv.retune {s : State} (h : s.Inv) (hp : s.prepared = true) {v : F32} (hv : legalDelay v = true)
    {d : Nat} (hd : dsamp v s.cfgRate = d) (hle : d ≤ s.len) :
    ((s.putDelayTime v).putDelay d (readCursor s.len s.wrPos.toNat d)).Inv := by
  have g := h.geometry hp
  have eD : (BitVec.ofNat 32 d).toNat = d := toNat_ofNat32 (hle.trans_lt s.len_lt)
  have hm : readCursor s.len s.wrPos.toNat d < s.len := Nat.mod_lt _ (Nat.zero_lt_of_lt g.write_lt)
  have eR := toNat_ofNat32 (hm.trans s.len_lt)
  refine ⟨h.conf, h.ring_wf, h.wet_wf, h.blk_wf, h.ring_within, h.wet_within, h.blk_within, fun _ => hv,
    h.dry_legal, h.wet_legal, h.feedback_legal, fun _ => ?_, fun hq => ?_⟩
  · refine ⟨g.rate, g.len_cap, g.len_le, g.block_pos, g.block_le, g.block_max, g.channels_pos, g.channels_le, rfl,
      eD.trans hd.symm, g.write_lt, ?_⟩
    rw [State.putDelay_rdPos, State.putDelay_delaySamples, eR, eD]
    rfl
  · rw [State.putDelay_prepared, State.putDelayTime_prepared, hp] at hq; cases hq

/-- A good state with other mixes, legal where they are set. -/
theorem State.Inv.mixes {s t : State} (h : s.Inv) (h1 : t.dryMix.isSet = true → legalMix t.dryMix.bits = true)
    (h2 : t.wetMix.isSet = true → legalMix t.wetMix.bits = true)
    (h3 : t.feedback.isSet = true → legalMix t.feedback.bits = true)
    (ht : t = { s with dryMix := t.dryMix, wetMix := t.wetMix, feedback := t.feedback }) : t.Inv := by
  rw [ht]
  refine ⟨h.conf, h.ring_wf, h.wet_wf, h.blk_wf, h.ring_within, h.wet_within, h.blk_within, h.delay_legal, h1, h2, h3,
    fun hp => ?_, fun hp => ?_⟩
  · have g := h.geometry hp
    exact ⟨g.rate, g.len_cap, g.len_le, g.block_pos, g.block_le, g.block_max, g.channels_pos, g.channels_le,
      g.delay_set, g.delay, g.write_lt, g.read_law⟩
  · have b := h.blank hp
    exact ⟨b.bufLen, b.wrPos, b.rdPos, b.delaySamples, b.cfgBlock, b.cfgNch, b.cfgSrLo, b.cfgSrHi⟩

theorem State.Inv.putDryMix {s : State} (h : s.Inv) {v : F32} (hv : legalMix v = true) : (s.putDryMix v).Inv :=
  h.mixes (fun _ => hv) h.wet_legal h.feedback_legal rfl

theorem State.Inv.putWetMix {s : State} (h : s.Inv) {v : F32} (hv : legalMix v = true) : (s.putWetMix v).Inv :=
  h.mixes h.dry_legal (fun _ => hv) h.feedback_legal rfl

theorem State.Inv.putFeedback {s : State} (h : s.Inv) {v : F32} (hv : legalMix v = true) : (s.putFeedback v).Inv :=
  h.mixes h.dry_legal h.wet_legal (fun _ => hv) rfl

/-- The reset state is good whenever the parameters and the host's block are. -/
theorem State.Inv.softReset {s : State} (h : s.Inv) : s.softReset.Inv where
  conf := h.conf
  ring_wf := Memory.nil_wf _
  wet_wf := Memory.nil_wf _
  blk_wf := h.blk_wf
  ring_within := fun _ hx => by cases hx
  wet_within := fun _ hx => by cases hx
  blk_within := h.blk_within
  delay_legal := fun hh => by cases hh
  dry_legal := fun hh => by cases hh
  wet_legal := fun hh => by cases hh
  feedback_legal := fun hh => by cases hh
  geometry := fun hh => by cases hh
  blank := fun _ => ⟨rfl, rfl, rfl, rfl, rfl, rfl, rfl, rfl⟩

end Sys2Proof.Machine
end

