-- ==== Sys2Proof/Laws/Process.lean ====
section
/-! SUPPORT. What one channel of PROC does (41_process R101, R102): its cursors, its block words, its ring words. -/

namespace Sys2Proof.Machine

/-! How far the read cursor is behind. -/

/-- In a good prepared state the lag is between 1 and `L`, and takes the read cursor to the write cursor. -/
structure State.Trails (s : State) : Prop where
  write_lt : s.wrPos.toNat < s.len
  read_lt : s.rdPos.toNat < s.len
  lag_pos : 1 ≤ s.lag
  lag_le : s.lag ≤ s.len
  meets : (s.rdPos.toNat + s.lag) % s.len = s.wrPos.toNat

theorem State.Inv.trails {s : State} (h : s.Inv) (hp : s.prepared = true) : s.Trails := by
  have g := h.geometry hp
  have hd := h.delay_le hp
  have hw := g.write_lt
  have hr := ((State.ringReady_iff s).1 (h.ready hp)).2.2.2
  refine ⟨hw, hr, ?_, ?_, ?_⟩ <;> unfold State.lag <;> split_ifs with h0
  · omega
  · omega
  · omega
  · omega
  · rw [Nat.add_mod_right, Nat.mod_eq_of_lt hr, g.read_law, h0]
    unfold readCursor
    rw [Nat.sub_zero, Nat.add_mod_right, Nat.mod_eq_of_lt hw]
  · rw [g.read_law]
    unfold readCursor
    rw [Nat.mod_add_mod, show s.wrPos.toNat + s.len - s.delaySamples.toNat + s.delaySamples.toNat =
      s.wrPos.toNat + s.len by omega, Nat.add_mod_right, Nat.mod_eq_of_lt hw]

/-- From sample `D'` on, sample `k` reads where sample `k - D'` wrote. -/
theorem State.Trails.late {s : State} (h : s.Trails) {k : Nat} (hk : s.lag ≤ k) :
    s.readSpan k = s.writeSpan (k - s.lag) := by
  unfold State.readSpan State.writeSpan
  rw [← h.meets, Nat.mod_add_mod]
  congr 1
  omega

/-- Before sample `D'`, sample `k` reads where no earlier sample of the block wrote. -/
theorem State.Trails.early {s : State} (h : s.Trails) {j k : Nat} (hk : k < s.lag) (hj : j < k) :
    s.readSpan k ≠ s.writeSpan j := by
  have hle := h.lag_le
  unfold State.readSpan State.writeSpan
  intro he
  rw [← h.meets, Nat.mod_add_mod] at he
  have h1 : (s.rdPos.toNat + k) % s.len = (s.rdPos.toNat + (s.lag + j)) % s.len := by rw [he, Nat.add_assoc]
  rcases Nat.lt_or_ge (s.lag + j) s.len with hlt | hge
  · have := span_inj (show k < s.len by omega) hlt h1
    omega
  · have h2 : (s.rdPos.toNat + (s.lag + j)) % s.len = (s.rdPos.toNat + (s.lag + j - s.len)) % s.len := by
      rw [show s.rdPos.toNat + (s.lag + j) = s.rdPos.toNat + (s.lag + j - s.len) + s.len by omega,
        Nat.add_mod_right]
    have := span_inj (show k < s.len by omega) (show s.lag + j - s.len < s.len by omega) (h1.trans h2)
    omega

theorem State.writeSpan_lt {s : State} (h : 0 < s.len) (i : Nat) : s.writeSpan i < s.len := Nat.mod_lt _ h

theorem State.readSpan_lt {s : State} (h : 0 < s.len) (i : Nat) : s.readSpan i < s.len := Nat.mod_lt _ h

/-! One channel. -/

/-- After `k` samples of channel `ch`, started with the memories of `x`, whose block words of `ch` are those of `s`: the
local cursors; the recurrence over those samples; every other ring word and block word as it was. -/
theorem State.Trails.mixChannel_upTo {s : State} (h : s.Trails) {n ch : Nat} (hn : n ≤ s.len) (hn2 : n ≤ 65536)
    (x : MixPos) (hx : ∀ i, i < n → blkRead x.blk ch i = blkRead s.blk ch i) {k : Nat} (hk : k ≤ n) :
    let y := upTo (s.mixSample n ch) k { x with r := s.rdPos.toNat, w := s.wrPos.toNat }
    y.r = s.readSpan k ∧ y.w = s.writeSpan k ∧
      (∀ i, i < k →
        let d := if s.lag ≤ i then ringRead y.ring (s.delayChannel ch) (s.writeSpan (i - s.lag))
          else ringRead x.ring (s.delayChannel ch) (s.readSpan i)
        blkRead y.blk ch i = s.mixOut (mixDraw s.draws n ch i) (blkRead s.blk ch i) d ∧
          ringRead y.ring (s.delayChannel ch) (s.writeSpan i) =
            s.mixBack (mixDraw s.draws n ch i) (blkRead s.blk ch i) d) ∧
      (∀ ch' i, i < 65536 → ¬ (ch' = ch ∧ i < k) → blkRead y.blk ch' i = blkRead x.blk ch' i) ∧
      ∀ c j, j < 2 ^ 32 → (¬ ∃ i, i < k ∧ c = s.delayChannel ch ∧ j = s.writeSpan i) →
        ringRead y.ring c j = ringRead x.ring c j := by
  have hl : 0 < s.len := Nat.zero_lt_of_lt h.write_lt
  have hspan : ∀ i, s.writeSpan i < 2 ^ 32 := fun i => (s.writeSpan_lt hl i).trans s.len_lt
  have hread : ∀ i, s.readSpan i < 2 ^ 32 := fun i => (s.readSpan_lt hl i).trans s.len_lt
  have hpos := h.lag_pos
  induction k with
  | zero =>
    refine ⟨?_, ?_, fun i hi => absurd hi (Nat.not_lt_zero i), fun _ _ _ _ => rfl, fun _ _ _ _ => rfl⟩
    · simp [State.readSpan, Nat.mod_eq_of_lt h.read_lt]
    · simp [State.writeSpan, Nat.mod_eq_of_lt h.write_lt]
  | succ k ih =>
    obtain ⟨e1, e2, e3, e4, e5⟩ := ih (by omega)
    rw [upTo_succ]
    generalize upTo (s.mixSample n ch) k { x with r := s.rdPos.toNat, w := s.wrPos.toNat } = y at e1 e2 e3 e4 e5
    have hin : blkRead y.blk ch k = blkRead s.blk ch k := by
      rw [e4 ch k (by omega) (by omega), hx k (by omega)]
    have hkeep : ∀ i, i < k → ∀ v, ringRead (ringWrite y.ring (s.delayChannel ch) (s.writeSpan k) v) (s.delayChannel ch)
        (s.writeSpan i) = ringRead y.ring (s.delayChannel ch) (s.writeSpan i) := fun i hi v => by
      refine ringRead_ringWrite_ne _ _ fun he => ?_
      have := span_inj (show i < s.len by omega) (show k < s.len by omega) ((ringAddr_inj (hspan i) (hspan k)).1 he).2
      omega
    have hd : ringRead y.ring (s.delayChannel ch) y.r =
        if s.lag ≤ k then ringRead y.ring (s.delayChannel ch) (s.writeSpan (k - s.lag))
        else ringRead x.ring (s.delayChannel ch) (s.readSpan k) := by
      rw [e1]
      split_ifs with hlag
      · rw [h.late hlag]
      · exact e5 _ _ (hread k) fun ⟨i, hi, _, he⟩ => h.early (by omega) hi he
    have hy : s.mixSample n ch k y =
        { ring := ringWrite y.ring (s.delayChannel ch) (s.writeSpan k)
            (s.mixBack (mixDraw s.draws n ch k) (blkRead s.blk ch k) (ringRead y.ring (s.delayChannel ch) y.r))
          blk := blkWrite y.blk ch k
            (s.mixOut (mixDraw s.draws n ch k) (blkRead s.blk ch k) (ringRead y.ring (s.delayChannel ch) y.r))
          r := bump s.len y.r, w := bump s.len y.w } := by
      simp only [State.mixSample, hin, e2]
    rw [hd] at hy
    rw [hy]
    refine ⟨?_, ?_, fun i hi => ?_, fun ch' i hi hne => ?_, fun c j hj hne => ?_⟩
    · show bump s.len y.r = _
      rw [e1]
      exact bump_span hl
    · show bump s.len y.w = _
      rw [e2]
      exact bump_span hl
    · dsimp only
      rcases Nat.lt_succ_iff_lt_or_eq.1 hi with hi' | rfl
      · obtain ⟨f1, f2⟩ := e3 i hi'
        rw [hkeep i hi', hkeep (i - s.lag) (by omega), blkRead_blkWrite_ne _ _ fun he => ?_]
        · exact ⟨f1, f2⟩
        · have := ((blockAddr_inj (by omega) (by omega)).1 he).2
          omega
      · rw [blkRead_blkWrite_same, ringRead_ringWrite_same]
        split_ifs with hlag
        · rw [hkeep _ (by omega)]
          exact ⟨rfl, rfl⟩
        · exact ⟨rfl, rfl⟩
    · show blkRead (blkWrite y.blk ch k _) ch' i = _
      rw [blkRead_blkWrite_ne _ _ fun he => ?_, e4 ch' i hi (by omega)]
      have := (blockAddr_inj hi (by omega)).1 he
      omega
    · show ringRead (ringWrite y.ring (s.delayChannel ch) (s.writeSpan k) _) c j = _
      rw [ringRead_ringWrite_ne _ _ fun he => ?_, e5 c j hj fun ⟨i, hi, h'⟩ => hne ⟨i, by omega, h'⟩]
      obtain ⟨h1, h2⟩ := (ringAddr_inj hj (hspan k)).1 he
      exact hne ⟨k, Nat.lt_succ_self k, h1, h2⟩

/-! The channels in order. -/

/-- PROC's channels run one after another, each over the ring the one before it left: each meets the recurrence, and
changes no ring word but its own span (41_process R101, R103). -/
theorem State.Trails.mixChannels {s : State} (h : s.Trails) {n : Nat} (hn : n ≤ s.len) (hn2 : n ≤ 65536) (m : Nat) :
    (∀ ch, ch < m →
      s.ChannelRecurrence (s.mixChannels ch n).ring (s.mixChannels (ch + 1) n).ring (s.mixChannels m n).blk n ch ∧
        ∀ c j, j < 2 ^ 32 → (¬ ∃ i, i < n ∧ c = min ch (s.cfgNch.toNat - 1) ∧ j = s.writeSpan i) →
          ringRead (s.mixChannels (ch + 1) n).ring c j = ringRead (s.mixChannels ch n).ring c j) ∧
      ∀ ch i, i < 65536 → ¬ (ch < m ∧ i < n) → blkRead (s.mixChannels m n).blk ch i = blkRead s.blk ch i := by
  induction m with
  | zero => exact ⟨fun ch hch => absurd hch (Nat.not_lt_zero ch), fun _ _ _ _ => rfl⟩
  | succ m ih =>
    obtain ⟨i1, i2⟩ := ih
    obtain ⟨-, -, c3, c4, c5⟩ := h.mixChannel_upTo hn hn2 (ch := m) (s.mixChannels m n)
      (fun i hi => i2 m i (by omega) (by omega)) (le_refl n)
    refine ⟨fun ch hch => ?_, fun ch i hi hne => ?_⟩
    · rcases Nat.lt_succ_iff_lt_or_eq.1 hch with hlt | rfl
      · obtain ⟨r, f⟩ := i1 ch hlt
        refine ⟨fun k hk => ?_, f⟩
        obtain ⟨r1, r2⟩ := r k hk
        exact ⟨(c4 ch k (by omega) (by omega)).trans r1, r2⟩
      · exact ⟨c3, c5⟩
    · exact (c4 ch i hi (by omega)).trans (i2 ch i hi (by omega))

/-! PROC as a whole. -/

theorem State.delayChannel_own {s : State} {ch : Nat} (h : ch < s.cfgNch.toNat) : s.delayChannel ch = ch := by
  unfold State.delayChannel
  omega

theorem State.ProcReady.bounds {s : State} {nin n : Nat} (h : s.ProcReady nin n) :
    s.wrPos.toNat < s.len ∧ s.rdPos.toNat < s.len ∧ n ≤ s.len ∧ n < 65536 := by
  have g := h.1.geometry h.2.2.1
  have r := (State.ringReady_iff s).1 (h.1.ready h.2.2.1)
  have := h.1.conf
  have := h.2.2.2.2.2
  have := g.block_max
  exact ⟨r.2.2.1, r.2.2.2, by omega, by omega⟩

theorem State.BulkReady.bounds {s : State} {n : Nat} (h : s.BulkReady n) :
    s.wrPos.toNat < s.len ∧ s.rdPos.toNat < s.len ∧ n ≤ s.len ∧ n < 65536 := by
  have g := h.1.geometry h.2.2.1
  have r := (State.ringReady_iff s).1 (h.1.ready h.2.2.1)
  have := h.1.conf
  have := h.2.2.2.2
  have := g.block_max
  exact ⟨r.2.2.1, r.2.2.2, by omega, by omega⟩

/-- Every field of the state PROC leaves. -/
theorem State.processed_eq (s : State) (nout nin n : Nat) : s.processed nout nin n =
    { s with
      ring := (s.mixChannels nin n).ring, blk := clearChannels nin nout n (s.mixChannels nin n).blk
      wrPos := BitVec.ofNat 32 ((s.wrPos.toNat + n) % s.len), rdPos := BitVec.ofNat 32 ((s.rdPos.toNat + n) % s.len)
      draws := s.draws + 5 * (nin * n), answer := some ⟨.done, none⟩ } := by
  simp only [State.processed, State.putRing, State.putBlk, State.putCursors, State.drawn, State.finish]

theorem execProc_ready {s : State} {nout nin n : Nat} (wf : (Instr.proc nout nin n).WellFormed)
    (h : s.ProcReady nin n) : execProc nout nin n s = .next (s.processed nout nin n) := by
  simp only [Instr.WellFormed, Instr.fits, Bool.and_eq_true, decide_eq_true_eq] at wf
  have := h.bounds
  unfold execProc
  rw [h.check, State.transact_passed h.2.1, State.touching_ready (h.1.ready h.2.2.1) (by rw [blkReady_iff]; omega)]

end Sys2Proof.Machine
end

