-- ==== Sys2Proof/Laws/Bulk.lean ====
section
/-! SUPPORT. What the bulk copies and ADV do (42_bulk R110 to R116): the state each answers, the ramp, the words each
writes. -/

namespace Sys2Proof.Machine

/-! The ramp. -/

/-- One step of the ramp, with the free values counted from `draws`. -/
theorem State.gain_succ (s : State) (n k : Nat) : s.gain n (k + 1) = fadd s.numerics (s.draws + 5 + 4 * k) (s.gain n k)
    (fdiv s.numerics (s.draws + 1) (fsub s.numerics s.draws s.gainEnd.bits s.gainStart.bits) (u2f s.numerics n)) := by
  rw [show s.draws + 5 + 4 * k = bulkDraw s.draws k + 3 by unfold bulkDraw; omega]
  rfl

theorem State.gain_ramp (s : State) (n : Nat) : s.Ramp n (s.gain n) := ⟨rfl, s.gain_succ n⟩

/-- The ramp of a state is one sequence. -/
theorem State.Ramp.eq_gain {s : State} {n : Nat} {g : Nat → F32} (h : s.Ramp n g) (k : Nat) : g k = s.gain n k := by
  induction k with
  | zero => exact h.1
  | succ k ih => rw [h.2 k, ih, s.gain_succ]

/-! What each command answers. -/

/-- What a bulk copy of `n` elements needs of the state, in fields that no bulk copy changes. -/
structure State.BulkFit (s : State) (n : Nat) : Prop where
  err : s.err = none
  prepared : s.prepared = true
  gains : s.GainSet
  le_block : n ≤ s.cfgBlock.toNat
  ready : s.ringReady = true
  lt_slot : n < 65536

theorem State.BulkReady.fit {s : State} {n : Nat} (h : s.BulkReady n) : s.BulkFit n :=
  ⟨h.2.1, h.2.2.1, h.2.2.2.1, h.2.2.2.2, h.1.ready h.2.2.1, h.bounds.2.2.2⟩

theorem State.BulkFit.bounds {s : State} {n : Nat} (h : s.BulkFit n) :
    s.wrPos.toNat < s.len ∧ s.rdPos.toNat < s.len ∧ n ≤ s.len := by
  have := (State.ringReady_iff s).1 h.ready
  exact ⟨this.2.2.1, this.2.2.2, h.le_block.trans this.2.1⟩

theorem State.BulkFit.passed {s : State} {ch n : Nat} (h : s.BulkFit n) (hc : ch < 16) (w : State) :
    s.transact (s.bulkCheck n) (s.touching (ch + 1) n w) = .next w := by
  have hcheck : s.bulkCheck n = none := by
    have := h.le_block
    simp only [State.bulkCheck, h.prepared, h.gains.1, h.gains.2, Bool.and_self, Bool.not_true, Bool.false_eq_true,
      if_false]
    rw [if_neg (by omega)]
  have := h.lt_slot
  rw [hcheck, State.transact_passed h.err, State.touching_ready h.ready (by rw [blkReady_iff]; omega)]

theorem execAdv_ready {s : State} {n : Nat} (he : s.err = none) (hp : s.prepared = true) (hl : 0 < s.len) :
    execAdv n s =
      .next ((s.putCursors ((s.wrPos.toNat + n) % s.len) ((s.rdPos.toNat + n) % s.len)).finish none) := by
  have hc : s.advCheck = none := by simp [State.advCheck, hp]
  unfold execAdv
  rw [hc, State.transact_passed he, retuning_ready hl (Nat.zero_le _)]

/-! The words each writes. -/

theorem State.writeIndex_eq {s : State} {n k : Nat} (hw : s.wrPos.toNat < s.len) (hn : n ≤ s.len) (hk : k < n) :
    s.writeIndex n k = s.writeSpan k := spanIndex_eq hn hw hk

theorem State.readIndex_eq {s : State} {n k : Nat} (hr : s.rdPos.toNat < s.len) (hn : n ≤ s.len) (hk : k < n) :
    s.readIndex n k = s.readSpan k := spanIndex_eq hn hr hk

/-- Writing the span at the write cursor, word by word. -/
theorem State.upTo_writeSpan {s : State} {n c : Nat} (hw : s.wrPos.toNat < s.len) (hn : n ≤ s.len) {m : Memory}
    {val : Nat → F32 → F32} :
    (∀ k, k < n → ringRead (upTo (fun k x => ringWrite x c (s.writeIndex n k) (val k (ringRead x c (s.writeIndex n k))))
        n m) c (s.writeSpan k) = val k (ringRead m c (s.writeSpan k))) ∧
      ∀ c' j, j < 2 ^ 32 → (¬ ∃ k, k < n ∧ c' = c ∧ j = s.writeSpan k) →
        ringRead (upTo (fun k x => ringWrite x c (s.writeIndex n k) (val k (ringRead x c (s.writeIndex n k)))) n m) c' j =
          ringRead m c' j := by
  have e : ∀ k, k < n → s.writeIndex n k = s.writeSpan k := fun k hk => s.writeIndex_eq hw hn hk
  have hl : 0 < s.len := Nat.zero_lt_of_lt hw
  obtain ⟨h1, h2⟩ := upTo_ringWrite (m := m) (c := c) (n := n) (pos := s.writeIndex n) (val := val)
    (fun k hk => by rw [e k hk]; exact (s.writeSpan_lt hl k).trans s.len_lt)
    (fun i k hi hk h => by
      rw [e i hi, e k hk] at h
      exact span_inj (by omega) (by omega) h)
  refine ⟨fun k hk => ?_, fun c' j hj h => h2 c' j hj fun ⟨k, hk, hc, he⟩ => h ⟨k, hk, hc, by rw [he, e k hk]⟩⟩
  rw [← e k hk]
  exact h1 k hk

/-- All that BWR does where its checks pass: its frame, the words it writes, the words it leaves. -/
theorem State.BulkFit.bwr {s : State} {ch n : Nat} (h : s.BulkFit n) (hc : ch < 16) (src : Source) :
    ∃ t, execBwr ch src n s = .next t ∧
      t = { s with ring := t.ring, draws := t.draws, answer := some ⟨.done, none⟩ } ∧
      (∀ k, k < n → ringRead t.ring (s.delayChannel ch) (s.writeSpan k) = s.scaledSource ch src n k) ∧
      ∀ c j, j < 2 ^ 32 → (¬ ∃ k, k < n ∧ c = s.delayChannel ch ∧ j = s.writeSpan k) →
        ringRead t.ring c j = ringRead s.ring c j := by
  obtain ⟨hw, -, hn⟩ := h.bounds
  refine ⟨_, h.passed hc _, by simp only [State.putRing, State.drawn, State.finish], ?_⟩
  exact s.upTo_writeSpan (val := fun k _ => s.scaledSource ch src n k) hw hn

/-- All that BADD does where its checks pass. -/
theorem State.BulkFit.badd {s : State} {ch n : Nat} (h : s.BulkFit n) (hc : ch < 16) (src : Source) :
    ∃ t, execBadd ch src n s = .next t ∧
      t = { s with ring := t.ring, draws := t.draws, answer := some ⟨.done, none⟩ } ∧
      (∀ k, k < n → ringRead t.ring (s.delayChannel ch) (s.writeSpan k) =
        fadd s.numerics (bulkDraw s.draws k + 2) (ringRead s.ring (s.delayChannel ch) (s.writeSpan k))
          (s.scaledSource ch src n k)) ∧
      ∀ c j, j < 2 ^ 32 → (¬ ∃ k, k < n ∧ c = s.delayChannel ch ∧ j = s.writeSpan k) →
        ringRead t.ring c j = ringRead s.ring c j := by
  obtain ⟨hw, -, hn⟩ := h.bounds
  refine ⟨_, h.passed hc _, by simp only [State.putRing, State.drawn, State.finish], ?_⟩
  exact s.upTo_writeSpan
    (val := fun k w => fadd s.numerics (bulkDraw s.draws k + 2) w (s.scaledSource ch src n k)) hw hn

/-- All that BRD does where its checks pass. -/
theorem State.BulkFit.brd {s : State} {ch n : Nat} (h : s.BulkFit n) (hc : ch < 16) :
    ∃ t, execBrd ch n s = .next t ∧
      t = { s with wet := t.wet, draws := t.draws, answer := some ⟨.done, none⟩ } ∧
      (∀ k, k < n → wetRead t.wet (s.delayChannel ch) k =
        some (fmul s.numerics (bulkDraw s.draws k + 1) (s.gain n k)
          (ringRead s.ring (s.delayChannel ch) (s.readSpan k)))) ∧
      ∀ c k, k < 65536 → ¬ (c = s.delayChannel ch ∧ k < n) → wetRead t.wet c k = wetRead s.wet c k := by
  obtain ⟨-, hr, hn⟩ := h.bounds
  obtain ⟨h1, h2⟩ := upTo_wetWrite (m := s.wet) (c := s.delayChannel ch)
    (val := fun k =>
      fmul s.numerics (bulkDraw s.draws k + 1) (s.gain n k) (ringRead s.ring (s.delayChannel ch) (s.readIndex n k)))
    (Nat.le_of_lt h.lt_slot)
  refine ⟨_, h.passed hc _, by simp only [State.putWet, State.drawn, State.finish], fun k hk => ?_, h2⟩
  rw [← s.readIndex_eq hr hn hk]
  exact h1 k hk

end Sys2Proof.Machine
end

