-- ==== Sys2Proof/Laws/Decode.lean ====
section
/-! SUPPORT. Masks as fields: the bridge between the opcode table's match and mask and the fields decoding reads
(30_encoding R71, R74). -/

namespace Sys2Proof

/-- Masking a number with a run of ones keeps the field under it. -/
theorem and_ones (x k l : Nat) : x &&& ((2 ^ k - 1) <<< l) = x / 2 ^ l % 2 ^ k * 2 ^ l := by
  apply Nat.eq_of_testBit_eq
  intro i
  rw [← Nat.shiftLeft_eq (x / 2 ^ l % 2 ^ k)]
  simp only [Nat.testBit_and, Nat.testBit_shiftLeft, Nat.testBit_mod_two_pow, Nat.testBit_div_two_pow,
    Nat.testBit_two_pow_sub_one]
  by_cases h : l ≤ i
  · simp only [h, decide_true, Bool.true_and, Nat.sub_add_cancel]
    exact Bool.and_comm _ _
  · simp [h]

/-- A word under a mask of one field. -/
theorem and_mask1 {w mask : Word} {k l : Nat} (h : mask.toNat = (2 ^ k - 1) <<< l) :
    (w &&& mask).toNat = w.toNat / 2 ^ l % 2 ^ k * 2 ^ l := by
  rw [BitVec.toNat_and, h, and_ones]

/-- A word under a mask of two fields, the first above the second. -/
theorem and_mask2 {w mask : Word} {k l k' l' : Nat}
    (h : mask.toNat = ((2 ^ k - 1) <<< l) ||| ((2 ^ k' - 1) <<< l')) (hl : k' + l' ≤ l) :
    (w &&& mask).toNat = w.toNat / 2 ^ l % 2 ^ k * 2 ^ l + w.toNat / 2 ^ l' % 2 ^ k' * 2 ^ l' := by
  rw [BitVec.toNat_and, h, Nat.and_or_distrib_left, and_ones, and_ones, ← Nat.shiftLeft_eq, ← Nat.shiftLeft_eq]
  refine (Nat.shiftLeft_add_eq_or_of_lt ?_ _).symm
  rw [Nat.shiftLeft_eq]
  calc w.toNat / 2 ^ l' % 2 ^ k' * 2 ^ l' < 2 ^ k' * 2 ^ l' :=
        Nat.mul_lt_mul_of_pos_right (Nat.mod_lt _ (by positivity)) (by positivity)
    _ = 2 ^ (k' + l') := (Nat.pow_add 2 k' l').symm
    _ ≤ 2 ^ l := Nat.pow_le_pow_right (by omega) hl

/-- A bit field of a word is below the power of its width. -/
theorem field_lt (w hi lo : Nat) : field w hi lo < 2 ^ (hi + 1 - lo) := Nat.mod_lt _ (by positivity)

end Sys2Proof
end

