-- ==== Sys2Proof/Laws/Outcome.lean ====
section
/-! SUPPORT. What each outcome of the engine's step says of the host's step, and what a good run is made of
(60_exceptions R146). -/

namespace Sys2Proof.Machine

theorem State.raised_eq_some {s t : State} {code : ErrCode} :
    s.raised t = some code ↔ s.err = none ∧ t.err = some code := by
  unfold State.raised
  split_ifs with h <;> simp [h]

theorem State.raised_eq_none {s t : State} : s.raised t = none ↔ (s.err = none → t.err = none) := by
  unfold State.raised
  split_ifs with h <;> simp [h]

/-- The outcome as the host has it. -/
theorem engineOutcome_host (s : State) (r : StepResult) : (engineOutcome s r).host = r := by
  rcases r with u | r | r
  · unfold engineOutcome
    dsimp only
    split <;> rfl
  · rfl
  · rfl

/-- The host's step is the engine's, with the state a fault leaves as the next state. -/
theorem engineStep_host (s : State) : (engineStep s).host = step s := engineOutcome_host s (step s)

/-- A fault: ERR was 0, and the next state holds its code. -/
theorem engineStep_fault {s t : State} {code : ErrCode} :
    engineStep s = .fault code t ↔ step s = .next t ∧ s.err = none ∧ t.err = some code := by
  constructor
  · intro h
    have hs : step s = .next t := by rw [← engineStep_host, h]; rfl
    refine ⟨hs, State.raised_eq_some.1 ?_⟩
    rw [engineStep, hs, engineOutcome] at h
    split at h <;> simp_all
  · rintro ⟨hs, h⟩
    simp only [engineStep, hs, engineOutcome, State.raised_eq_some.2 h]

/-- An ordinary next state: no fault was raised on the way. -/
theorem engineStep_ordinary {s t : State} :
    engineStep s = .ordinary t ↔ step s = .next t ∧ (s.err = none → t.err = none) := by
  constructor
  · intro h
    have hs : step s = .next t := by rw [← engineStep_host, h]; rfl
    refine ⟨hs, State.raised_eq_none.1 ?_⟩
    rw [engineStep, hs, engineOutcome] at h
    split at h <;> simp_all
  · rintro ⟨hs, h⟩
    simp only [engineStep, hs, engineOutcome, State.raised_eq_none.2 h]

theorem goodRun_zero {s t : State} : goodRun 0 s = some t ↔ s.EndedWell ∧ t = s := by
  rw [goodRun]
  split_ifs with h
  · exact ⟨fun e => ⟨h, (Option.some.inj e).symm⟩, fun e => by rw [e.2]⟩
  · exact ⟨(fun e => nomatch e), fun e => absurd e.1 h⟩

theorem goodRun_succ {k : Nat} {s t : State} :
    goodRun (k + 1) s = some t ↔ s.err = none ∧ ∃ u, engineStep s = .ordinary u ∧ goodRun k u = some t := by
  rw [goodRun]
  split_ifs with h
  · cases engineStep s <;> simp [h]
  · simp [h]

end Sys2Proof.Machine
end

