-- ==== Sys2Proof/Laws/PerInstr.lean ====
section
/-! SUPPORT. A statement about every operation as syntax, one lemma per constructor: what the encoder writes matches
the operation's row of the opcode table (30_encoding R74). -/

namespace Sys2Proof.Laws.TableRow

open Sys2Proof.Machine

/-- The transaction is a host write of CMD whose word matches row `k` of the eight command rows. -/
def Command (k : Nat) (t : Transaction) : Prop :=
  ∃ w row, t = .hostWrite 0 w ∧ commandRows[k]? = some row ∧ Matches w row

/-- The transaction is a write of `v` to the REG address `a` on `port`. -/
def Setter (a : Nat) (port : Port) (v : Word) (t : Transaction) : Prop :=
  match port with
  | .host => t = .hostWrite (BitVec.ofNat 24 a) v
  | .control => t = .controlWrite (BitVec.ofNat 20 a) v

/-- What the encoder writes for a well-formed operation matches its row. -/
def Statement (i : Instr) : Prop :=
  i.WellFormed →
    match i with
    | .nop => Command 0 (encode i)
    | .rst => Command 1 (encode i)
    | .prep => Command 2 (encode i)
    | .proc _ _ _ => Command 3 (encode i)
    | .bwr _ _ _ => Command 4 (encode i)
    | .brd _ _ => Command 5 (encode i)
    | .badd _ _ _ => Command 6 (encode i)
    | .adv _ => Command 7 (encode i)
    | .setdt port v => Setter 0x10 port v (encode i)
    | .setdry port v => Setter 0x11 port v (encode i)
    | .setwet port v => Setter 0x12 port v (encode i)
    | .setfb port v => Setter 0x13 port v (encode i)

theorem sourceBit_lt (src : Source) : sourceBit src < 2 := by cases src <;> decide

/-- A word of format P, B or A matches its row when the fields under its mask have the row's values. -/
theorem matches_of_toNat {w : Word} {row : Word × Word} (m : Nat) (hm : row.1.toNat = m)
    (h : (w &&& row.2).toNat = m) : Matches w row :=
  BitVec.eq_of_toNat_eq (h.trans hm.symm)

theorem nop : Statement .nop := fun _ => ⟨_, _, rfl, rfl, by decide⟩

theorem rst : Statement .rst := fun _ => ⟨_, _, rfl, rfl, by decide⟩

theorem prep : Statement .prep := fun _ => ⟨_, _, rfl, rfl, by decide⟩

theorem proc (nout nin n : Nat) : Statement (.proc nout nin n) := fun h => by
  simp only [Instr.WellFormed, Instr.fits, Bool.and_eq_true, decide_eq_true_eq] at h
  refine ⟨BitVec.ofNat 32 (0x30000000 + nout * 2 ^ 24 + nin * 2 ^ 20 + n), (0x30000000, 0xF00F0000),
    rfl, rfl, matches_of_toNat 0x30000000 (by decide) ?_⟩
  rw [and_mask2 (k := 4) (l := 28) (k' := 4) (l' := 16) (by decide) (by decide)]
  simp only [BitVec.toNat_ofNat]
  omega

theorem bwr (ch : Nat) (src : Source) (n : Nat) : Statement (.bwr ch src n) := fun h => by
  have hs := sourceBit_lt src
  simp only [Instr.WellFormed, Instr.fits, Bool.and_eq_true, decide_eq_true_eq] at h
  refine ⟨BitVec.ofNat 32 (0x40000000 + ch * 2 ^ 24 + sourceBit src * 2 ^ 23 + n), (0x40000000, 0xF07F0000),
    rfl, rfl, matches_of_toNat 0x40000000 (by decide) ?_⟩
  rw [and_mask2 (k := 4) (l := 28) (k' := 7) (l' := 16) (by decide) (by decide)]
  simp only [BitVec.toNat_ofNat]
  omega

theorem brd (ch n : Nat) : Statement (.brd ch n) := fun h => by
  simp only [Instr.WellFormed, Instr.fits, Bool.and_eq_true, decide_eq_true_eq] at h
  refine ⟨BitVec.ofNat 32 (0x50000000 + ch * 2 ^ 24 + n), (0x50000000, 0xF0FF0000),
    rfl, rfl, matches_of_toNat 0x50000000 (by decide) ?_⟩
  rw [and_mask2 (k := 4) (l := 28) (k' := 8) (l' := 16) (by decide) (by decide)]
  simp only [BitVec.toNat_ofNat]
  omega

theorem badd (ch : Nat) (src : Source) (n : Nat) : Statement (.badd ch src n) := fun h => by
  have hs := sourceBit_lt src
  simp only [Instr.WellFormed, Instr.fits, Bool.and_eq_true, decide_eq_true_eq] at h
  refine ⟨BitVec.ofNat 32 (0x60000000 + ch * 2 ^ 24 + sourceBit src * 2 ^ 23 + n), (0x60000000, 0xF07F0000),
    rfl, rfl, matches_of_toNat 0x60000000 (by decide) ?_⟩
  rw [and_mask2 (k := 4) (l := 28) (k' := 7) (l' := 16) (by decide) (by decide)]
  simp only [BitVec.toNat_ofNat]
  omega

theorem adv (n : Nat) : Statement (.adv n) := fun h => by
  simp only [Instr.WellFormed, Instr.fits, decide_eq_true_eq] at h
  refine ⟨BitVec.ofNat 32 (0x70000000 + n), (0x70000000, 0xFFFF0000),
    rfl, rfl, matches_of_toNat 0x70000000 (by decide) ?_⟩
  rw [and_mask1 (k := 16) (l := 16) (by decide)]
  simp only [BitVec.toNat_ofNat]
  omega

theorem setdt (port : Port) (v : F32) : Statement (.setdt port v) := fun _ => by cases port <;> exact rfl

theorem setdry (port : Port) (v : F32) : Statement (.setdry port v) := fun _ => by cases port <;> exact rfl

theorem setwet (port : Port) (v : F32) : Statement (.setwet port v) := fun _ => by cases port <;> exact rfl

theorem setfb (port : Port) (v : F32) : Statement (.setfb port v) := fun _ => by cases port <;> exact rfl

end Sys2Proof.Laws.TableRow
end

