-- ==== Sys2Proof/Laws/Rounding.lean ====
section
/-! SUPPORT. What rounding and packing do (00_scope R10, R13): the fields of a packed word, exact magnitudes, and
when an operation gives a NaN. -/

namespace Sys2Proof.Machine

/-! Packing. -/

theorem f32Pack_toNat {neg : Bool} {m : Nat} (h : m < 2 ^ 31) :
    (f32Pack neg m).toNat = (if neg then 2 ^ 31 else 0) + m := by
  unfold f32Pack
  rw [BitVec.toNat_ofNat, Nat.mod_eq_of_lt]
  split_ifs <;> omega

theorem f32Negative_pack {neg : Bool} {m : Nat} (h : m < 2 ^ 31) : f32Negative (f32Pack neg m) = neg := by
  unfold f32Negative
  rw [f32Pack_toNat h]
  cases neg
  · exact decide_eq_false (by simp; omega)
  · exact decide_eq_true (by simp)

theorem f32Exponent_pack {neg : Bool} {m : Nat} (h : m < 2 ^ 31) : f32Exponent (f32Pack neg m) = m / 2 ^ 23 := by
  unfold f32Exponent
  rw [f32Pack_toNat h]
  cases neg <;> simp <;> omega

theorem f32Fraction_pack {neg : Bool} {m : Nat} (h : m < 2 ^ 31) : f32Fraction (f32Pack neg m) = m % 2 ^ 23 := by
  unfold f32Fraction
  rw [f32Pack_toNat h]
  cases neg <;> simp ; omega

/-- A word is its sign and its magnitude. -/
theorem f32Pack_word (w : F32) : f32Pack (f32Negative w) (w.toNat % 2 ^ 31) = w := by
  have hw := w.isLt
  apply BitVec.eq_of_toNat_eq
  rw [f32Pack_toNat (Nat.mod_lt _ (by norm_num))]
  unfold f32Negative
  by_cases h : 2 ^ 31 ≤ w.toNat <;> simp only [h, decide_true, decide_false, if_true, Bool.false_eq_true, if_false] <;>
    omega

/-- A word is finite exactly when its magnitude is below that of infinity. -/
theorem f32Finite_iff (w : F32) : f32Finite w = true ↔ w.toNat % 2 ^ 31 < 0x7F800000 := by
  have hw := w.isLt
  unfold f32Finite f32Exponent
  simp only [bne_iff_ne, ne_eq]
  omega

theorem f32Units_pack {neg : Bool} {m : Nat} (h : m < 2 ^ 31) : f32Units (f32Pack neg m) =
    if m / 2 ^ 23 = 0 then m % 2 ^ 23 else (2 ^ 23 + m % 2 ^ 23) * 2 ^ (m / 2 ^ 23 - 1) := by
  unfold f32Units
  rw [f32Exponent_pack h, f32Fraction_pack h]

/-- The units of a word are those of its magnitude. -/
theorem f32Units_magnitude (w : F32) (neg : Bool) : f32Units (f32Pack neg (w.toNat % 2 ^ 31)) = f32Units w := by
  rw [f32Units_pack (Nat.mod_lt _ (by norm_num))]
  conv_rhs => rw [← f32Pack_word w, f32Units_pack (Nat.mod_lt _ (by norm_num))]

/-! Exact magnitudes. -/

theorem roundHalfEven_exact {q den : Nat} (h : 0 < den) : roundHalfEven (q * den) den = q := by
  unfold roundHalfEven
  rw [Nat.mul_div_cancel _ h, Nat.mul_mod_left]
  simp [h]

/-- The magnitude of a finite number rounds to itself. -/
theorem roundMagnitude_exact {m den : Nat} (hm : m < 0x7F800000) (hd : 0 < den) :
    roundMagnitude (f32Units (f32Pack false m) * den) den = m := by
  rw [f32Units_pack (by omega)]
  unfold roundMagnitude
  rw [Nat.mul_div_cancel _ hd]
  split_ifs with he
  · have hs : Nat.log2 (m % 2 ^ 23) - 23 = 0 := by
      rcases Nat.eq_zero_or_pos (m % 2 ^ 23) with h0 | h0
      · rw [h0]; rfl
      · have := (Nat.log2_lt (by omega)).2 (Nat.mod_lt m (show 2 ^ 23 > 0 by norm_num))
        omega
    simp only [hs, pow_zero, Nat.mul_one, Nat.zero_mul, Nat.zero_add]
    rw [roundHalfEven_exact hd]
    omega
  · have hpos : 0 < (2 ^ 23 + m % 2 ^ 23) * 2 ^ (m / 2 ^ 23 - 1) := by positivity
    have hs : Nat.log2 ((2 ^ 23 + m % 2 ^ 23) * 2 ^ (m / 2 ^ 23 - 1)) = 23 + (m / 2 ^ 23 - 1) := by
      refine (Nat.log2_eq_iff (by omega)).2 ⟨?_, ?_⟩
      · rw [Nat.pow_add]
        exact Nat.mul_le_mul_right _ (by omega)
      · rw [show 23 + (m / 2 ^ 23 - 1) + 1 = 24 + (m / 2 ^ 23 - 1) by omega, Nat.pow_add]
        exact Nat.mul_lt_mul_of_pos_right (by omega) (by positivity)
    simp only [hs, Nat.add_sub_cancel_left]
    rw [show (2 ^ 23 + m % 2 ^ 23) * 2 ^ (m / 2 ^ 23 - 1) * den = (2 ^ 23 + m % 2 ^ 23) * (den * 2 ^ (m / 2 ^ 23 - 1)) by ring,
      roundHalfEven_exact (by positivity)]
    omega

/-- The magnitude of zero. -/
theorem roundMagnitude_zero (den : Nat) : roundMagnitude 0 den = 0 := by
  unfold roundMagnitude roundHalfEven
  simp [Nat.log2_zero]

/-- A finite word from its units and its sign. -/
theorem f32Pack_roundMagnitude {w : F32} (hw : f32Finite w = true) {den : Nat} (hd : 0 < den) :
    f32Pack (f32Negative w) (roundMagnitude (f32Units w * den) den) = w := by
  rw [← f32Units_magnitude w false, roundMagnitude_exact ((f32Finite_iff w).1 hw) hd]
  exact f32Pack_word w

/-! NaNs. -/

theorem f32Finite_not_nan {w : F32} (h : f32Finite w = true) : f32IsNaN w = false := by
  unfold f32Finite at h
  unfold f32IsNaN
  simp only [bne_iff_ne, ne_eq] at h
  simp [h]

theorem f32Finite_not_inf {w : F32} (h : f32Finite w = true) : f32IsInf w = false := by
  unfold f32Finite at h
  unfold f32IsInf
  simp only [bne_iff_ne, ne_eq] at h
  simp [h]

/-- A sum of finite numbers is no NaN, so it uses no free value. -/
theorem binary32Add_finite {a b : F32} (ha : f32Finite a = true) (hb : f32Finite b = true) :
    binary32Add a b = some (f32Pack
      (if f32Scaled a + f32Scaled b = 0 then f32Negative a && f32Negative b else decide (f32Scaled a + f32Scaled b < 0))
      (roundMagnitude (f32Scaled a + f32Scaled b).natAbs 1)) := by
  unfold binary32Add
  simp [f32Finite_not_nan ha, f32Finite_not_nan hb, f32Finite_not_inf ha, f32Finite_not_inf hb]

/-- A product of finite numbers is no NaN. -/
theorem binary32Mul_finite {a b : F32} (ha : f32Finite a = true) (hb : f32Finite b = true) :
    binary32Mul a b = some (f32Pack (f32Negative a != f32Negative b)
      (roundMagnitude (f32Units a * f32Units b) (2 ^ 149))) := by
  unfold binary32Mul
  simp [f32Finite_not_nan ha, f32Finite_not_nan hb, f32Finite_not_inf ha, f32Finite_not_inf hb]

/-- A quotient of a finite number by a finite number that is not zero is no NaN. -/
theorem binary32Div_finite {a b : F32} (ha : f32Finite a = true) (hb : f32Finite b = true) (h0 : f32Units b ≠ 0) :
    binary32Div a b = some (f32Pack (f32Negative a != f32Negative b)
      (roundMagnitude (f32Units a * 2 ^ 149) (f32Units b))) := by
  unfold binary32Div
  simp [f32Finite_not_nan ha, f32Finite_not_nan hb, f32Finite_not_inf ha, f32Finite_not_inf hb, h0]

end Sys2Proof.Machine
end

