-- ==== Sys2Proof/Tests/Slice0.lean ====
section
/-! SUPPORT. Tests with expected values from spec/95_test_vectors.md, and a witness for every statement that has
hypotheses. -/

namespace Sys2Proof.Tests

open Sys2Proof.Machine

set_option Elab.async false

/-! Ill-formed terms: one for each check of `Instr.fits`. -/

theorem test_illformed_proc_nout : ¬ (Instr.proc 16 1 1).WellFormed := by decide
theorem test_illformed_proc_nin : ¬ (Instr.proc 1 16 1).WellFormed := by decide
theorem test_illformed_proc_n : ¬ (Instr.proc 1 1 65536).WellFormed := by decide
theorem test_illformed_bwr_ch : ¬ (Instr.bwr 16 .blk 1).WellFormed := by decide
theorem test_illformed_bwr_n : ¬ (Instr.bwr 0 .wet 65536).WellFormed := by decide
theorem test_illformed_brd_ch : ¬ (Instr.brd 16 1).WellFormed := by decide
theorem test_illformed_brd_n : ¬ (Instr.brd 0 65536).WellFormed := by decide
theorem test_illformed_badd_ch : ¬ (Instr.badd 16 .blk 1).WellFormed := by decide
theorem test_illformed_badd_n : ¬ (Instr.badd 0 .wet 65536).WellFormed := by decide
theorem test_illformed_adv_n : ¬ (Instr.adv 65536).WellFormed := by decide

/-! Decoding: words written out from the fields of 30_encoding R71, and the table of 95_test_vectors 2.1. -/

theorem test_decode_nop : decodeCommand 0b0000_0000_0000_0000_0000_0000_0000_0000 = .ok .nop := by rfl
theorem test_decode_rst : decodeCommand 0b0001_0000_0000_0000_0000_0000_0000_0000 = .ok .rst := by rfl
theorem test_decode_prep : decodeCommand 0b0010_0000_0000_0000_0000_0000_0000_0000 = .ok .prep := by rfl
theorem test_decode_proc : decodeCommand 0b0011_0011_0010_0000_0000_0000_0000_0010 = .ok (.proc 3 2 2) := by rfl
theorem test_decode_bwr : decodeCommand 0b0100_1111_1000_0000_1111_1111_1111_1111 = .ok (.bwr 15 .wet 65535) := by rfl
theorem test_decode_brd : decodeCommand 0b0101_0001_0000_0000_0000_0010_0000_0000 = .ok (.brd 1 512) := by rfl
theorem test_decode_badd : decodeCommand 0b0110_0001_0000_0000_0000_0000_0000_0100 = .ok (.badd 1 .blk 4) := by rfl
theorem test_decode_adv : decodeCommand 0b0111_0000_0000_0000_1111_1111_1111_1111 = .ok (.adv 65535) := by rfl
theorem test_decode_setdt : decodeTransaction (.controlWrite 0x00010 0x3F000000) = .run (.setdt .control 0x3F000000) := by
  rfl
theorem test_decode_setdry : decodeTransaction (.hostWrite 0x000011 0x3F800000) = .run (.setdry .host 0x3F800000) := by
  rfl
theorem test_decode_setwet : decodeTransaction (.hostWrite 0x000012 0x3F000000) = .run (.setwet .host 0x3F000000) := by
  rfl
theorem test_decode_setfb : decodeTransaction (.controlWrite 0x00013 0x3F400000) = .run (.setfb .control 0x3F400000) := by
  rfl

theorem test_illegal_zero_fields :
    decodeTransaction (.hostWrite 0 0x00000001) = .illegal .zeroField ∧
      decodeTransaction (.hostWrite 0 0x10000001) = .illegal .zeroField ∧
      decodeTransaction (.hostWrite 0 0x2FFFFFFF) = .illegal .zeroField ∧
      decodeTransaction (.hostWrite 0 0x31110001) = .illegal .zeroField ∧
      decodeTransaction (.hostWrite 0 0x40010004) = .illegal .zeroField ∧
      decodeTransaction (.hostWrite 0 0x40400004) = .illegal .zeroField ∧
      decodeTransaction (.hostWrite 0 0x70010000) = .illegal .zeroField ∧
      decodeTransaction (.hostWrite 0 0x71000004) = .illegal .zeroField :=
  ⟨rfl, rfl, rfl, rfl, rfl, rfl, rfl, rfl⟩
theorem test_illegal_brd_source : decodeTransaction (.hostWrite 0 0x50800004) = .illegal .brdSource := by rfl
theorem test_illegal_opcodes :
    decodeTransaction (.hostWrite 0 0x80000000) = .illegal .reservedOpcode ∧
      decodeTransaction (.hostWrite 0 0x90000004) = .illegal .reservedOpcode ∧
      decodeTransaction (.hostWrite 0 0xFFFFFFFF) = .illegal .reservedOpcode :=
  ⟨rfl, rfl, rfl⟩

/-- The bits of a format W row are its address (entry 12). -/
theorem test_table_rows :
    decodeTableWord 32 0x31100004 = some (.proc 1 1 4) ∧ decodeTableWord 24 0x13 = some (.setfb .host 0) ∧
      decodeTableWord 20 0x10 = some (.setdt .host 0) ∧ decodeTableWord 32 0x80000000 = none := by decide

/-! States. -/

/-- The state a step answers. -/
def after : StepResult → Option State
  | .next t => some t
  | _ => none

theorem next_with {r : StepResult} (p : State → Bool) (h : (after r).any p = true) :
    ∃ t, r = .next t ∧ p t = true := by
  cases r with
  | next t => exact ⟨t, rfl, h⟩
  | fault _ => cases h
  | refused _ => cases h

/-- What a read answered. -/
def answered (r : StepResult) : Option Answer := (after r).bind State.answer

/-- A prepared state with every register set: sample rate `{srHi, 0}`, `block` samples, `nch` channels, delay time
`dt`, and the `len`, `d`, cursors the spec gives for them. -/
def prepped (srHi block nch dt : Word) (len d wr rd : Nat) : State :=
  { State.reset with
    prepared := true, srLo := .written 0, srHi := .written srHi, blockSize := .written block, numCh := .written nch
    gainStart := .written 0x3F800000, gainEnd := .written 0x3F800000
    bufLen := BitVec.ofNat 32 len, wrPos := BitVec.ofNat 32 wr, rdPos := BitVec.ofNat 32 rd
    delaySamples := BitVec.ofNat 32 d, cfgBlock := block, cfgNch := nch, cfgSrLo := 0, cfgSrHi := srHi
    delayTime := .written dt, dryMix := .written 0x3F000000, wetMix := .written 0x3F000000
    feedback := .written 0x3F400000 }

/-- CFG-A with the cursors at `wr`, `rd`. -/
def cfgA (wr rd : Nat) : State := prepped 0x40100000 4 1 0x3F000000 8 2 wr rd

/-- CFG-D. -/
def cfgD : State := prepped 0x40100000 4 1 0x3F800000 8 4 0 4

/-- CFG-E, two channels. -/
def cfgE : State := prepped 0x40000000 2 2 0x3F000000 4 1 0 3

/-- Operands set for PREP, not prepared. -/
def operandsSet (srHi block nch dt : Word) : State :=
  { State.reset with
    srLo := .written 0, srHi := .written srHi, blockSize := .written block, numCh := .written nch
    delayTime := .written dt }

/-- The host's block: 1, 0, 0, 0 on channel 0. -/
def impulse : Memory := [(0, 0x3F800000)]

/-! One step of each operation. -/

theorem test_nop : answered (exec .nop State.reset) = some ⟨.done, none⟩ := by decide

/-- 2.6: RST while prepared and faulted. -/
theorem test_rst :
    (after (exec .rst { cfgA 0 6 with err := some .badOperand, blk := impulse })).map
      (fun t => (t.statusWord, t.bufLen, t.feedback.isSet, t.blk)) = some (0, 0, false, impulse) := by
  decide +kernel

/-- 2.2: CFG-A. -/
theorem test_prep :
    (after (exec .prep (operandsSet 0x40100000 4 1 0x3F000000))).map
      (fun t => (t.bufLen, t.delaySamples, t.wrPos, t.rdPos, t.statusWord)) = some (8, 2, 0, 6, 2) := by
  decide +kernel

/-- 2.2: `SR = 100.0`, `BLOCK_SIZE = 512` is refused. -/
theorem test_prep_refused :
    (after (exec .prep (operandsSet 0x40590000 512 1 0x3F000000))).map (fun t => (t.statusWord, t.bufLen)) =
      some (0x200, 0) := by decide +kernel

/-- P1, the first PROC: the output, the ring, the cursors. -/
theorem test_proc :
    (after (exec (.proc 1 1 4) { cfgA 0 6 with blk := impulse })).map
      (fun t => (t.blk, t.ring, t.wrPos, t.rdPos)) =
      some ([(0, 0x3F000000), (2, 0x3F000000)], [(0, 0x3F800000), (2, 0x3F400000)], 4, 2) := by decide +kernel

/-- 2.4: the dry and the wet mix differ, one sample. -/
theorem test_proc_unequal :
    (after (exec (.proc 1 1 1)
      { cfgA 0 6 with
        dryMix := .written 0x3DCCCCCD, wetMix := .written 0x3F333333, feedback := .written 0x3F666666
        blk := [(0, 0x3E99999A)], ring := [(6, 0x3E4CCCCD)] })).map (fun t => (t.blk, ringRead t.ring 0 0)) =
      some ([(0, 0x3E2E147B)], 0x3EF5C290) := by decide +kernel

/-- 00_scope R13: another configuration's record is the one that computes; 0.75 is FEEDBACK. -/
theorem test_other_numerics (x d : F32) :
    let c := Config.otherNumerics 3
    ({ cfgA 0 6 with conf := { Config.suggested with numerics := .other 3 } }).mixBack 0 x d =
      fadd c 4 x (fmul c 3 0x3F400000 d) := rfl

/-- P3, the first PROC: `NIN > NCH`, an output channel cleared. -/
theorem test_proc_shared :
    (after (exec (.proc 3 2 2)
      { prepped 0x40000000 2 1 0x3F000000 4 1 0 3 with
        dryMix := .written 0x3F800000, wetMix := .written 0x3F800000, feedback := .written 0x3F000000
        blk := [(0, 0x3F800000), (1, 0x40000000), (65536, 0x40400000), (65537, 0x40800000),
          (131072, 0x41100000), (131073, 0x41100000)] })).map (fun t => (t.blk, t.ring, t.wrPos, t.rdPos)) =
      some ([(0, 0x3F800000), (1, 0x40400000), (65536, 0x40400000), (65537, 0x40E00000)],
        [(0, 0x40400000), (1, 0x40B00000)], 2, 1) := by decide +kernel

/-- 2.5: BWR across the end of the ring. -/
theorem test_bwr :
    (after (exec (.bwr 0 .blk 4)
      { cfgA 6 4 with blk := [(0, 0x3F800000), (1, 0x40000000), (2, 0x40400000), (3, 0x40800000)] })).map
      (fun t => (t.ring, t.wrPos)) =
      some ([(0, 0x40400000), (1, 0x40800000), (6, 0x3F800000), (7, 0x40000000)], 6) := by decide +kernel

/-- 2.5: gains are set before the operand check. -/
theorem test_bwr_unset :
    (after (exec (.bwr 0 .blk 5) { cfgA 0 6 with gainEnd := .unset })).map State.statusWord = some 0x302 := by
  decide +kernel

/-- 2.5: BRD with the gain from 0 to 1, across the end of the ring. -/
theorem test_brd :
    (after (exec (.brd 0 4)
      { cfgA 0 6 with
        gainStart := .written 0
        ring := [(0, 0x41F00000), (1, 0x42200000), (6, 0x41200000), (7, 0x41A00000)] })).map State.wet =
      some [(0, 0), (1, 0x40A00000), (2, 0x41700000), (3, 0x41F00000)] := by decide +kernel

/-- 2.5: BADD with the gain from 1 to 0, across the end of the ring. -/
theorem test_badd :
    (after (exec (.badd 0 .blk 4)
      { cfgA 6 4 with
        gainEnd := .written 0
        blk := [(0, 0x41000000), (1, 0x41000000), (2, 0x41000000), (3, 0x41000000)]
        ring := [(0, 0x3F800000), (1, 0x3F800000), (6, 0x3F800000), (7, 0x3F800000)] })).map State.ring =
      some [(0, 0x40A00000), (1, 0x40400000), (6, 0x41100000), (7, 0x40E00000)] := by decide +kernel

theorem test_adv :
    (after (exec (.adv 65535) (cfgA 6 4))).map (fun t => (t.wrPos, t.rdPos)) = some (5, 3) := by decide +kernel

/-- 2.3: SETDT 1.5 with `WR_POS = 3`. -/
theorem test_setdt :
    (after (exec (.setdt .host 0x3FC00000) (cfgA 3 1))).map (fun t => (t.delaySamples, t.rdPos, t.wrPos)) =
      some (6, 5, 3) := by decide +kernel

/-- 2.3: SETDT 0.0. -/
theorem test_setdt_zero :
    (after (exec (.setdt .host 0) (cfgA 3 1))).map (fun t => (t.statusWord, t.delaySamples)) = some (0x602, 2) := by
  decide +kernel

theorem test_setdry :
    (after (exec (.setdry .host 0x80000000) State.reset)).map State.dryMix = some (.written 0x80000000) := by
  decide +kernel
theorem test_setdry_above :
    answered (exec (.setdry .host 0x3F800001) State.reset) = some ⟨.fault .badParam, none⟩ := by decide +kernel
theorem test_setwet :
    (after (exec (.setwet .host 0x3F7FFFFF) State.reset)).map State.wetMix = some (.written 0x3F7FFFFF) := by
  decide +kernel
theorem test_setwet_below :
    answered (exec (.setwet .host 0x80000001) State.reset) = some ⟨.fault .badParam, none⟩ := by decide +kernel
theorem test_setfb :
    (after (exec (.setfb .control 0x3F400000) State.reset)).map State.feedback = some (.written 0x3F400000) := by
  decide +kernel
theorem test_setfb_infinite :
    answered (exec (.setfb .host 0xFF800000) State.reset) = some ⟨.fault .badParam, none⟩ := by decide +kernel

/-! Ports (2.3, 2.6). -/

theorem test_read_status :
    answered (step (State.reset.presented (hostReadOf 1))) = some ⟨.done, some 0⟩ := by decide +kernel
/-- 60_exceptions R141: the codes as STATUS shows them, while unprepared. -/
theorem test_status_codes :
    ([none, some .illegalCmd, some .config, some .unset, some .notPrepared, some .badOperand, some .badParam,
        some .badAddr].map fun e => ({ State.reset with err := e }).statusWord) =
      [0x000, 0x100, 0x200, 0x300, 0x400, 0x500, 0x600, 0x700] := by decide +kernel
theorem test_read_length :
    answered (step ((cfgA 0 6).presented (hostReadOf 8))) = some ⟨.done, some 8⟩ := by decide +kernel
theorem test_read_window :
    answered (step ({ cfgE with wet := [(65537, 5)] }.presented (hostReadOf 0x110001))) = some ⟨.done, some 5⟩ := by
  decide +kernel
theorem test_read_window_outside :
    answered (step ((cfgA 0 6).presented (hostReadOf 0x100004))) = some ⟨.fault .badAddr, some 0⟩ := by decide +kernel
theorem test_control_read :
    (after (step ((cfgA 0 6).presented (controlReadOf 0x10)))).map State.statusWord = some 0x702 := by decide +kernel
theorem test_faulted_illegal :
    (after (step ({ State.reset with err := some .notPrepared }.presented (hostWriteOf 0 0xFFFFFFFF)))).map
      State.statusWord = some 0x400 := by decide +kernel

/-! The fault as an outcome of its own (60_exceptions R146; 2.6). -/

/-- A PROC longer than the block. -/
theorem test_engine_fault :
    (match engineStep ((cfgA 0 6).presented (hostWriteOf 0 0x31100005)) with
      | .fault code t => some (code, t.statusWord)
      | _ => none) = some (.badOperand, 0x502) := by decide +kernel
/-- The same while faulted is discarded, and is no second fault. -/
theorem test_engine_discarded :
    (match engineStep (({ cfgA 0 6 with err := some .unset }).presented (hostWriteOf 0 0x31100005)) with
      | .ordinary t => some t.statusWord
      | _ => none) = some 0x302 := by decide +kernel
/-- The good run of one PROC, and the run that faults. -/
theorem test_good_run :
    (goodRun 1 ((cfgA 0 6).presented (hostWriteOf 0 0x31100004))).map State.wrPos = some 4 ∧
      goodRun 1 ((cfgA 0 6).presented (hostWriteOf 0 0x31100005)) = none := by decide +kernel

/-! Numerics (2.4, 2.5; 00_scope R9). -/

theorem test_unfused :
    binary32Mul 0x3DCCCCCD 0x3DCCCCCD = some 0x3C23D70B ∧ binary32Mul 0x3DCCCCCD 0x3ECCCCCD = some 0x3D23D70B ∧
      binary32Add 0x3C23D70B 0x3D23D70B = some 0x3D4CCCCE := by decide +kernel
theorem test_third : binary32Div 0x3F800000 (u2f binary32 3) = some 0x3EAAAAAB := by decide +kernel
theorem test_zero_by_infinity : binary32Mul 0 0x7F800000 = none := by decide +kernel
theorem test_delay_rounding :
    dsamp 0x3DCCCCCD 0x4014000000000000 = 1 ∧ dsamp 0x3F333333 0x4014000000000000 = 3 ∧
      cap 0x4002000000000000 = 5 ∧ cap 0x3FC999999999999A = 0 := by decide +kernel

/-! Good states. -/

/-- The invariant, from facts that can be decided. -/
theorem inv_of {s : State}
    (h : s.conf.Admissible ∧ Memory.wf (fillOf .ring) s.ring ∧ Memory.wf (fillOf .wet) s.wet ∧
      Memory.wf (fillOf .blk) s.blk ∧
      (∀ x ∈ s.ring, x.1 / 2 ^ 32 < s.cfgNch.toNat ∧ x.1 % 2 ^ 32 < s.len) ∧
      (∀ x ∈ s.wet, x.1 / 65536 < s.cfgNch.toNat ∧ x.1 % 65536 < s.cfgBlock.toNat) ∧
      ∀ x ∈ s.blk, x.1 / 65536 < 16 ∧ x.1 % 65536 < 65536)
    (hv : (s.delayTime.isSet = true → legalDelay s.delayTime.bits = true) ∧
      (s.dryMix.isSet = true → legalMix s.dryMix.bits = true) ∧
      (s.wetMix.isSet = true → legalMix s.wetMix.bits = true) ∧
      (s.feedback.isSet = true → legalMix s.feedback.bits = true))
    (hg : s.prepared = true → f64Positive s.cfgRate = true ∧ s.len = cap s.cfgRate ∧ s.len ≤ s.conf.lenMax ∧
      1 ≤ s.cfgBlock.toNat ∧ s.cfgBlock.toNat ≤ s.len ∧ s.cfgBlock.toNat ≤ s.conf.blockMax ∧
      1 ≤ s.cfgNch.toNat ∧ s.cfgNch.toNat ≤ s.conf.nchMax ∧ s.delayTime.isSet = true ∧
      s.delaySamples.toNat = dsamp s.delayTime.bits s.cfgRate ∧ s.wrPos.toNat < s.len ∧
      s.rdPos.toNat = readCursor s.len s.wrPos.toNat s.delaySamples.toNat)
    (hb : s.prepared = false → s.bufLen = 0 ∧ s.wrPos = 0 ∧ s.rdPos = 0 ∧ s.delaySamples = 0 ∧ s.cfgBlock = 0 ∧
      s.cfgNch = 0 ∧ s.cfgSrLo = 0 ∧ s.cfgSrHi = 0) : s.Inv := by
  obtain ⟨h1, h2, h3, h4, h5, h6, h7⟩ := h
  obtain ⟨v1, v2, v3, v4⟩ := hv
  refine ⟨h1, h2, h3, h4, h5, h6, h7, v1, v2, v3, v4, fun hp => ?_, fun hp => ?_⟩
  · obtain ⟨g1, g2, g3, g4, g5, g6, g7, g8, g9, g10, g11, g12⟩ := hg hp
    exact ⟨g1, g2, g3, g4, g5, g6, g7, g8, g9, g10, g11, g12⟩
  · obtain ⟨b1, b2, b3, b4, b5, b6, b7, b8⟩ := hb hp
    exact ⟨b1, b2, b3, b4, b5, b6, b7, b8⟩

theorem reset_inv : State.reset.Inv :=
  inv_of (by decide +kernel) (by decide +kernel) (by decide +kernel) (by decide +kernel)

theorem cfgA_inv : ({ cfgA 0 6 with blk := impulse }).Inv :=
  inv_of (by decide +kernel) (by decide +kernel) (by decide +kernel) (by decide +kernel)

theorem cfgD_inv : ({ cfgD with blk := impulse, ring := [(4, 0x40000000)] }).Inv :=
  inv_of (by decide +kernel) (by decide +kernel) (by decide +kernel) (by decide +kernel)

theorem cfgE_inv : ({ cfgE with blk := impulse }).Inv :=
  inv_of (by decide +kernel) (by decide +kernel) (by decide +kernel) (by decide +kernel)

theorem operands_inv : (operandsSet 0x40100000 4 1 0x3F000000).Inv :=
  inv_of (by decide +kernel) (by decide +kernel) (by decide +kernel) (by decide +kernel)

/-! Witnesses: what meets the hypotheses of each statement, by its name. Where a statement has clauses, one for each,
at the end of its range. -/

theorem test_meets_EncodeThenDecode :
    (Instr.proc 15 15 65535).WellFormed ∧ (Instr.bwr 15 .wet 65535).WellFormed ∧ (Instr.brd 15 65535).WellFormed ∧
      (Instr.badd 15 .blk 65535).WellFormed ∧ (Instr.adv 65535).WellFormed ∧ (Instr.setdt .control 0).WellFormed := by
  decide

theorem test_meets_DecodeThenEncode : decodeCommand 0x3FF0FFFF = .ok (.proc 15 15 65535) := by rfl

theorem test_meets_StepRunsDecoded :
    let s := { cfgA 0 6 with inbox := [.transaction (.hostWrite 0 0x31100004)] }
    s.busy = false ∧ s.inbox = .transaction (.hostWrite 0 0x31100004) :: [] ∧
      decodeTransaction (.hostWrite 0 0x31100004) = .run (.proc 1 1 4) := ⟨rfl, rfl, rfl⟩

theorem test_meets_FetchedWordRuns :
    decodeTableWord 32 0x31100004 = some (.proc 1 1 4) ∧ decodeTableWord 24 0x13 = some (.setfb .host 0) := by decide

theorem test_meets_IllegalCommandFaults :
    (cfgA 0 6).busy = false ∧ (cfgA 0 6).err = none ∧ ∀ row ∈ commandRows, ¬ Matches 0x31110001 row :=
  ⟨rfl, rfl, by simp [commandRows]⟩

theorem test_meets_HeldWhileBusy :
    ({ cfgA 0 6 with busy := true }).busy = true ∧
      decodeTransaction (.hostWrite 0 0x31100004) ≠ .register .status := by decide +kernel

theorem test_meets_ResetMeetsInvariant :
    (Configuration.mk 1 1 1 .binary32).Admissible ∧ (Configuration.mk 15 65535 (2 ^ 31) (.other 0)).Admissible := by
  decide

theorem test_meets_StepKeepsInvariant :
    ∃ s t : State, s.Inv ∧ step s = .next t ∧ t.wrPos = 4 := by
  refine ⟨({ cfgA 0 6 with blk := impulse }).presented (hostWriteOf 0 0x31100004), ?_⟩
  obtain ⟨t, h, ht⟩ := next_with (r := step (({ cfgA 0 6 with blk := impulse }).presented (hostWriteOf 0 0x31100004)))
    (fun t => t.wrPos == 4) (by decide +kernel)
  exact ⟨t, inv_of (by decide +kernel) (by decide +kernel) (by decide +kernel) (by decide +kernel), h, by simpa using ht⟩

theorem test_meets_StepAlwaysAnswers : ({ cfgA 0 6 with blk := impulse }).Inv := cfgA_inv

theorem test_meets_CursorLaw : ∃ s t : State, s.Inv ∧ step s = .next t ∧ t.prepared = true := by
  refine ⟨({ cfgA 0 6 with blk := impulse }).presented (hostWriteOf 0 0x31100004), ?_⟩
  obtain ⟨t, h, ht⟩ := next_with (r := step (({ cfgA 0 6 with blk := impulse }).presented (hostWriteOf 0 0x31100004)))
    (fun t => t.prepared) (by decide +kernel)
  exact ⟨t, inv_of (by decide +kernel) (by decide +kernel) (by decide +kernel) (by decide +kernel), h, ht⟩

/-- The greatest legal delay, and the least. -/
theorem test_meets_DelayAtMostCapacity :
    legalDelay 0x40000000 = true ∧ legalDelay 0x00000001 = true ∧ f64Positive 0x4010000000000000 = true ∧
      f64Positive 0x0000000000000001 = true := by decide +kernel

theorem test_meets_RoundedExactProducts :
    0 < 1 ∧ f64Positive 0x4014000000000000 = true ∧ legalDelay 0x3DCCCCCD = true := by decide +kernel

theorem test_meets_LegalRanges :
    legalMix 0x80000000 = true ∧ legalMix 0x3F800000 = true ∧ legalMix 0x3F800001 = false ∧
      legalDelay 0x40000000 = true ∧ legalDelay 0x40000001 = false ∧ legalDelay 0x80000000 = false := by decide +kernel

theorem test_meets_NopChangesNothing : State.reset.err = none := rfl

theorem test_meets_PrepConfigures :
    let s := operandsSet 0x40100000 4 1 0x3F000000
    s.Inv ∧ s.err = none ∧ s.PrepSet ∧ s.PrepAccepts :=
  ⟨operands_inv, by decide +kernel, by decide +kernel, by decide +kernel⟩

/-- The shortest ring, `L = 1`, and the longest, `L = L_MAX`. -/
theorem test_meets_PrepConfigures_ends :
    (operandsSet 0x3FD00000 1 1 0x40000000).PrepAccepts ∧ cap (operandsSet 0x3FD00000 1 1 0x40000000).sampleRate = 1 ∧
      (operandsSet 0x41077000 512 2 0x40000000).PrepAccepts ∧
      cap (operandsSet 0x41077000 512 2 0x40000000).sampleRate = 384000 := by decide +kernel

theorem test_meets_PrepFaults_unset :
    ¬ ({ operandsSet 0xBFF00000 4 1 0x3F000000 with delayTime := .unset }).PrepSet := by decide +kernel

theorem test_meets_PrepFaults_config :
    (operandsSet 0x40590000 512 1 0x3F000000).PrepSet ∧ ¬ (operandsSet 0x40590000 512 1 0x3F000000).PrepAccepts ∧
      ¬ (operandsSet 0xC0E58880 512 1 0x3F000000).PrepAccepts ∧ ¬ (operandsSet 0x40E58880 0 1 0x3F000000).PrepAccepts ∧
      ¬ (operandsSet 0x40E58880 512 3 0x3F000000).PrepAccepts := by decide +kernel

theorem test_meets_PrepEstablishes :
    ∃ s t : State, s.Inv ∧ exec .prep s = .next t ∧ t.answer = some ⟨.done, none⟩ := by
  obtain ⟨t, h, ht⟩ := next_with (r := exec .prep (operandsSet 0x40100000 4 1 0x3F000000))
    (fun t => t.answer == some ⟨.done, none⟩) (by decide +kernel)
  exact ⟨_, t, operands_inv, h, by simpa using ht⟩

/-- For the statements about PROC: one channel, a full block, and an empty one. -/
theorem test_meets_Proc :
    (Instr.proc 1 1 4).WellFormed ∧ ({ cfgA 0 6 with blk := impulse }).ProcReady 1 4 ∧
      ({ cfgA 0 6 with blk := impulse }).ProcReady 15 0 :=
  ⟨by decide, ⟨cfgA_inv, by decide +kernel⟩, cfgA_inv, by decide +kernel⟩

/-- ProcWritesOnlyItsWords: an output channel without input, a ring word outside the span. -/
theorem test_meets_ProcWritesOnlyItsWords :
    let s := { cfgA 0 6 with blk := impulse }
    (Instr.proc 3 1 4).WellFormed ∧ s.ProcReady 1 4 ∧
      (¬ ∃ ch i, ch < 1 ∧ i < 4 ∧ 0 = min ch (s.cfgNch.toNat - 1) ∧ 4 = s.writeSpan i) ∧ ¬ (3 < max 1 3 ∧ 0 < 4) :=
  ⟨by decide, ⟨cfgA_inv, by decide +kernel⟩,
    fun ⟨ch, i, _, hi, _, h⟩ => by
      have : State.writeSpan { cfgA 0 6 with blk := impulse } i = i := by
        show (0 + i) % 8 = i
        omega
      omega,
    by decide⟩

/-- ProcRunsChannelsInOrder: a last channel that shares its delay channel, and a ring word outside its span. -/
theorem test_meets_ProcRunsChannelsInOrder :
    let s := { cfgE with blk := impulse }
    (Instr.proc 3 3 2).WellFormed ∧ s.ProcReady 3 2 ∧ min 2 (s.cfgNch.toNat - 1) = 1 ∧
      ¬ ∃ i, i < 2 ∧ 1 = min 2 (s.cfgNch.toNat - 1) ∧ 3 = s.writeSpan i :=
  ⟨by decide, ⟨cfgE_inv, by decide +kernel⟩, by decide +kernel,
    fun ⟨i, hi, _, h⟩ => by
      have : State.writeSpan { cfgE with blk := impulse } i = i := by
        show (0 + i) % 4 = i
        omega
      omega⟩

theorem test_meets_ProcRecurrence :
    (Instr.proc 2 2 2).WellFormed ∧ ({ cfgE with blk := impulse }).ProcReady 2 2 ∧
      2 ≤ ({ cfgE with blk := impulse }).cfgNch.toNat :=
  ⟨by decide, ⟨cfgE_inv, by decide +kernel⟩, by decide +kernel⟩

/-- Channel 0 the same, channel 1 not. -/
theorem test_meets_ProcChannelsIndependent :
    let s := { cfgE with blk := impulse }
    let s' := { cfgE with blk := [(0, 0x3F800000), (65536, 0x40000000)], ring := [(2 ^ 32, 0x40000000)] }
    (Instr.proc 2 2 2).WellFormed ∧ s.ProcReady 2 2 ∧ s'.ProcReady 2 2 ∧ 2 ≤ s.cfgNch.toNat ∧
      s' = { s with ring := s'.ring, blk := s'.blk } ∧
      (∀ j, j < s.len → ringRead s'.ring 0 j = ringRead s.ring 0 j) ∧
      ∀ i, i < 2 → blkRead s'.blk 0 i = blkRead s.blk 0 i := by
  refine ⟨by decide, ⟨cfgE_inv, by decide +kernel⟩,
    ⟨inv_of (by decide +kernel) (by decide +kernel) (by decide +kernel) (by decide +kernel), by decide +kernel⟩,
    by decide +kernel, rfl, ?_, by decide +kernel⟩
  show ∀ j, j < 4 → _
  decide +kernel

theorem test_meets_ProcSilenceSilences :
    let s := { cfgA 0 6 with feedback := .written 0, ring := [(6, 0x3F800000)] }
    (Instr.proc 1 1 4).WellFormed ∧ s.ProcReady 1 4 ∧ s.numerics = binary32 ∧ s.feedback.bits = 0 ∧
      (∀ ch i, ch < 1 → i < 4 → blkRead s.blk ch i = 0) ∧
      ∀ c j, c < s.cfgNch.toNat → j < s.len → f32Finite (ringRead s.ring c j) = true := by
  refine ⟨by decide,
    ⟨inv_of (by decide +kernel) (by decide +kernel) (by decide +kernel) (by decide +kernel), by decide +kernel⟩,
    rfl, rfl, fun _ _ _ _ => rfl, ?_⟩
  show ∀ c j, c < 1 → j < 8 → _
  intro c j hc hj
  obtain rfl : c = 0 := by omega
  revert j
  decide +kernel

theorem test_meets_ProcFaults :
    State.reset.err = none ∧ State.reset.prepared = false ∧
      ({ cfgA 0 6 with feedback := .unset }).prepared = true ∧ ¬ ({ cfgA 0 6 with feedback := .unset }).MixSet ∧
      (cfgA 0 6).err = none ∧ (cfgA 0 6).prepared = true ∧ (cfgA 0 6).MixSet ∧ (cfgA 0 6).cfgBlock.toNat < 5 := by
  decide +kernel

theorem test_meets_SplitRule : (4 : Nat) ≤ 8 ∧ 6 < 8 ∧ (8 : Nat) ≤ 8 ∧ 7 < 8 ∧ (1 : Nat) ≤ 1 ∧ 0 < 1 := by decide

theorem test_meets_EqualEndsConstantGain :
    (cfgA 0 6).gainStart.bits = 0x3F800000 ∧ (cfgA 0 6).gainEnd.bits = 0x3F800000 ∧ f32Finite 0x3F800000 = true ∧
      f32Finite 0x80000000 = true ∧ (cfgA 0 6).numerics = binary32 ∧
      (cfgA 0 6).Ramp 65535 ((cfgA 0 6).gain 65535) :=
  ⟨rfl, rfl, by decide +kernel, by decide +kernel, rfl, (cfgA 0 6).gain_ramp 65535⟩

/-- For the statements about the bulk copies: a channel beyond the delay channels, a full span, a ring word outside
it. -/
theorem test_meets_Bulk :
    let s := { cfgA 0 6 with blk := impulse }
    (Instr.bwr 15 .blk 4).WellFormed ∧ (Instr.brd 15 4).WellFormed ∧ (Instr.badd 15 .wet 4).WellFormed ∧
      s.BulkReady 4 ∧ s.BulkReady 0 ∧
      (¬ ∃ k, k < 4 ∧ 0 = min 15 (s.cfgNch.toNat - 1) ∧ 4 = s.writeSpan k) ∧
      ¬ (0 = min 15 (s.cfgNch.toNat - 1) ∧ 4 < 4) :=
  ⟨by decide, by decide, by decide, ⟨cfgA_inv, by decide +kernel⟩, ⟨cfgA_inv, by decide +kernel⟩,
    fun ⟨k, hk, _, h⟩ => by
      have : State.writeSpan { cfgA 0 6 with blk := impulse } k = k := by
        show (0 + k) % 8 = k
        omega
      omega,
    by omega⟩

theorem test_meets_BulkFaults :
    State.reset.prepared = false ∧ ({ cfgA 0 6 with gainEnd := .unset }).prepared = true ∧
      ¬ ({ cfgA 0 6 with gainEnd := .unset }).GainSet ∧ (cfgA 0 6).prepared = true ∧ (cfgA 0 6).GainSet ∧
      (cfgA 0 6).cfgBlock.toNat < 5 ∧ (cfgA 0 6).err = none ∧
      Instr.brd 0 5 ∈ [Instr.bwr 0 .blk 5, .brd 0 5, .badd 0 .blk 5] := by decide +kernel

theorem test_meets_AdvMovesCursors :
    ({ cfgA 0 6 with blk := impulse }).Inv ∧ ({ cfgA 0 6 with blk := impulse }).prepared = true ∧
      State.reset.Inv ∧ State.reset.prepared = false := ⟨cfgA_inv, rfl, reset_inv, rfl⟩

/-- `D = n`, and `D = 0`. -/
theorem test_meets_BulkBlockEqualsProc :
    let s := { cfgD with blk := impulse, ring := [(4, 0x40000000)] }
    let z := prepped 0x40100000 4 1 0x3DCCCCCD 8 0 0 0
    (s.ProcReady 1 4 ∧ 4 ≤ s.delaySamples.toNat ∧ s.numerics = binary32 ∧ s.feedback.bits ≠ 0x80000000 ∧
      (∀ k, k < 4 → f32Finite (blkRead s.blk 0 k) = true) ∧
      ∀ j, j < s.len → f32Finite (ringRead s.ring 0 j) = true) ∧
    (z.ProcReady 1 4 ∧ z.delaySamples.toNat = 0) := by
  refine ⟨⟨⟨cfgD_inv, by decide +kernel⟩, by decide +kernel, rfl, by decide +kernel, by decide +kernel, ?_⟩,
    ⟨inv_of (by decide +kernel) (by decide +kernel) (by decide +kernel) (by decide +kernel), by decide +kernel⟩,
    by decide +kernel⟩
  show ∀ j, j < 8 → _
  decide +kernel

/-- `D = n - 1`, an impulse into the silent region of the last of two channels. -/
theorem test_meets_BulkBlockEqualsProc_differs :
    let s := { cfgE with blk := [(65536, 0x3F800000)] }
    (Instr.proc 2 2 2).WellFormed ∧ s.ProcReady 2 2 ∧ 2 ≤ s.cfgNch.toNat ∧ s.delaySamples.toNat = 1 ∧
      s.numerics = binary32 ∧ f32Units s.feedback.bits ≠ 0 ∧ (∀ k, k < 2 → blkRead s.blk 1 k = if k = 0 then 0x3F800000 else 0) ∧
      ∀ j, j < s.len → ringRead s.ring 1 j = 0 :=
  ⟨by decide,
    ⟨inv_of (by decide +kernel) (by decide +kernel) (by decide +kernel) (by decide +kernel), by decide +kernel⟩,
    by decide +kernel, by decide +kernel, rfl, by decide +kernel, by decide +kernel, fun _ _ => rfl⟩

theorem test_meets_SetdtRetunes :
    ({ cfgA 0 6 with blk := impulse }).Inv ∧ ({ cfgA 0 6 with blk := impulse }).prepared = true ∧
      State.reset.Inv ∧ State.reset.prepared = false ∧ legalDelay 0x40000000 = true ∧ legalDelay 0x40000001 = false ∧
      legalDelay 0 = false :=
  ⟨cfgA_inv, rfl, reset_inv, rfl, by decide +kernel, by decide +kernel, by decide +kernel⟩

/-- The words next to the ranges' ends, inside and outside. -/
theorem test_meets_MixSettersStore :
    State.reset.err = none ∧ legalMix 0x3F800000 = true ∧ legalMix 0x80000000 = true ∧ legalMix 0x3F800001 = false ∧
      legalMix 0x80000001 = false := by decide +kernel

/-- The clauses over real values: 0 is no delay time but a mix, an infinity is neither. -/
theorem test_meets_SetterRanges :
    (f32Finite 0 = true ∧ 0 ≤ f32Real 0 ∧ f32Real 0 ≤ 1) ∧ ¬ (f32Finite 0 = true ∧ 0 < f32Real 0 ∧ f32Real 0 ≤ 2) ∧
      ¬ (f32Finite 0x7F800000 = true ∧ 0 ≤ f32Real 0x7F800000 ∧ f32Real 0x7F800000 ≤ 1) ∧
      (f32Finite 0x40000000 = true ∧ 0 < f32Real 0x40000000 ∧ f32Real 0x40000000 ≤ 2) := by
  have h : f32Real 0 = 0 := by simp [f32Real, f32Negative, f32Exponent, f32Fraction]
  have h2 : f32Real 0x40000000 = 2 := by
    norm_num [f32Real, show f32Negative 0x40000000 = false by decide +kernel,
      show f32Exponent 0x40000000 = 128 by decide +kernel, show f32Fraction 0x40000000 = 0 by decide +kernel]
  refine ⟨⟨by decide +kernel, by rw [h], by rw [h]; norm_num⟩, fun h' => ?_, fun h => absurd h.1 (by decide +kernel),
    by decide +kernel, by rw [h2]; norm_num, by rw [h2]⟩
  rw [h] at h'
  exact absurd h'.2.1 (lt_irrefl _)

theorem test_meets_OperandWritesStore : State.reset.busy = false ∧ State.reset.err = none := ⟨rfl, rfl⟩

theorem test_meets_RegisterReads :
    (cfgA 0 6).busy = false ∧ (cfgA 0 6).dryMix.isSet = true ∧ State.reset.dryMix.isSet = false := ⟨rfl, rfl, rfl⟩

/-- The last word of the window is written, or unwritten; the word after it is outside. -/
theorem test_meets_WindowReads :
    let s := { cfgE with wet := [(65537, 5)] }
    s.busy = false ∧ s.err = none ∧ (s.prepared = true ∧ 1 < s.cfgNch.toNat ∧ 1 < s.cfgBlock.toNat) ∧
      wetRead s.wet 1 1 = some 5 ∧ wetRead s.wet 1 0 = none ∧
      ¬ (s.prepared = true ∧ 1 < s.cfgNch.toNat ∧ 2 < s.cfgBlock.toNat) ∧
      ¬ (s.prepared = true ∧ 2 < s.cfgNch.toNat ∧ 0 < s.cfgBlock.toNat) := by decide +kernel

/-- The first and last addresses of every clause. -/
theorem test_meets_ForbiddenAccessesFault :
    State.reset.busy = false ∧ State.reset.err = none ∧
      (∀ addr ∈ [0x14, 0xFFFFF, 0x200000, 0xFFFFFF],
        addr < 2 ^ 24 ∧ (0x200000 ≤ addr ∨ (0x14 ≤ addr ∧ addr < 0x100000))) ∧
      (∀ addr ∈ [0x14, 0x1FFFFF, 0xFFFFFF, 0x01, 0x08, 0x0F],
        addr < 2 ^ 24 ∧ (0x14 ≤ addr ∨ addr = 0x01 ∨ (0x08 ≤ addr ∧ addr ≤ 0x0F))) ∧
      ∀ addr ∈ [0x0F, 0x14, 0xFFFFF], addr < 2 ^ 20 ∧ ¬ (0x10 ≤ addr ∧ addr ≤ 0x13) := by decide

theorem test_meets_ControlPortReach :
    ∃ t, step ((cfgA 3 1).presented (controlWriteOf 0x10 0x3FC00000)) = .next t ∧ t.rdPos = 5 := by
  obtain ⟨t, h, ht⟩ := next_with (r := step ((cfgA 3 1).presented (controlWriteOf 0x10 0x3FC00000)))
    (fun t => t.rdPos == 5) (by decide +kernel)
  exact ⟨t, h, by simpa using ht⟩

theorem test_meets_FaultsArePrecise :
    ∃ t, step ((cfgA 0 6).presented (.transaction (.hostWrite 0 0x31100005))) = .next t ∧
      t.answer = some ⟨.fault .badOperand, none⟩ := by
  obtain ⟨t, h, ht⟩ := next_with (r := step ((cfgA 0 6).presented (.transaction (.hostWrite 0 0x31100005))))
    (fun t => t.answer == some ⟨.fault .badOperand, none⟩) (by decide +kernel)
  exact ⟨t, h, by simpa using ht⟩

/-- The command that is not quite RST, and the address next to CMD. -/
theorem test_meets_FaultedIsQuiescent :
    let s := { cfgA 0 6 with err := some .badOperand }
    s.busy = false ∧ s.err = some .badOperand ∧ Instr.prep ≠ .rst ∧
      ¬ (0 = 0 ∧ (0x10000001 : Word) = 0x10000000) ∧ ¬ (1 = 0 ∧ (0x10000000 : Word) = 0x10000000) ∧
      answered (step (s.presented (hostReadOf 0x14))) = some ⟨.discarded, some 0⟩ := by decide +kernel

theorem test_meets_OnlyResetClearsError :
    ∃ t, step (({ cfgA 0 6 with err := some .badOperand }).presented (hostWriteOf 0 0x10000000)) = .next t ∧
      t.err = none := by
  obtain ⟨t, h, ht⟩ := next_with
    (r := step (({ cfgA 0 6 with err := some .badOperand }).presented (hostWriteOf 0 0x10000000)))
    (fun t => t.err == none) (by decide +kernel)
  exact ⟨t, h, by simpa using ht⟩

theorem test_meets_OnlyPrepPrepares :
    ∃ s t : State, step s = .next t ∧ s.prepared ≠ t.prepared ∧ t.prepared = true := by
  obtain ⟨t, h, ht⟩ := next_with
    (r := step ((operandsSet 0x40100000 4 1 0x3F000000).presented (hostWriteOf 0 0x20000000)))
    (fun t => t.prepared) (by decide +kernel)
  exact ⟨_, t, h, by rw [ht]; decide, ht⟩

theorem test_meets_GeometryFixedBetweenPreps :
    ∃ t, step ((cfgA 0 6).presented (hostWriteOf 0x04 9)) = .next t ∧ t.cfgBlock = 4 := by
  obtain ⟨t, h, ht⟩ := next_with (r := step ((cfgA 0 6).presented (hostWriteOf 0x04 9)))
    (fun t => t.cfgBlock == 4) (by decide +kernel)
  exact ⟨t, h, by simpa using ht⟩

theorem test_meets_OnlyCommandsTouchMemories :
    (∀ w, Transaction.hostWrite 0x10 0x3F000000 ≠ .hostWrite 0 w) ∧
      ∃ t, step ((cfgA 0 6).presented (.transaction (.hostWrite 0x10 0x3F000000))) = .next t ∧ t.prepared = true := by
  refine ⟨fun w h => ?_, next_with (fun t => t.prepared) (by decide +kernel)⟩
  injection h with h
  exact absurd h (by decide)

theorem test_meets_ReadAfterWrite : (2 ^ 32 - 1 < 2 ^ 32) ∧ (65535 < 65536) := by decide

theorem test_meets_CanonicalFormUnique :
    Memory.wf (fillOf .blk) impulse ∧ ∀ a, Memory.read (fillOf .blk) impulse a = Memory.read (fillOf .blk) impulse a :=
  ⟨by decide +kernel, fun _ => rfl⟩

theorem test_meets_HostWritesBlock : State.reset.busy = false ∧ (65535 < 65536) := ⟨rfl, by decide⟩

/-- A tie, and the first magnitude that overflows. -/
theorem test_meets_RoundsToNearestEven :
    (0 < 1) ∧ roundMagnitude (2 ^ 24 + 1) 1 < 0x7F800000 ∧ roundMagnitude (2 ^ 277 - 2 ^ 252) 1 = 0x7F800000 ∧
      roundMagnitude (2 ^ 277 - 2 ^ 252 - 1) 1 < 0x7F800000 := by decide +kernel

theorem test_meets_ArithmeticIsNearest :
    f32Finite 0x3F800000 = true ∧ f32Finite 0x40400000 = true ∧
      binary32Add 0x3F800000 0x40400000 = some 0x40800000 ∧ binary32Sub 0x40400000 0x3F800000 = some 0x40000000 ∧
      binary32Mul 0x40400000 0x40400000 = some 0x41100000 ∧ binary32Div 0x3F800000 0x40400000 = some 0x3EAAAAAB := by
  decide +kernel

theorem test_meets_NumericsIdentities :
    f32IsNaN 0x00000001 = false ∧ f32IsNaN 0x7F800000 = false ∧ f32Finite 0x80000001 = true ∧ 65535 < 65536 := by
  decide +kernel

theorem test_meets_InvalidGivesAnyNaN :
    f32IsNaN 0x7F800001 = true ∧ f32IsInf 0x7F800000 = true ∧ f32IsInf 0xFF800000 = true ∧
      f32Negative 0x7F800000 ≠ f32Negative 0xFF800000 ∧ f32Finite 0x80000000 = true ∧ f32Units 0x80000000 = 0 := by
  decide +kernel

/-- A fault, a transaction that is done, a faulted state, and a good run. -/
theorem test_meets_FaultIsADistinctOutcome :
    (cfgA 0 6).busy = false ∧ (cfgA 0 6).err = none ∧
      (∃ t, step ((cfgA 0 6).presented (.transaction (.hostWrite 0 0x31100005))) = .next t ∧
        t.answer = some ⟨.fault .badOperand, none⟩) ∧
      (∃ t, step ((cfgA 0 6).presented (.transaction (.hostWrite 0 0x31100004))) = .next t ∧
        t.answer = some ⟨.done, none⟩) ∧
      ({ cfgA 0 6 with err := some .unset }).err ≠ none ∧
      ∃ t, goodRun 1 ((cfgA 0 6).presented (hostWriteOf 0 0x31100004)) = some t := by
  refine ⟨rfl, rfl, test_meets_FaultsArePrecise, ?_, by decide, Option.isSome_iff_exists.1 (by decide +kernel)⟩
  obtain ⟨t, h, ht⟩ := next_with (r := step ((cfgA 0 6).presented (.transaction (.hostWrite 0 0x31100004))))
    (fun t => t.answer == some ⟨.done, none⟩) (by decide +kernel)
  exact ⟨t, h, by simpa using ht⟩

end Sys2Proof.Tests
end

section
namespace Sys2Proof.Machine

/-! Reset and progress. -/

/-- A state right after reset is good whenever its configuration is admissible. -/
theorem State.resetWith_inv {l : Configuration} (h : l.Admissible) : (State.resetWith l).Inv where
  conf := h
  ring_wf := Memory.nil_wf _
  wet_wf := Memory.nil_wf _
  blk_wf := Memory.nil_wf _
  ring_within := fun _ hx => nomatch hx
  wet_within := fun _ hx => nomatch hx
  blk_within := fun _ hx => nomatch hx
  delay_legal := fun hh => nomatch hh
  dry_legal := fun hh => nomatch hh
  wet_legal := fun hh => nomatch hh
  feedback_legal := fun hh => nomatch hh
  geometry := fun hh => nomatch hh
  blank := fun _ => ⟨rfl, rfl, rfl, rfl, rfl, rfl, rfl, rfl⟩

/-- The parameters 00_scope R5 suggests meet its own constraints. -/
theorem suggested_admissible : Config.suggested.Admissible := by decide

/-- Settles O10: the reset state lists no word, has no register set and is unprepared with its geometry at 0. -/
theorem resetMeetsInvariant : Obligations.ResetMeetsInvariant :=
  ⟨fun _ => State.resetWith_inv, State.resetWith_inv suggested_admissible⟩

/-- A command word decodes to operands that fit their fields (30_encoding R73). -/
theorem decodeCommand_wellFormed {w : Word} {i : Instr} (h : decodeCommand w = .ok i) : i.WellFormed := by
  have hn : field w.toNat 15 0 < 65536 := field_lt _ _ _
  have hch : field w.toNat 27 24 < 16 := field_lt _ _ _
  have hnin : field w.toNat 23 20 < 16 := field_lt _ _ _
  unfold decodeCommand at h
  dsimp only at h
  split at h
  · split_ifs at h; cases h; rfl
  · split_ifs at h; cases h; rfl
  · split_ifs at h; cases h; rfl
  · split_ifs at h; cases h; simp [Instr.WellFormed, Instr.fits, hch, hnin, hn]
  · split_ifs at h; cases h; simp [Instr.WellFormed, Instr.fits, hch, hn]
  · split_ifs at h; cases h; simp [Instr.WellFormed, Instr.fits, hch, hn]
  · split_ifs at h; cases h; simp [Instr.WellFormed, Instr.fits, hch, hn]
  · split_ifs at h; cases h; simp [Instr.WellFormed, Instr.fits, hn]
  · cases h

/-- A setter carries no count or index, so it is well-formed. -/
theorem setterAt_wellFormed {p : Port} {r : RegName} {v : Word} {i : Instr} (h : setterAt p r v = some i) :
    i.WellFormed := by
  cases r <;> cases h <;> rfl

/-- A host write of a register that asks for an operation asks for a well-formed one. -/
theorem decodeHostRegWrite_wellFormed {r : RegName} {v : Word} {i : Instr} (h : decodeHostRegWrite r v = .run i) :
    i.WellFormed := by
  cases r with
  | cmd =>
    simp only [decodeHostRegWrite] at h
    split at h
    · cases h; exact decodeCommand_wellFormed ‹_›
    · cases h
  | _ => cases h <;> rfl

/-- The operation a transaction asks for is well-formed (30_encoding R73, R85). -/
theorem decodeTransaction_wellFormed {tr : Transaction} {i : Instr} (h : decodeTransaction tr = .run i) :
    i.WellFormed := by
  cases tr with
  | hostRead addr =>
    simp only [decodeTransaction] at h
    split at h
    · split at h <;> cases h
    · cases h
    · cases h
  | hostWrite addr v =>
    simp only [decodeTransaction] at h
    split at h
    · split at h
      · exact decodeHostRegWrite_wellFormed h
      · cases h
    · cases h
  | controlRead addr => cases h
  | controlWrite addr v =>
    simp only [decodeTransaction] at h
    split at h
    · cases h
      obtain ⟨_, _, hset⟩ := Option.bind_eq_some_iff.1 ‹_›
      exact setterAt_wellFormed hset
    · cases h

/-- The delay of a legal delay time is at most the capacity of the ring (10_state R46). -/
theorem dsamp_le_cap {v : F32} (hv : legalDelay v = true) (sr : F64) : dsamp v sr ≤ cap sr := by
  have h : f32Units v * f64Units sr ≤ 2 ^ 149 * (2 * f64Units sr) := by
    calc f32Units v * f64Units sr ≤ 2 * 2 ^ 149 * f64Units sr := Nat.mul_le_mul_right _ (legalDelay_units hv)
      _ = 2 ^ 149 * (2 * f64Units sr) := by ring
  calc dsamp v sr ≤ rnd (2 ^ 149 * (2 * f64Units sr)) (2 ^ 149 * 2 ^ 1074) := rnd_mono h
    _ = cap sr := rnd_scale (by positivity)

/-- A transaction answers a next state when its work does wherever no check fails. -/
theorem State.transact_answers {s : State} {c : Option ErrCode} {w : StepResult}
    (h : c = none → ∃ t, w = .next t) : ∃ t, s.transact c w = .next t := by
  cases he : s.err with
  | some e => exact ⟨_, State.transact_faulted he c w⟩
  | none =>
    cases c with
    | some code => exact ⟨_, State.transact_raised he code w⟩
    | none => rw [State.transact_passed he]; exact h rfl

/-- In a good prepared state a command that touches only block words that exist answers (20_memory R52). -/
theorem State.Inv.touching_answers {s : State} (h : s.Inv) (hp : s.prepared = true) {channels n : Nat}
    (hc : channels ≤ 16) (hn : n ≤ 65536) (w : State) : ∃ t, s.touching channels n w = .next t :=
  ⟨w, State.touching_ready (h.ready hp) ((blkReady_iff _ _).2 ⟨hc, hn⟩) w⟩

/-- A bulk copy whose operands fit their fields answers, whatever its work leaves. -/
theorem State.Inv.bulk_answers {s : State} (h : s.Inv) {ch n : Nat}
    (hfits : (decide (ch < 16) && decide (n < 65536)) = true) (w : State) :
    ∃ t, s.transact (s.bulkCheck n) (s.touching (ch + 1) n w) = .next t := by
  simp only [Bool.and_eq_true, decide_eq_true_eq] at hfits
  obtain ⟨hch, hn⟩ := hfits
  exact State.transact_answers fun hc => h.touching_answers (bulkCheck_none hc).1 hch hn.le w

/-- PROC whose operands fit their fields answers. -/
theorem State.Inv.execProc_answers {s : State} (h : s.Inv) {nout nin n : Nat}
    (hfits : (decide (nout < 16) && decide (nin < 16) && decide (n < 65536)) = true) :
    ∃ t, execProc nout nin n s = .next t := by
  simp only [Bool.and_eq_true, decide_eq_true_eq] at hfits
  obtain ⟨⟨hout, hin⟩, hn⟩ := hfits
  exact State.transact_answers fun hc =>
    h.touching_answers (procCheck_none hc).1 (max_le hin.le hout.le) hn.le _

/-- ADV answers: a good prepared state has a ring. -/
theorem State.Inv.execAdv_answers {s : State} (h : s.Inv) (n : Nat) : ∃ t, execAdv n s = .next t :=
  State.transact_answers fun hc =>
    ⟨_, retuning_ready (Nat.zero_lt_of_lt (h.geometry (advCheck_none hc)).write_lt) (Nat.zero_le _) _⟩

/-- PREP answers: the delay it computes fits the ring it makes. -/
theorem State.Inv.execPrep_answers {s : State} (h : s.Inv) : ∃ t, execPrep s = .next t :=
  State.transact_answers fun hc => by
    obtain ⟨⟨_, _, _, _, hdelay⟩, _, _, _, hcap, _⟩ := prepCheck_none hc
    exact ⟨_, retuning_ready hcap (dsamp_le_cap (h.delay_legal hdelay) _) _⟩

/-- SETDT answers: a legal delay fits the ring there is. -/
theorem State.Inv.execSetdt_answers {s : State} (h : s.Inv) (p : Port) (v : F32) : ∃ t, execSetdt p v s = .next t :=
  State.transact_answers fun hc => by
    have hv : legalDelay v = true := by simpa [delayCheck] using hc
    split_ifs with hp
    · have g := h.geometry hp
      exact ⟨_, retuning_ready (Nat.zero_lt_of_lt g.write_lt) (g.len_cap ▸ dsamp_le_cap hv _) _⟩
    · exact ⟨_, rfl⟩

/-- Every well-formed operation answers a next state from a good state. -/
theorem State.Inv.exec_answers {s : State} (h : s.Inv) {i : Instr} (hi : i.WellFormed) : ∃ t, exec i s = .next t := by
  cases i with
  | nop => exact State.transact_answers (c := none) fun _ => ⟨s.finish none, rfl⟩
  | rst => exact ⟨_, rfl⟩
  | prep => exact h.execPrep_answers
  | proc nout nin n => exact h.execProc_answers hi
  | bwr ch src n => exact h.bulk_answers hi _
  | brd ch n => exact h.bulk_answers hi _
  | badd ch src n => exact h.bulk_answers hi _
  | adv n => exact h.execAdv_answers n
  | setdt p v => exact h.execSetdt_answers p v
  | setdry p v => exact State.transact_answers fun _ => ⟨_, rfl⟩
  | setwet p v => exact State.transact_answers fun _ => ⟨_, rfl⟩
  | setfb p v => exact State.transact_answers fun _ => ⟨_, rfl⟩

/-- Settles O12, by what the engine fetches: waiting and every other event answer at once, and an operation that is
fetched is well-formed and runs in a good state. -/
theorem stepAlwaysAnswers : Obligations.StepAlwaysAnswers := by
  intro s hs
  unfold step
  cases hf : s.fetch with
  | idle => exact ⟨s, rfl⟩
  | answered t => exact ⟨t, rfl⟩
  | run i u =>
    obtain ⟨tr, rest, -, hdec, -, rfl⟩ := fetch_run hf
    exact (hs.dequeue rest).exec_answers (decodeTransaction_wellFormed hdec)

end Sys2Proof.Machine
end

section
namespace Sys2Proof.Machine

/-! The integer nearest to an exact value, halves up (00_scope R9), and the exact values words stand for (00_scope R10,
R11) in the units the model counts. -/

/-- `rnd` is the floor of the exact value plus one half. -/
theorem rnd_eq_floor {num den : Nat} (h : 0 < den) : (rnd num den : ℤ) = ⌊(num : ℚ) / den + 1 / 2⌋ := by
  have hd : (den : ℚ) ≠ 0 := by positivity
  have hsum : (num : ℚ) / den + 1 / 2 = ((2 * num + den : ℕ) : ℚ) / (2 * den : ℕ) := by
    push_cast
    field_simp
  rw [hsum, Rat.floor_natCast_div_natCast]
  rfl

/-- The exact value lies in the half-open interval of width 1 around its `rnd`. -/
theorem rnd_bounds {num den : Nat} (h : 0 < den) :
    (rnd num den : ℚ) - 1 / 2 ≤ (num : ℚ) / den ∧ (num : ℚ) / den < rnd num den + 1 / 2 := by
  have hfloor := Int.floor_eq_iff.1 (rnd_eq_floor (num := num) h).symm
  push_cast at hfloor
  constructor <;> linarith [hfloor.1, hfloor.2]

/-- No natural number is nearer to the exact value than its `rnd`, and one as near is smaller. -/
theorem rnd_nearest {num den m : Nat} (h : 0 < den) (hm : m ≠ rnd num den) :
    |(num : ℚ) / den - rnd num den| ≤ |(num : ℚ) / den - m| ∧
      (|(num : ℚ) / den - rnd num den| = |(num : ℚ) / den - m| → m < rnd num den) := by
  obtain ⟨hlo, hhi⟩ := rnd_bounds (num := num) h
  have hnear : |(num : ℚ) / den - rnd num den| ≤ 1 / 2 := abs_le.2 ⟨by linarith, by linarith⟩
  rcases Nat.lt_or_gt_of_ne hm with hlt | hgt
  · have hstep : (m : ℚ) + 1 ≤ rnd num den := by exact_mod_cast hlt
    have hfar := le_abs_self ((num : ℚ) / den - m)
    exact ⟨by linarith, fun _ => hlt⟩
  · have hstep : (rnd num den : ℚ) + 1 ≤ m := by exact_mod_cast hgt
    have hfar := neg_le_abs ((num : ℚ) / den - m)
    exact ⟨by linarith, fun heq => by linarith⟩

/-- A normal number's significand `1 + f / 2^p` in a binade, as a whole number of units of `2^-(p + b)`. -/
theorem significand_eq_units (f e p b : Nat) :
    (1 + (f : ℚ) / 2 ^ p) * 2 ^ ((e : ℤ) - b) = ((2 ^ p + f) * 2 ^ e : ℕ) / 2 ^ (p + b) := by
  rw [zpow_sub₀ two_ne_zero, zpow_natCast, zpow_natCast, pow_add]
  push_cast
  field_simp

/-- The sign of a word, as the factor the formula of 00_scope R10 begins with. -/
def f32Sign (w : F32) : ℚ := if f32Negative w then -1 else 1

/-- `real(v)` is its sign times its whole number of units of 2^-149. -/
theorem f32Real_eq_units (w : F32) : f32Real w = f32Sign w * (f32Units w / 2 ^ 149) := by
  unfold f32Real f32Sign f32Units
  congr 1
  split_ifs with he
  · rw [zpow_neg, ← div_eq_mul_inv]
    rfl
  · have hexp : (f32Exponent w : ℤ) - 127 = (f32Exponent w - 1 : ℕ) - (126 : ℕ) := by omega
    rw [hexp, significand_eq_units]

/-- `real(v)` is its signed number of units of 2^-149. -/
theorem f32Real_eq_scaled (w : F32) : f32Real w = f32Scaled w / 2 ^ 149 := by
  rw [f32Real_eq_units]
  unfold f32Sign f32Scaled
  split_ifs <;> push_cast <;> ring

/-- `real(v)` of a word that is not negative is its whole number of units of 2^-1074. -/
theorem f64Real_eq_units {w : F64} (h : f64Negative w = false) : f64Real w = f64Units w / 2 ^ 1074 := by
  unfold f64Real f64Units
  rw [h, if_neg Bool.false_ne_true, one_mul]
  split_ifs with he
  · rw [zpow_neg, ← div_eq_mul_inv]
    rfl
  · have hexp : (f64Exponent w : ℤ) - 1023 = (f64Exponent w - 1 : ℕ) - (1022 : ℕ) := by omega
    rw [hexp, significand_eq_units]

/-- A legal sample rate is not negative. -/
theorem f64Positive_not_negative {w : F64} (h : f64Positive w = true) : f64Negative w = false := by
  simp only [f64Positive, Bool.and_eq_true, Bool.not_eq_true'] at h
  exact h.1.2

/-- A legal delay time is not negative. -/
theorem legalDelay_not_negative {v : F32} (h : legalDelay v = true) : f32Negative v = false := by
  simp only [legalDelay, Bool.and_eq_true, decide_eq_true_eq] at h
  obtain ⟨⟨-, hpos⟩, -⟩ := h
  by_contra hneg
  simp only [Bool.not_eq_false] at hneg
  rw [f32Scaled, if_pos hneg] at hpos
  omega

/-- The capacity is twice the exact sample rate, rounded (10_state R45). -/
theorem cap_eq_floor {sr : F64} (h : f64Positive sr = true) : (cap sr : ℤ) = ⌊2 * f64Real sr + 1 / 2⌋ := by
  unfold cap
  rw [rnd_eq_floor (by positivity), f64Real_eq_units (f64Positive_not_negative h), ← mul_div_assoc, Nat.cast_mul,
    Nat.cast_pow, Nat.cast_ofNat]

/-- The delay is the exact product of delay time and sample rate, rounded (10_state R44). -/
theorem dsamp_eq_floor {dt : F32} {sr : F64} (hdt : legalDelay dt = true) (hsr : f64Positive sr = true) :
    (dsamp dt sr : ℤ) = ⌊f32Real dt * f64Real sr + 1 / 2⌋ := by
  have hsign : f32Sign dt = 1 := by simp [f32Sign, legalDelay_not_negative hdt]
  unfold dsamp
  rw [rnd_eq_floor (by positivity), f32Real_eq_units, hsign, one_mul,
    f64Real_eq_units (f64Positive_not_negative hsr), div_mul_div_comm, Nat.cast_mul, Nat.cast_mul, Nat.cast_pow,
    Nat.cast_pow, Nat.cast_ofNat]

/-- Settles O15, from the floor form of `rnd` and the units of both formats. -/
theorem roundedExactProducts : Obligations.RoundedExactProducts :=
  ⟨fun _ _ h => ⟨rnd_eq_floor h, fun _ => rnd_nearest h⟩, fun _ => cap_eq_floor, fun _ _ => dsamp_eq_floor⟩

end Sys2Proof.Machine
end

section
namespace Sys2Proof.Machine

/-! Rounding to binary32 (00_scope R13). A magnitude, the low 31 bits of a word, counts the binary32 numbers below it;
`magnitudeUnits` gives the number it stands for. Rounding picks a binade, which fixes the spacing `2 ^ roundShift`, and
then the nearest multiple of that spacing. -/

/-- The units of 2^-149 a magnitude stands for. -/
def magnitudeUnits (m : Nat) : Nat :=
  if m / 2 ^ 23 = 0 then m % 2 ^ 23 else (2 ^ 23 + m % 2 ^ 23) * 2 ^ (m / 2 ^ 23 - 1)

theorem f32Units_pack_eq {neg : Bool} {m : Nat} (h : m < 2 ^ 31) : f32Units (f32Pack neg m) = magnitudeUnits m :=
  f32Units_pack h

/-- The units of a word are those of its low 31 bits. -/
theorem f32Units_eq_magnitudeUnits (w : F32) : f32Units w = magnitudeUnits (w.toNat % 2 ^ 31) := by
  rw [← f32Units_magnitude w false, f32Units_pack_eq (Nat.mod_lt _ (by norm_num))]

/-- In the binade of spacing `2^s` the magnitudes count multiples of the spacing, both ends included. -/
theorem magnitudeUnits_binade {s r : Nat} (hs : s = 0 ∨ 2 ^ 23 ≤ r) (hr : r ≤ 2 ^ 24) :
    magnitudeUnits (s * 2 ^ 23 + r) = r * 2 ^ s := by
  unfold magnitudeUnits
  rcases Nat.lt_or_ge r (2 ^ 23) with hlow | hhigh
  · obtain rfl : s = 0 := by omega
    rw [if_pos (by omega), show (0 * 2 ^ 23 + r) % 2 ^ 23 = r by omega, pow_zero, Nat.mul_one]
  · rw [if_neg (by omega)]
    rcases Nat.lt_or_ge r (2 ^ 24) with hin | htop
    · rw [show (s * 2 ^ 23 + r) / 2 ^ 23 - 1 = s by omega, show 2 ^ 23 + (s * 2 ^ 23 + r) % 2 ^ 23 = r by omega]
    · obtain rfl : r = 2 ^ 24 := by omega
      rw [show (s * 2 ^ 23 + 2 ^ 24) / 2 ^ 23 - 1 = s + 1 by omega,
        show (s * 2 ^ 23 + 2 ^ 24) % 2 ^ 23 = 0 by omega]
      ring

/-- The next magnitude is one spacing away. -/
theorem magnitudeUnits_succ (m : Nat) : magnitudeUnits (m + 1) = magnitudeUnits m + 2 ^ (m / 2 ^ 23 - 1) := by
  obtain ⟨s, hs⟩ : ∃ s, s = m / 2 ^ 23 - 1 := ⟨_, rfl⟩
  obtain ⟨r, hr⟩ : ∃ r, m = s * 2 ^ 23 + r := ⟨m - s * 2 ^ 23, by omega⟩
  rw [← hs, hr, Nat.add_assoc, magnitudeUnits_binade (by omega) (by omega),
    magnitudeUnits_binade (by omega) (by omega), Nat.add_one_mul]

theorem magnitudeUnits_strictMono : StrictMono magnitudeUnits :=
  strictMono_nat_of_lt_succ fun m => by
    rw [magnitudeUnits_succ]
    exact Nat.lt_add_of_pos_right (by positivity)

/-! The nearest integer, ties to even. -/

/-- `roundHalfEven` is within one half of the exact fraction, and even where it is exactly one half away. -/
theorem roundHalfEven_bounds {num den : Nat} (h : 0 < den) :
    2 * (roundHalfEven num den * den) ≤ 2 * num + den ∧ 2 * num ≤ 2 * (roundHalfEven num den * den) + den ∧
      (2 * (roundHalfEven num den * den) = 2 * num + den ∨ 2 * num = 2 * (roundHalfEven num den * den) + den →
        roundHalfEven num den % 2 = 0) := by
  have hnum := Nat.div_add_mod' num den
  have hrem := Nat.mod_lt num h
  have hcases :
      roundHalfEven num den = num / den ∧
          (2 * (num % den) < den ∨ 2 * (num % den) = den ∧ num / den % 2 = 0) ∨
        roundHalfEven num den = num / den + 1 ∧
          (den < 2 * (num % den) ∨ 2 * (num % den) = den ∧ num / den % 2 = 1) := by
    unfold roundHalfEven
    dsimp only
    split_ifs <;> omega
  rcases hcases with ⟨hR, hr⟩ | ⟨hR, hr⟩
  · rw [hR]
    omega
  · rw [hR, Nat.add_one_mul (num / den)]
    omega

/-- `roundHalfEven` is within one half of the exact fraction, as rational numbers. -/
theorem roundHalfEven_near {num den : Nat} (h : 0 < den) :
    |(num : ℚ) / den - roundHalfEven num den| ≤ 1 / 2 ∧
      (|(num : ℚ) / den - roundHalfEven num den| = 1 / 2 → roundHalfEven num den % 2 = 0) := by
  have hd : (0 : ℚ) < den := by exact_mod_cast h
  obtain ⟨hlo, hhi, htie⟩ := roundHalfEven_bounds (num := num) h
  generalize roundHalfEven num den = R at *
  have hlo' : 2 * ((R : ℚ) * den) ≤ 2 * num + den := by exact_mod_cast hlo
  have hhi' : 2 * (num : ℚ) ≤ 2 * (R * den) + den := by exact_mod_cast hhi
  constructor
  · rw [abs_le, neg_le_sub_iff_le_add, sub_le_iff_le_add, ← sub_le_iff_le_add, le_div_iff₀ hd, div_le_iff₀ hd]
    constructor <;> linarith
  · intro heq
    rcases (abs_eq (by norm_num)).1 heq with hpos | hneg
    · rw [sub_eq_iff_eq_add, div_eq_iff hd.ne'] at hpos
      exact htie (.inr (by qify; linarith))
    · rw [sub_eq_iff_eq_add, div_eq_iff hd.ne'] at hneg
      exact htie (.inl (by qify; linarith))

/-- An even integer is reached exactly from one half below it on. -/
theorem le_roundHalfEven_iff {num den k : Nat} (h : 0 < den) (hk : k % 2 = 0) :
    k ≤ roundHalfEven num den ↔ 2 * (k * den) ≤ 2 * num + den := by
  obtain ⟨hlo, hhi, htie⟩ := roundHalfEven_bounds (num := num) h
  constructor
  · intro hle
    have := Nat.mul_le_mul_right den hle
    omega
  · intro hle
    by_contra hlt
    have hstep : (roundHalfEven num den + 1) * den ≤ k * den := Nat.mul_le_mul_right den (by omega)
    rw [Nat.add_one_mul] at hstep
    have heven := htie (.inr (by omega))
    have heq : (roundHalfEven num den + 1) * den = k * den := by rw [Nat.add_one_mul]; omega
    have := Nat.eq_of_mul_eq_mul_right h heq
    omega

/-! The binade of a magnitude. -/

/-- The exponent of the spacing at `num / den` units. -/
def roundShift (num den : Nat) : Nat := Nat.log2 (num / den) - 23

/-- The number of spacings a magnitude of `num / den` units rounds to. -/
def roundSignificand (num den : Nat) : Nat := roundHalfEven num (den * 2 ^ roundShift num den)

theorem roundMagnitude_eq (num den : Nat) :
    roundMagnitude num den = min (roundShift num den * 2 ^ 23 + roundSignificand num den) 0x7F800000 := rfl

/-- Below infinity nothing is cut off. -/
theorem roundMagnitude_of_lt {num den : Nat} (h : roundMagnitude num den < 0x7F800000) :
    roundMagnitude num den = roundShift num den * 2 ^ 23 + roundSignificand num den := by
  rw [roundMagnitude_eq] at *
  omega

/-- Infinity and every finite magnitude leave the sign bit free. -/
theorem roundMagnitude_lt (num den : Nat) : roundMagnitude num den < 2 ^ 31 := by
  rw [roundMagnitude_eq]
  omega

/-- Above the first binade a magnitude is at least `2^23` spacings. -/
theorem roundShift_le (num den : Nat) :
    roundShift num den = 0 ∨ 2 ^ 23 * (den * 2 ^ roundShift num den) ≤ num := by
  rcases Nat.eq_zero_or_pos (roundShift num den) with h0 | hpos
  · exact .inl h0
  · right
    have hlog : Nat.log2 (num / den) = 23 + roundShift num den := by
      unfold roundShift at *
      omega
    have hq : num / den ≠ 0 := by
      rintro hq
      rw [hq, Nat.log2_zero] at hlog
      omega
    have hle := Nat.log2_self_le hq
    rw [hlog] at hle
    calc 2 ^ 23 * (den * 2 ^ roundShift num den) = 2 ^ (23 + roundShift num den) * den := by ring
      _ ≤ num / den * den := Nat.mul_le_mul_right _ hle
      _ ≤ num := Nat.div_mul_le_self _ _

/-- A magnitude is below `2^24` spacings. -/
theorem lt_roundShift {num den : Nat} (h : 0 < den) :
    num < 2 ^ 24 * (den * 2 ^ roundShift num den) := by
  have hlt : num / den < 2 ^ (24 + roundShift num den) :=
    Nat.lt_log2_self.trans_le (Nat.pow_le_pow_right two_pos (by unfold roundShift; omega))
  calc num < 2 ^ (24 + roundShift num den) * den := (Nat.div_lt_iff_lt_mul h).1 hlt
    _ = 2 ^ 24 * (den * 2 ^ roundShift num den) := by ring

theorem roundSignificand_le {num den : Nat} (h : 0 < den) : roundSignificand num den ≤ 2 ^ 24 := by
  have hd : 0 < den * 2 ^ roundShift num den := by positivity
  have hlt := lt_roundShift (num := num) h
  by_contra hgt
  have hle := (roundHalfEven_bounds (num := num) hd).1
  have := Nat.mul_le_mul_right (den * 2 ^ roundShift num den) (show 2 ^ 24 + 1 ≤ roundSignificand num den by omega)
  unfold roundSignificand at this
  omega

theorem le_roundSignificand {num den : Nat} (h : 0 < den) :
    roundShift num den = 0 ∨ 2 ^ 23 ≤ roundSignificand num den :=
  (roundShift_le num den).imp_right fun hle =>
    (le_roundHalfEven_iff (by positivity) (by norm_num)).2 (by omega)

/-- A finite result stands for its significand in units of its spacing. -/
theorem magnitudeUnits_round {num den : Nat} (h : 0 < den) :
    magnitudeUnits (roundShift num den * 2 ^ 23 + roundSignificand num den) =
      roundSignificand num den * 2 ^ roundShift num den :=
  magnitudeUnits_binade (le_roundSignificand h) (roundSignificand_le h)

/-- Rounding overflows exactly from the largest finite number plus half its spacing on. -/
theorem roundMagnitude_eq_infinity_iff {num den : Nat} (h : 0 < den) :
    roundMagnitude num den = 0x7F800000 ↔ (2 ^ 277 - 2 ^ 252) * den ≤ num := by
  have hthreshold : (2 ^ 277 - 2 ^ 252) * den = (2 ^ 25 - 1) * (den * 2 ^ 252) := by
    rw [show 277 = 25 + 252 from rfl, pow_add]
    ring
  have hmin : roundMagnitude num den = 0x7F800000 ↔
      255 * 2 ^ 23 ≤ roundShift num den * 2 ^ 23 + roundSignificand num den := by
    rw [roundMagnitude_eq]
    omega
  rw [hthreshold, hmin]
  have hR := roundSignificand_le (num := num) h
  have hlo := roundShift_le num den
  have hhi := lt_roundShift (num := num) h
  have hR' := le_roundSignificand (num := num) h
  rcases Nat.lt_trichotomy (roundShift num den) 253 with hlt | heq | hgt
  · have hle : den * 2 ^ roundShift num den ≤ den * 2 ^ 252 :=
      Nat.mul_le_mul_left _ (Nat.pow_le_pow_right two_pos (by omega))
    omega
  · have hround := le_roundHalfEven_iff (num := num) (den := den * 2 ^ 253) (k := 2 ^ 24) (by positivity) (by norm_num)
    rw [show den * 2 ^ 253 = 2 * (den * 2 ^ 252) by ring] at hround
    unfold roundSignificand
    rw [heq, show den * 2 ^ 253 = 2 * (den * 2 ^ 252) by ring]
    omega
  · have hle : den * 2 ^ 252 * 2 ^ 2 ≤ den * 2 ^ roundShift num den := by
      rw [Nat.mul_assoc, ← Nat.pow_add]
      exact Nat.mul_le_mul_left _ (Nat.pow_le_pow_right two_pos (by omega))
    omega

/-! The nearest finite number. -/

/-- A rounded magnitude is within half a spacing of the exact one, and its significand is even where it is exactly half
a spacing away. -/
theorem roundSignificand_near {num den : Nat} (h : 0 < den) :
    |(num : ℚ) / den - roundSignificand num den * 2 ^ roundShift num den| ≤ 1 / 2 * 2 ^ roundShift num den ∧
      (|(num : ℚ) / den - roundSignificand num den * 2 ^ roundShift num den| = 1 / 2 * 2 ^ roundShift num den →
        roundSignificand num den % 2 = 0) := by
  have hw : (0 : ℚ) < 2 ^ roundShift num den := by positivity
  obtain ⟨hnear, htie⟩ := roundHalfEven_near (num := num) (den := den * 2 ^ roundShift num den) (by positivity)
  rw [← roundSignificand] at hnear htie
  push_cast at hnear htie
  have hscale : |(num : ℚ) / den - roundSignificand num den * 2 ^ roundShift num den| =
      |(num : ℚ) / (den * 2 ^ roundShift num den) - roundSignificand num den| * 2 ^ roundShift num den := by
    rw [← abs_of_pos hw, ← abs_mul, abs_of_pos hw, sub_mul, ← div_div, div_mul_cancel₀ _ hw.ne']
  rw [hscale, mul_le_mul_iff_left₀ hw, mul_left_inj' hw.ne']
  exact ⟨hnear, htie⟩

/-- A larger magnitude than the rounded one is at least one spacing above it. -/
theorem round_add_le_of_lt {num den m : Nat} (h : 0 < den)
    (hm : roundShift num den * 2 ^ 23 + roundSignificand num den < m) :
    roundSignificand num den * 2 ^ roundShift num den + 2 ^ roundShift num den ≤ magnitudeUnits m := by
  have hR := le_roundSignificand (num := num) h
  have hspacing := Nat.pow_le_pow_right two_pos (show roundShift num den ≤
    (roundShift num den * 2 ^ 23 + roundSignificand num den) / 2 ^ 23 - 1 by omega)
  have hnext := magnitudeUnits_succ (roundShift num den * 2 ^ 23 + roundSignificand num den)
  rw [magnitudeUnits_round h] at hnext
  have hmono := magnitudeUnits_strictMono.monotone (show _ + 1 ≤ m from hm)
  omega

/-- A smaller magnitude than the rounded one is at least one spacing below it, unless the rounded one begins a binade,
and then the exact one is not below it. -/
theorem add_round_le_of_lt {num den m : Nat} (h : 0 < den)
    (hm : m < roundShift num den * 2 ^ 23 + roundSignificand num den) :
    magnitudeUnits m + 2 ^ roundShift num den ≤ roundSignificand num den * 2 ^ roundShift num den ∨
      magnitudeUnits m < roundSignificand num den * 2 ^ roundShift num den ∧
        roundSignificand num den * 2 ^ roundShift num den * den ≤ num := by
  have hR := roundSignificand_le (num := num) h
  by_cases hstart : roundShift num den = 0 ∨ 2 ^ 23 < roundSignificand num den
  · left
    have hprev : magnitudeUnits (roundShift num den * 2 ^ 23 + (roundSignificand num den - 1)) =
        (roundSignificand num den - 1) * 2 ^ roundShift num den := magnitudeUnits_binade (by omega) (by omega)
    have hmono := magnitudeUnits_strictMono.monotone
      (show m ≤ roundShift num den * 2 ^ 23 + (roundSignificand num den - 1) by omega)
    calc magnitudeUnits m + 2 ^ roundShift num den
        ≤ (roundSignificand num den - 1 + 1) * 2 ^ roundShift num den := by
          rw [Nat.add_one_mul, ← hprev]
          exact Nat.add_le_add_right hmono _
      _ = roundSignificand num den * 2 ^ roundShift num den := by rw [Nat.sub_add_cancel (by omega)]
  · right
    have hle := (roundShift_le num den).resolve_left (by omega)
    have hR' := (le_roundSignificand (num := num) h).resolve_left (by omega)
    have hlt := magnitudeUnits_strictMono hm
    rw [magnitudeUnits_round h] at hlt
    refine ⟨hlt, ?_⟩
    obtain heq : roundSignificand num den = 2 ^ 23 := by omega
    rw [heq]
    calc 2 ^ 23 * 2 ^ roundShift num den * den = 2 ^ 23 * (den * 2 ^ roundShift num den) := by ring
      _ ≤ num := hle

/-- A number within half a spacing of the exact one is at least as near as any a spacing away from it, or as any below
both; and it is as near only where it is exactly half a spacing away. -/
theorem nearest_of_spacing {x u w y : ℚ} (hnear : |x - u| ≤ 1 / 2 * w)
    (hy : u + w ≤ y ∨ y + w ≤ u ∨ y < u ∧ u ≤ x) :
    |x - u| ≤ |x - y| ∧ (|x - u| = |x - y| → |x - u| = 1 / 2 * w) := by
  obtain ⟨hlo, hhi⟩ := abs_le.1 hnear
  rcases hy with habove | hbelow | ⟨hlt, hle⟩
  · have hfar : 1 / 2 * w ≤ |x - y| := by linarith [neg_le_abs (x - y)]
    exact ⟨hnear.trans hfar, fun heq => le_antisymm hnear (heq ▸ hfar)⟩
  · have hfar : 1 / 2 * w ≤ |x - y| := by linarith [le_abs_self (x - y)]
    exact ⟨hnear.trans hfar, fun heq => le_antisymm hnear (heq ▸ hfar)⟩
  · have hfar : |x - u| < |x - y| := by
      rw [abs_of_nonneg (sub_nonneg.2 hle)]
      linarith [le_abs_self (x - y)]
    exact ⟨hfar.le, fun heq => absurd heq hfar.ne⟩

/-- A finite rounded magnitude is nearest to the exact one, and even where another is as near. -/
theorem roundMagnitude_nearest {num den m : Nat} (h : 0 < den) (hfin : roundMagnitude num den < 0x7F800000)
    (hm : m ≠ roundMagnitude num den) :
    |(num : ℚ) / den - magnitudeUnits (roundMagnitude num den)| ≤ |(num : ℚ) / den - magnitudeUnits m| ∧
      (|(num : ℚ) / den - magnitudeUnits (roundMagnitude num den)| = |(num : ℚ) / den - magnitudeUnits m| →
        roundMagnitude num den % 2 = 0) := by
  have hd : (0 : ℚ) < den := by exact_mod_cast h
  rw [roundMagnitude_of_lt hfin] at hm ⊢
  rw [magnitudeUnits_round h]
  push_cast
  obtain ⟨hnear, htie⟩ := roundSignificand_near (num := num) h
  have hspacing : (roundSignificand num den : ℚ) * 2 ^ roundShift num den + 2 ^ roundShift num den ≤ magnitudeUnits m ∨
      (magnitudeUnits m : ℚ) + 2 ^ roundShift num den ≤ roundSignificand num den * 2 ^ roundShift num den ∨
        (magnitudeUnits m : ℚ) < roundSignificand num den * 2 ^ roundShift num den ∧
          (roundSignificand num den : ℚ) * 2 ^ roundShift num den ≤ num / den := by
    rcases Nat.lt_or_gt_of_ne hm with hlt | hgt
    · rcases add_round_le_of_lt h hlt with hle | ⟨hless, hle⟩
      · exact .inr (.inl (by exact_mod_cast hle))
      · exact .inr (.inr ⟨by exact_mod_cast hless, (le_div_iff₀ hd).2 (by exact_mod_cast hle)⟩)
    · exact .inl (by exact_mod_cast round_add_le_of_lt h hgt)
  obtain ⟨hle, heq⟩ := nearest_of_spacing hnear hspacing
  refine ⟨hle, fun he => ?_⟩
  have := htie (heq he)
  omega

/-- Settles O54: the overflow threshold, and the nearest multiple of the binade's spacing. -/
theorem roundsToNearestEven : Obligations.RoundsToNearestEven := by
  intro num den h
  refine ⟨roundMagnitude_eq_infinity_iff h, fun hfin m hfinite hm => ?_⟩
  rw [f32Units_pack_eq (roundMagnitude_lt num den), f32Units_pack_eq (hfinite.trans (by norm_num))]
  exact roundMagnitude_nearest h hfin hm

end Sys2Proof.Machine
end

section
namespace Sys2Proof.Machine

/-! A finite result is the binary32 nearest to the exact one (00_scope R12, R13). An exact result is a sign and a
magnitude `num / den` in units of 2^-149; the operations pack the sign with the rounded magnitude. -/

/-- The sign of a packed word. -/
theorem f32Sign_pack {neg : Bool} {m : Nat} (h : m < 2 ^ 31) : f32Sign (f32Pack neg m) = if neg then -1 else 1 := by
  rw [f32Sign, f32Negative_pack h]

/-- The product of two words' signs is that of the exclusive or of their sign bits. -/
theorem f32Sign_mul (a b : F32) :
    f32Sign a * f32Sign b = if (f32Negative a != f32Negative b) = true then -1 else 1 := by
  unfold f32Sign
  cases f32Negative a <;> cases f32Negative b <;> norm_num

theorem abs_f32Sign (w : F32) : |f32Sign w| = 1 := by
  unfold f32Sign
  split_ifs <;> norm_num

theorem f32Sign_mul_self (w : F32) : f32Sign w * f32Sign w = 1 := by
  unfold f32Sign
  split_ifs <;> norm_num

/-- A packed word is finite exactly when its magnitude is below infinity's. -/
theorem f32Finite_pack {neg : Bool} {m : Nat} (h : m < 2 ^ 31) :
    f32Finite (f32Pack neg m) = true ↔ m < 0x7F800000 := by
  rw [f32Finite_iff, f32Pack_toNat h]
  cases neg <;> simp only [Bool.false_eq_true, if_true, if_false] <;> omega

/-- `|real(v)|`, from the low 31 bits of the word. -/
theorem abs_f32Real (w : F32) : |f32Real w| = (magnitudeUnits (w.toNat % 2 ^ 31) : ℚ) / 2 ^ 149 := by
  rw [f32Real_eq_units, abs_mul, abs_f32Sign, one_mul, f32Units_eq_magnitudeUnits, abs_of_nonneg (by positivity)]

/-- No magnitude is nearer to the exact one than a finite rounded magnitude. -/
theorem roundMagnitude_nearest_le {num den : Nat} (h : 0 < den) (hfin : roundMagnitude num den < 0x7F800000)
    (m : Nat) : |magnitudeUnits (roundMagnitude num den) - (num : ℚ) / den| ≤ |magnitudeUnits m - (num : ℚ) / den| := by
  by_cases heq : m = roundMagnitude num den
  · rw [heq]
  · rw [abs_sub_comm, abs_sub_comm (magnitudeUnits m : ℚ)]
    exact (roundMagnitude_nearest h hfin heq).1

/-- A sign packed with a rounded magnitude, where that is finite, is no farther from the exact value than any word: a
word's own sign can only take it farther. -/
theorem pack_round_nearest {neg : Bool} {num den : Nat} {r : F32} {x : ℚ} (h : 0 < den)
    (hr : f32Pack neg (roundMagnitude num den) = r) (hfin : f32Finite r = true)
    (hx : x = (if neg then -1 else 1) * ((num : ℚ) / den / 2 ^ 149)) (y : F32) :
    |f32Real r - x| ≤ |f32Real y - x| := by
  subst hr
  rw [f32Finite_pack (roundMagnitude_lt _ _)] at hfin
  have hsign : |(if neg then -1 else 1 : ℚ)| = 1 := by cases neg <;> norm_num
  have habs : |x| = (num : ℚ) / den / 2 ^ 149 := by
    rw [hx, abs_mul, hsign, one_mul, abs_of_nonneg (by positivity)]
  have hpos : (0 : ℚ) < 2 ^ 149 := by positivity
  calc |f32Real (f32Pack neg (roundMagnitude num den)) - x|
      = |magnitudeUnits (roundMagnitude num den) - (num : ℚ) / den| / 2 ^ 149 := by
        rw [f32Real_eq_units, f32Sign_pack (roundMagnitude_lt _ _), f32Units_pack_eq (roundMagnitude_lt _ _), hx,
          ← mul_sub, abs_mul, hsign, one_mul, ← sub_div, abs_div, abs_of_pos hpos]
    _ ≤ |magnitudeUnits (y.toNat % 2 ^ 31) - (num : ℚ) / den| / 2 ^ 149 :=
        div_le_div_of_nonneg_right (roundMagnitude_nearest_le h hfin _) hpos.le
    _ = |(|f32Real y| - |x|)| := by rw [abs_f32Real, habs, ← sub_div, abs_div, abs_of_pos hpos]
    _ ≤ |f32Real y - x| := abs_abs_sub_abs_le _ _

/-- The other sign bit: the same magnitude, so the same finiteness, and the opposite value. -/
theorem f32Negative_negate (w : F32) : f32Negative (f32Negate w) = !f32Negative w :=
  f32Negative_pack (Nat.mod_lt _ (by norm_num))

theorem f32Exponent_negate (w : F32) : f32Exponent (f32Negate w) = f32Exponent w := by
  rw [f32Negate, f32Exponent_pack (Nat.mod_lt _ (by norm_num)), f32Exponent]
  omega

theorem f32Fraction_negate (w : F32) : f32Fraction (f32Negate w) = f32Fraction w := by
  rw [f32Negate, f32Fraction_pack (Nat.mod_lt _ (by norm_num)), f32Fraction]
  omega

theorem f32Finite_negate (w : F32) : f32Finite (f32Negate w) = f32Finite w := by
  rw [f32Finite, f32Finite, f32Exponent_negate]

theorem f32Real_negate (w : F32) : f32Real (f32Negate w) = -f32Real w := by
  have hsign : f32Sign (f32Negate w) = -f32Sign w := by
    unfold f32Sign
    rw [f32Negative_negate]
    cases f32Negative w <;> norm_num
  rw [f32Real_eq_units, f32Real_eq_units, hsign, f32Negate, f32Units_magnitude, neg_mul]

/-- A sum is its size with the sign `binary32Add` packs, whichever sign a zero sum gets. -/
theorem sum_eq_sign_mul_natAbs (sum : ℤ) (zeroSign : Bool) :
    (sum : ℚ) = (if (if sum = 0 then zeroSign else decide (sum < 0)) then -1 else 1) * (sum.natAbs : ℚ) := by
  rw [Nat.cast_natAbs, Int.cast_abs]
  rcases lt_trichotomy sum 0 with hneg | rfl | hpos
  · have hneg' : (sum : ℚ) < 0 := by exact_mod_cast hneg
    simp [hneg, hneg.ne, abs_of_neg hneg']
  · simp
  · have hpos' : (0 : ℚ) < sum := by exact_mod_cast hpos
    simp [hpos.ne', hpos.not_gt, abs_of_pos hpos']

section
variable {a b r : F32} (ha : f32Finite a = true) (hb : f32Finite b = true) (hr : f32Finite r = true)
include ha hb hr

theorem binary32Add_nearest (h : binary32Add a b = some r) (y : F32) :
    |f32Real r - (f32Real a + f32Real b)| ≤ |f32Real y - (f32Real a + f32Real b)| := by
  rw [binary32Add_finite ha hb, Option.some.injEq] at h
  refine pack_round_nearest one_pos h hr ?_ y
  rw [f32Real_eq_scaled, f32Real_eq_scaled, ← add_div, ← Int.cast_add, Nat.cast_one, div_one, ← mul_div_assoc,
    ← sum_eq_sign_mul_natAbs]

theorem binary32Sub_nearest (h : binary32Sub a b = some r) (y : F32) :
    |f32Real r - (f32Real a - f32Real b)| ≤ |f32Real y - (f32Real a - f32Real b)| := by
  rw [sub_eq_add_neg (f32Real a), ← f32Real_negate]
  exact binary32Add_nearest ha ((f32Finite_negate b).trans hb) hr h y

theorem binary32Mul_nearest (h : binary32Mul a b = some r) (y : F32) :
    |f32Real r - f32Real a * f32Real b| ≤ |f32Real y - f32Real a * f32Real b| := by
  rw [binary32Mul_finite ha hb, Option.some.injEq] at h
  refine pack_round_nearest (by positivity) h hr ?_ y
  rw [f32Real_eq_units, f32Real_eq_units, mul_mul_mul_comm, f32Sign_mul]
  push_cast
  ring

theorem binary32Div_nearest (h : binary32Div a b = some r) (h0 : f32Real b ≠ 0) (y : F32) :
    |f32Real r - f32Real a / f32Real b| ≤ |f32Real y - f32Real a / f32Real b| := by
  have hunits : f32Units b ≠ 0 := by
    intro hu
    rw [f32Real_eq_units, hu, Nat.cast_zero, zero_div, mul_zero] at h0
    exact h0 rfl
  rw [binary32Div_finite ha hb hunits, Option.some.injEq] at h
  refine pack_round_nearest (Nat.pos_of_ne_zero hunits) h hr ?_ y
  have hinv : (f32Sign b)⁻¹ = f32Sign b := inv_eq_of_mul_eq_one_left (f32Sign_mul_self b)
  have hpow : (2 : ℚ) ^ 149 ≠ 0 := by positivity
  rw [f32Real_eq_units, f32Real_eq_units, mul_div_mul_comm, div_eq_mul_inv (f32Sign a), hinv, f32Sign_mul,
    div_div_div_cancel_right₀ hpow, div_right_comm, Nat.cast_mul, Nat.cast_pow, Nat.cast_ofNat,
    mul_div_cancel_right₀ _ hpow]

end

/-- Settles O55: each operation packs a sign with the rounded magnitude of its exact result. -/
theorem arithmeticIsNearest : Obligations.ArithmeticIsNearest :=
  fun _ _ _ y ha hb hr _ => ⟨fun h => binary32Add_nearest ha hb hr h y, fun h => binary32Sub_nearest ha hb hr h y,
    fun h => binary32Mul_nearest ha hb hr h y, fun h h0 => binary32Div_nearest ha hb hr h h0 y⟩

end Sys2Proof.Machine
end

section
namespace Sys2Proof.Machine

/-! The identities of 00_scope R13. -/

theorem f32IsInf_iff {w : F32} : f32IsInf w = true ↔ w.toNat % 2 ^ 31 = 0x7F800000 := by
  unfold f32IsInf f32Exponent f32Fraction
  simp only [Bool.and_eq_true, beq_iff_eq]
  omega

/-- A word is finite, an infinity or a NaN (00_scope R12). -/
theorem f32_finite_or_inf {w : F32} (h : f32IsNaN w = false) : f32Finite w = true ∨ f32IsInf w = true := by
  unfold f32IsNaN at h
  unfold f32Finite f32IsInf
  by_cases he : f32Exponent w = 255 <;> simp_all

/-- An infinity is the one of its sign. -/
theorem f32Infinity_negative {w : F32} (h : f32IsInf w = true) : f32Infinity (f32Negative w) = w := by
  rw [f32Infinity, ← f32IsInf_iff.1 h, f32Pack_word]

theorem f32IsInf_not_nan {w : F32} (h : f32IsInf w = true) : f32IsNaN w = false := by
  unfold f32IsInf at h
  unfold f32IsNaN
  simp_all

theorem f32IsInf_not_finite {w : F32} (h : f32IsInf w = true) : f32Finite w = false := by
  unfold f32IsInf at h
  unfold f32Finite
  simp_all

/-- A finite word without units is the zero of its sign. -/
theorem f32Pack_of_units_zero {w : F32} (hw : f32Finite w = true) (h : f32Units w = 0) :
    f32Pack (f32Negative w) 0 = w := by
  have hround := f32Pack_roundMagnitude hw one_pos
  rwa [h, Nat.zero_mul, roundMagnitude_zero] at hround

theorem f32Scaled_eq_zero_iff {w : F32} : f32Scaled w = 0 ↔ f32Units w = 0 := by
  unfold f32Scaled
  split_ifs <;> omega

theorem f32Scaled_natAbs (w : F32) : (f32Scaled w).natAbs = f32Units w := by
  unfold f32Scaled
  split_ifs <;> omega

theorem f32Scaled_neg_iff {w : F32} : f32Scaled w < 0 ↔ f32Negative w = true ∧ f32Units w ≠ 0 := by
  unfold f32Scaled
  split_ifs with h <;> simp [h]
  omega

/-- A finite number that is not zero times an infinity is an infinity. -/
theorem binary32Mul_infinity {a b : F32} (ha : f32Finite a = true) (h0 : f32Units a ≠ 0) (hb : f32IsInf b = true) :
    binary32Mul a b = some (f32Infinity (f32Negative a != f32Negative b)) := by
  unfold binary32Mul
  simp [f32Finite_not_nan ha, f32IsInf_not_nan hb, f32IsInf_not_finite hb, hb, h0]

/-- A finite number and an infinity add up to that infinity. -/
theorem binary32Add_infinity {a b : F32} (ha : f32Finite a = true) (hb : f32IsInf b = true) :
    binary32Add a b = some b := by
  unfold binary32Add
  simp [f32Finite_not_nan ha, f32Finite_not_inf ha, f32IsInf_not_nan hb, hb]

/-- The fields of `1.0`. -/
theorem one_fields : f32Negative 0x3F800000 = false ∧ f32Finite 0x3F800000 = true ∧ f32Units 0x3F800000 = 2 ^ 149 := by
  decide +kernel

/-- The fields of `+0.0`. -/
theorem zero_fields : f32Negative 0 = false ∧ f32Finite 0 = true ∧ f32Units 0 = 0 := by decide +kernel

/-- `1.0 * x = x`. -/
theorem binary32Mul_one {x : F32} (h : f32IsNaN x = false) : binary32Mul 0x3F800000 x = some x := by
  obtain ⟨hneg, hfin, hunits⟩ := one_fields
  rcases f32_finite_or_inf h with hx | hx
  · rw [binary32Mul_finite hfin hx, hneg, Bool.false_bne, hunits, Nat.mul_comm,
      f32Pack_roundMagnitude hx (by positivity)]
  · have h0 : f32Units 0x3F800000 ≠ 0 := by
      rw [hunits]
      positivity
    rw [binary32Mul_infinity hfin h0 hx, hneg, Bool.false_bne, f32Infinity_negative hx]

/-- The sign `binary32Add` packs for `+0.0 + x` is that of `x`, where `x` is not `-0.0`. -/
theorem sign_of_scaled {x : F32} (hx : f32Finite x = true) (h0 : x ≠ 0x80000000) :
    (if f32Scaled x = 0 then false else decide (f32Scaled x < 0)) = f32Negative x := by
  split_ifs with hzero
  · cases hneg : f32Negative x
    · rfl
    · have hword := f32Pack_of_units_zero hx (f32Scaled_eq_zero_iff.1 hzero)
      rw [hneg] at hword
      exact absurd hword.symm h0
  · have hunits : f32Units x ≠ 0 := mt f32Scaled_eq_zero_iff.2 hzero
    cases hneg : f32Negative x <;> simp [f32Scaled_neg_iff, hneg, hunits]

/-- `+0.0 + x = x`, where `x` is not `-0.0`. -/
theorem binary32Add_zero {x : F32} (h : f32IsNaN x = false) (h0 : x ≠ 0x80000000) : binary32Add 0 x = some x := by
  obtain ⟨hneg, hfin, hunits⟩ := zero_fields
  rcases f32_finite_or_inf h with hx | hx
  · rw [binary32Add_finite hfin hx, f32Scaled_eq_zero_iff.2 hunits, zero_add, hneg, Bool.false_and,
      sign_of_scaled hx h0, f32Scaled_natAbs, ← Nat.mul_one (f32Units x), f32Pack_roundMagnitude hx one_pos]
  · exact binary32Add_infinity hfin hx

/-- `x * +0.0` is a zero. -/
theorem binary32Mul_zero {x : F32} (h : f32Finite x = true) :
    binary32Mul x 0 = some 0 ∨ binary32Mul x 0 = some 0x80000000 := by
  obtain ⟨-, hfin, hunits⟩ := zero_fields
  rw [binary32Mul_finite h hfin, hunits, Nat.mul_zero, roundMagnitude_zero]
  cases f32Negative x != f32Negative 0
  · exact .inl rfl
  · exact .inr rfl

/-- An exact magnitude that is a whole number of spacings rounds to itself. -/
theorem magnitudeUnits_roundMagnitude_of_dvd {num : Nat} (h : 2 ^ roundShift num 1 ∣ num)
    (hfin : roundMagnitude num 1 < 0x7F800000) : magnitudeUnits (roundMagnitude num 1) = num := by
  obtain ⟨q, hq⟩ := h
  have hsig : roundSignificand num 1 = q := by
    unfold roundSignificand
    generalize roundShift num 1 = s at *
    rw [one_mul, hq, Nat.mul_comm, roundHalfEven_exact (by positivity)]
  rw [roundMagnitude_of_lt hfin, magnitudeUnits_round one_pos, hsig, Nat.mul_comm, ← hq]

/-- `u2f(n)` is finite and exact below 2^16. -/
theorem binary32OfNat_exact {n : Nat} (h : n < 65536) :
    f32Finite (binary32OfNat n) = true ∧ f32Real (binary32OfNat n) = n := by
  have hlt : n * 2 ^ 149 < 2 ^ 165 := by
    rw [show 165 = 16 + 149 from rfl, pow_add]
    exact Nat.mul_lt_mul_of_pos_right h (by positivity)
  have hshift : roundShift (n * 2 ^ 149) 1 ≤ 149 := by
    unfold roundShift
    rw [Nat.div_one]
    rcases Nat.eq_zero_or_pos n with rfl | hn
    · rw [Nat.zero_mul, Nat.log2_zero]
      omega
    · have := (Nat.log2_lt (by positivity)).2 hlt
      omega
  have hfin : roundMagnitude (n * 2 ^ 149) 1 < 0x7F800000 := by
    have := roundSignificand_le (num := n * 2 ^ 149) one_pos
    rw [roundMagnitude_eq]
    omega
  have hexact := magnitudeUnits_roundMagnitude_of_dvd ((pow_dvd_pow 2 hshift).trans (Nat.dvd_mul_left _ _)) hfin
  unfold binary32OfNat
  refine ⟨(f32Finite_pack (roundMagnitude_lt _ _)).2 hfin, ?_⟩
  rw [f32Real_eq_units, f32Sign_pack (roundMagnitude_lt _ _), f32Units_pack_eq (roundMagnitude_lt _ _), hexact,
    if_neg Bool.false_ne_true, one_mul, Nat.cast_mul, Nat.cast_pow, Nat.cast_ofNat,
    mul_div_cancel_right₀ _ (by positivity)]

/-- Settles O56: one lemma for each identity. -/
theorem numericsIdentities : Obligations.NumericsIdentities :=
  ⟨fun _ => binary32Mul_one, fun _ => binary32Add_zero, fun _ => binary32Mul_zero, fun _ => binary32OfNat_exact⟩

end Sys2Proof.Machine
end

section
namespace Sys2Proof.Machine

/-! NaNs (00_scope R14): which word a free value gives, and the operations whose result is some NaN. -/

/-- The fraction `nanWord` picks is never 0. -/
theorem nanFraction_bounds (b : Word) : 0 < (if f32Fraction b = 0 then 1 else f32Fraction b) ∧
    (if f32Fraction b = 0 then 1 else f32Fraction b) < 2 ^ 23 := by
  have := f32Fraction_lt b
  split_ifs <;> omega

theorem nanWord_isNaN (b : Word) : f32IsNaN (nanWord b) = true := by
  obtain ⟨hpos, hlt⟩ := nanFraction_bounds b
  unfold nanWord
  generalize (if f32Fraction b = 0 then 1 else f32Fraction b) = fraction at *
  rw [f32IsNaN, f32Exponent_pack (by omega), f32Fraction_pack (by omega)]
  simp only [Bool.and_eq_true, beq_iff_eq, bne_iff_ne, ne_eq]
  omega

/-- A NaN word picks itself. -/
theorem nanWord_of_nan {w : F32} (h : f32IsNaN w = true) : nanWord w = w := by
  simp only [f32IsNaN, Bool.and_eq_true, beq_iff_eq, bne_iff_ne, ne_eq] at h
  obtain ⟨hexp, hfrac⟩ := h
  have hmag : 255 * 2 ^ 23 + f32Fraction w = w.toNat % 2 ^ 31 := by
    unfold f32Exponent at hexp
    unfold f32Fraction
    omega
  rw [nanWord, if_neg hfrac, hmag, f32Pack_word]

theorem f32IsNaN_negate (w : F32) : f32IsNaN (f32Negate w) = f32IsNaN w := by
  rw [f32IsNaN, f32IsNaN, f32Exponent_negate, f32Fraction_negate]

theorem f32IsInf_negate (w : F32) : f32IsInf (f32Negate w) = f32IsInf w := by
  rw [f32IsInf, f32IsInf, f32Exponent_negate, f32Fraction_negate]

section
variable {a b : F32}

/-! A NaN operand. -/

theorem binary32Add_nan (h : f32IsNaN a = true ∨ f32IsNaN b = true) : binary32Add a b = none := by
  unfold binary32Add
  exact if_pos (Bool.or_eq_true_iff.2 h)

theorem binary32Sub_nan (h : f32IsNaN a = true ∨ f32IsNaN b = true) : binary32Sub a b = none :=
  binary32Add_nan (f32IsNaN_negate b ▸ h)

theorem binary32Mul_nan (h : f32IsNaN a = true ∨ f32IsNaN b = true) : binary32Mul a b = none := by
  unfold binary32Mul
  exact if_pos (Bool.or_eq_true_iff.2 h)

theorem binary32Div_nan (h : f32IsNaN a = true ∨ f32IsNaN b = true) : binary32Div a b = none := by
  unfold binary32Div
  exact if_pos (Bool.or_eq_true_iff.2 h)

/-! Invalid operations. -/

theorem binary32Add_opposite_infinities (ha : f32IsInf a = true) (hb : f32IsInf b = true)
    (hs : f32Negative a ≠ f32Negative b) : binary32Add a b = none := by
  unfold binary32Add
  simp [f32IsInf_not_nan ha, f32IsInf_not_nan hb, ha, hb, hs]

theorem binary32Sub_same_infinities (ha : f32IsInf a = true) (hb : f32IsInf b = true)
    (hs : f32Negative a = f32Negative b) : binary32Sub a b = none :=
  binary32Add_opposite_infinities ha ((f32IsInf_negate b).trans hb) (by
    rw [f32Negative_negate, hs]
    exact (Bool.not_ne_self _).symm)

theorem binary32Div_infinities (ha : f32IsInf a = true) (hb : f32IsInf b = true) : binary32Div a b = none := by
  unfold binary32Div
  simp [f32IsInf_not_nan ha, f32IsInf_not_nan hb, ha, hb]

theorem binary32Mul_zero_infinity (ha : f32Finite a = true) (h0 : f32Units a = 0) (hb : f32IsInf b = true) :
    binary32Mul a b = none ∧ binary32Mul b a = none := by
  unfold binary32Mul
  simp [f32Finite_not_nan ha, f32IsInf_not_nan hb, ha, h0, hb]

theorem binary32Div_zeros (ha : f32Finite a = true) (h0 : f32Units a = 0) (hb : f32Finite b = true)
    (hb0 : f32Units b = 0) : binary32Div a b = none := by
  unfold binary32Div
  simp [f32Finite_not_nan ha, f32Finite_not_nan hb, f32Finite_not_inf ha, f32Finite_not_inf hb, h0, hb0]

/-! An operation whose result is some NaN gives the one its free value picks. -/

variable {c : Config.Numerics} (t : Nat)

theorem fadd_of_none (h : c.add a b = none) : fadd c t a b = nanWord (Config.freeWord t) := by
  rw [fadd, h, settle, Option.getD_none]

theorem fsub_of_none (h : c.sub a b = none) : fsub c t a b = nanWord (Config.freeWord t) := by
  rw [fsub, h, settle, Option.getD_none]

theorem fmul_of_none (h : c.mul a b = none) : fmul c t a b = nanWord (Config.freeWord t) := by
  rw [fmul, h, settle, Option.getD_none]

theorem fdiv_of_none (h : c.div a b = none) : fdiv c t a b = nanWord (Config.freeWord t) := by
  rw [fdiv, h, settle, Option.getD_none]

end

/-- Settles O57: a NaN picks itself, and each invalid case of the record has no result of its own. -/
theorem invalidGivesAnyNaN : Obligations.InvalidGivesAnyNaN := by
  refine ⟨nanWord_isNaN, fun w hw => ⟨w, nanWord_of_nan hw⟩, fun t a b => ⟨fun hnan => ?_, fun ha hb => ⟨?_, ?_⟩,
    fun ha h0 => ⟨fun hb => ?_, fun hb hb0 => ?_⟩⟩⟩
  · simp only [List.forall_mem_cons, List.not_mem_nil, false_implies, implies_true, and_true]
    exact ⟨fadd_of_none t (binary32Add_nan hnan), fsub_of_none t (binary32Sub_nan hnan),
      fmul_of_none t (binary32Mul_nan hnan), fdiv_of_none t (binary32Div_nan hnan)⟩
  · split_ifs with hs
    · exact fsub_of_none t (binary32Sub_same_infinities ha hb hs)
    · exact fadd_of_none t (binary32Add_opposite_infinities ha hb hs)
  · exact fdiv_of_none t (binary32Div_infinities ha hb)
  · obtain ⟨hab, hba⟩ := binary32Mul_zero_infinity ha h0 hb
    exact ⟨fmul_of_none t hab, fmul_of_none t hba⟩
  · exact fdiv_of_none t (binary32Div_zeros ha h0 hb hb0)

end Sys2Proof.Machine
end

section
namespace Sys2Proof.Machine

/-! Every step keeps the invariant (10_state R35 to R37, R43). -/

/-- What holds of a discarded transaction, of one that raised a code and of one that did its work holds of its next
state (60_exceptions R142, R145). -/
theorem State.transact_induct {P : State → Prop} {s t : State} {c : Option ErrCode} {w : StepResult}
    (h : s.transact c w = .next t) (hdiscard : P (s.discard none)) (hraise : ∀ code, P (s.raise code none))
    (hwork : c = none → w = .next t → P t) : P t := by
  obtain ⟨-, rfl⟩ | ⟨-, code, -, rfl⟩ | ⟨-, hc, hw⟩ := State.transact_next h
  · exact hdiscard
  · exact hraise code
  · exact hwork hc hw

/-- A transaction keeps the invariant when its work does wherever no check fails. -/
theorem State.Inv.transact {s t : State} (h : s.Inv) {c : Option ErrCode} {w : StepResult}
    (hn : s.transact c w = .next t) (hwork : c = none → w = .next t → t.Inv) : t.Inv :=
  State.transact_induct hn (h.discard none) (fun code => h.raise code none) hwork

/-! The memories the commands leave. -/

/-- A span written at the write cursor keeps the ring canonical and inside its space (42_bulk R113, R115). -/
theorem State.Inv.writeSpan {s : State} (h : s.Inv) (hp : s.prepared = true) {ch n : Nat}
    (hn : n ≤ s.cfgBlock.toNat) (val : Nat → Memory → F32) :
    (s.putRing (upTo (fun k m => ringWrite m (s.delayChannel ch) (s.writeIndex n k) (val k m)) n s.ring)).Inv := by
  have g := h.geometry hp
  have hindex : ∀ k, k < n → s.writeIndex n k < s.len := fun k hk => by
    rw [State.writeIndex_eq g.write_lt (hn.trans g.block_le) hk]
    exact s.writeSpan_lt (Nat.zero_lt_of_lt g.write_lt) k
  obtain ⟨hwf, hin⟩ := upTo_induct
    (fun _ m => Memory.wf (fillOf .ring) m ∧ Memory.Within (2 ^ 32) s.cfgNch.toNat s.len m)
    ⟨h.ring_wf, h.ring_within⟩ fun k m hk hm =>
      ⟨ringWrite_wf (s.delayChannel ch) (s.writeIndex n k) (val k m) hm.1,
        hm.2.ringWrite (s.delayChannel_lt ch g.channels_pos) (hindex k hk) ((hindex k hk).trans s.len_lt)⟩
  exact h.putRing hwf hin

/-- The words BRD writes keep the scratch canonical and inside its space (42_bulk R114). -/
theorem State.Inv.brdWrites {s : State} (h : s.Inv) (hp : s.prepared = true) {ch n : Nat}
    (hn : n ≤ s.cfgBlock.toNat) : (s.putWet (upTo (s.brdElement ch n) n s.wet)).Inv := by
  have g := h.geometry hp
  have hblock : s.cfgBlock.toNat ≤ 65535 := g.block_max.trans h.conf.2.1.2
  obtain ⟨hwf, hin⟩ := upTo_induct (f := s.brdElement ch n) (n := n)
    (fun _ m => Memory.wf (fillOf .wet) m ∧ Memory.Within 65536 s.cfgNch.toNat s.cfgBlock.toNat m)
    ⟨h.wet_wf, h.wet_within⟩ fun k m hk hm =>
      ⟨wetWrite_wf (s.delayChannel ch) k _ hm.1,
        hm.2.wetWrite (s.delayChannel_lt ch g.channels_pos) (by omega) (by omega)⟩
  exact h.putWet hwf hin

/-- The state PROC leaves is good (41_process R101, R104, R105). -/
theorem State.Inv.processed {s : State} (h : s.Inv) (hp : s.prepared = true) {nout nin n : Nat}
    (hready : blkReady (max nin nout) n = true) : (s.processed nout nin n).Inv := by
  obtain ⟨hchannels, hn⟩ := (blkReady_iff _ _).1 hready
  obtain ⟨hin, hout⟩ := max_le_iff.1 hchannels
  obtain ⟨hnch, -, hw, hr⟩ := (State.ringReady_iff s).1 (h.ready hp)
  have x := MixPos.Good.channels h.ring_wf h.blk_wf h.ring_within h.blk_within hnch hr hw hin hn
  obtain ⟨hwf, hwithin⟩ := clearChannels_good (nin := nin) x.blk_wf x.blk_within hout hn
  exact ((((h.putRing x.ring_wf x.ring_within).putBlk hwf hwithin).putCursors hp n).drawn _).finish none

/-! Each operation. -/

theorem State.Inv.execPrep_keeps {s t : State} (h : s.Inv) (hn : execPrep s = .next t) : t.Inv :=
  h.transact hn fun hc hw => by
    obtain ⟨hset, haccepts⟩ := prepCheck_none hc
    obtain ⟨-, hle, rfl⟩ := retuning_next hw
    exact (h.configure hset haccepts rfl rfl hle).finish none

theorem State.Inv.execProc_keeps {s t : State} (h : s.Inv) {nout nin n : Nat} (hn : execProc nout nin n s = .next t) :
    t.Inv :=
  h.transact hn fun hc hw => by
    obtain ⟨-, hready, rfl⟩ := State.touching_next hw
    exact h.processed (procCheck_none hc).1 hready

/-- A bulk copy keeps the invariant when what it writes does. -/
theorem State.Inv.bulk {s t u : State} (h : s.Inv) {ch n : Nat}
    (hn : s.transact (s.bulkCheck n) (s.touching (ch + 1) n ((u.drawn (bulkDraws n)).finish none)) = .next t)
    (hu : s.prepared = true → n ≤ s.cfgBlock.toNat → u.Inv) : t.Inv :=
  h.transact hn fun hc hw => by
    obtain ⟨hp, -, hblock⟩ := bulkCheck_none hc
    obtain ⟨-, -, rfl⟩ := State.touching_next hw
    exact ((hu hp hblock).drawn _).finish none

theorem State.Inv.execBwr_keeps {s t : State} (h : s.Inv) {ch n : Nat} {src : Source}
    (hn : execBwr ch src n s = .next t) : t.Inv :=
  h.bulk hn fun hp hblock => h.writeSpan hp hblock fun k _ => s.scaledSource ch src n k

theorem State.Inv.execBrd_keeps {s t : State} (h : s.Inv) {ch n : Nat} (hn : execBrd ch n s = .next t) : t.Inv :=
  h.bulk hn fun hp hblock => h.brdWrites hp hblock

theorem State.Inv.execBadd_keeps {s t : State} (h : s.Inv) {ch n : Nat} {src : Source}
    (hn : execBadd ch src n s = .next t) : t.Inv :=
  h.bulk hn fun hp hblock => h.writeSpan hp hblock fun k m =>
    fadd s.numerics (bulkDraw s.draws k + 2) (ringRead m (s.delayChannel ch) (s.writeIndex n k))
      (s.scaledSource ch src n k)

theorem State.Inv.execAdv_keeps {s t : State} (h : s.Inv) {n : Nat} (hn : execAdv n s = .next t) : t.Inv :=
  h.transact hn fun hc hw => by
    obtain ⟨-, -, rfl⟩ := retuning_next hw
    exact (h.putCursors (advCheck_none hc) n).finish none

theorem State.Inv.execSetdt_keeps {s t : State} (h : s.Inv) {p : Port} {v : F32} (hn : execSetdt p v s = .next t) :
    t.Inv := by
  obtain ⟨-, rfl⟩ | ⟨-, -, rfl⟩ | ⟨-, hv, hp, rfl⟩ | ⟨-, hv, hp, -, hle, rfl⟩ := execSetdt_next hn
  · exact h.discard none
  · exact h.raise _ none
  · exact (h.putDelayTime hp hv).finish none
  · exact (h.retune hp hv rfl hle).finish none

/-- A mix setter keeps the invariant when storing a legal value does. -/
theorem State.Inv.mixSetter {s t put : State} (h : s.Inv) {v : F32}
    (hn : s.transact (mixCheck v) (.next (put.finish none)) = .next t) (hput : legalMix v = true → put.Inv) :
    t.Inv := by
  obtain ⟨-, rfl⟩ | ⟨-, -, rfl⟩ | ⟨-, hv, rfl⟩ := mixSetter_next hn
  · exact h.discard none
  · exact h.raise _ none
  · exact (hput hv).finish none

/-- Every operation keeps the invariant. -/
theorem State.Inv.exec_keeps {s t : State} (h : s.Inv) {i : Instr} (hn : exec i s = .next t) : t.Inv := by
  cases i with
  | nop =>
    obtain ⟨-, rfl⟩ | ⟨-, rfl⟩ := execNop_next hn
    · exact h.discard none
    · exact h.finish none
  | rst => cases hn; exact h.softReset.finish none
  | prep => exact h.execPrep_keeps hn
  | proc nout nin n => exact h.execProc_keeps hn
  | bwr ch src n => exact h.execBwr_keeps hn
  | brd ch n => exact h.execBrd_keeps hn
  | badd ch src n => exact h.execBadd_keeps hn
  | adv n => exact h.execAdv_keeps hn
  | setdt p v => exact h.execSetdt_keeps (p := p) hn
  | setdry p v => exact h.mixSetter hn h.putDryMix
  | setwet p v => exact h.mixSetter hn h.putWetMix
  | setfb p v => exact h.mixSetter hn h.putFeedback

/-! Each event that is no operation. -/

theorem State.Inv.refuse {s : State} (h : s.Inv) (code : ErrCode) (data : Option Word) : (s.refuse code data).Inv := by
  unfold State.refuse
  split_ifs
  · exact h.discard data
  · exact h.raise code data

theorem State.Inv.writeOperand {s : State} (h : s.Inv) (r : OperandReg) (v : Word) : (s.writeOperand r v).Inv := by
  unfold State.writeOperand
  split_ifs
  · exact h.discard none
  · exact (h.putOperand r v).finish none

theorem State.Inv.readWindow {s : State} (h : s.Inv) (c k : Nat) : (s.readWindow c k).Inv := by
  unfold State.readWindow
  split_ifs
  · split
    · exact h.finish _
    · exact (h.drawn 1).finish _
  · exact h.refuse _ _

/-- A host write of a block word (20_memory R64). -/
theorem State.Inv.hostBlk {s : State} (h : s.Inv) (ch : BitVec 4) (i : BitVec 16) (v : Word) :
    (s.putBlk (blkWrite s.blk ch.toNat i.toNat v)).Inv :=
  h.putBlk (blkWrite_wf _ _ _ h.blk_wf) (h.blk_within.blkWrite ch.isLt i.isLt i.isLt)

/-- What the engine answers without running an operation is good. -/
theorem State.Inv.answered {s t : State} (h : s.Inv) (hf : s.fetch = .answered t) : t.Inv := by
  obtain rfl | ⟨e, rest, -, ⟨code, d, rfl⟩ | ⟨r, v, rfl⟩ | ⟨r, rfl⟩ | ⟨c, k, rfl⟩ | ⟨ch, i, v, -, rfl⟩ |
    ⟨-, rfl⟩⟩ := fetch_answered hf
  · exact h.complete
  · exact (h.dequeue rest).refuse code d
  · exact (h.dequeue rest).writeOperand r v
  · exact ((h.dequeue rest).drawn _).finish _
  · exact (h.dequeue rest).readWindow c k
  · exact (h.dequeue rest).hostBlk ch i v
  · exact (h.dequeue rest).softReset

/-- Settles O11, by what the engine fetches: it waits, runs an operation on the state without the event, or answers. -/
theorem stepKeepsInvariant : Obligations.StepKeepsInvariant := by
  intro s t hs hstep
  obtain ⟨-, rfl⟩ | ⟨i, u, hf, hexec⟩ | hf := step_cases hstep
  · exact hs
  · obtain ⟨tr, rest, -, -, -, rfl⟩ := fetch_run hf
    exact (hs.dequeue rest).exec_keeps hexec
  · exact hs.answered hf

/-- Behind a cursor below `len`, the read cursor of delay `d` is `d` words back, round the ring (10_state R37). -/
theorem readCursor_trails {len wr d : Nat} (hw : wr < len) (hd : d ≤ len) :
    (wr + len - readCursor len wr d) % len = d % len := by
  unfold readCursor
  rcases Nat.lt_or_ge (wr + len - d) len with hlt | hge
  · rw [Nat.mod_eq_of_lt hlt, show wr + len - (wr + len - d) = d by omega]
  · have hback : (wr + len - d) % len = wr - d := by
      rw [show wr + len - d = wr - d + len by omega, Nat.add_mod_right, Nat.mod_eq_of_lt (by omega)]
    rw [hback, show wr + len - (wr - d) = d + len by omega, Nat.add_mod_right]

/-- Settles O13: the state after the step is good, so its cursors follow the law of its geometry. -/
theorem cursorLaw : Obligations.CursorLaw := by
  intro s t hs hstep hp
  have ht : t.Inv := stepKeepsInvariant s t hs hstep
  have g := ht.geometry hp
  obtain ⟨-, hblock, hw, hr⟩ := (State.ringReady_iff t).1 (ht.ready hp)
  refine ⟨g.read_law, ?_, hw, hr, hblock⟩
  rw [g.read_law]
  exact readCursor_trails hw (ht.delay_le hp)

/-- Settles O14: a legal delay time is at most two seconds. -/
theorem delayAtMostCapacity : Obligations.DelayAtMostCapacity := fun _ sr hdt _ => dsamp_le_cap hdt sr

end Sys2Proof.Machine
end

section
namespace Sys2Proof.Machine

/-! The reset state and the return to it (10_state R42; 40_init R91; 60_exceptions R147). -/

/-- The table of 10_state R42 holds of the reset state whatever BLK and the model's own fields hold. -/
theorem State.resetWith_keeping_atReset (l : Configuration) (blk : Memory) (inbox : List Event)
    (answer : Option Answer) (draws : Nat) :
    { State.resetWith l with blk := blk, inbox := inbox, answer := answer, draws := draws }.AtReset := by
  refine ⟨?_, rfl, rfl, rfl, ?_, ?_, fun _ _ => rfl⟩
  · simp [State.statusWord, State.errField]
  · simp [HostReg.unset]
  · simp

/-- Settles O9, from the table of the reset state with nothing kept. -/
theorem resetState : Obligations.ResetState :=
  ⟨fun l => ⟨State.resetWith_keeping_atReset l [] [] none 0, rfl⟩, rfl⟩

/-- Reset is taken at once, also while a command is in flight (20_memory R57; 10_state R42). -/
theorem step_presented_reset (s : State) : step (s.presented .reset) = .next s.softReset := by
  have hfetch : (s.presented .reset).fetch = .answered s.softReset := by
    simp [State.fetch, State.presented, Event.unheld, State.takeEvent, State.dequeue, State.softReset]
  rw [step, hfetch]

/-- Settles O18: RST and reset both leave the reset state, with what they keep read off its definition. -/
theorem rstRestoresReset : Obligations.RstRestoresReset := fun s =>
  ⟨⟨_, rfl, State.resetWith_keeping_atReset .., rfl, rfl, rfl, rfl, rfl⟩,
    ⟨_, step_presented_reset s, State.resetWith_keeping_atReset .., rfl, rfl, rfl, rfl, rfl⟩⟩

/-! What only PREP, RST and reset change (10_state R29, R34; 40_init R94). -/

/-- PREPARED, the geometry PREP latches and the configuration are the same in `s` and `t`. For an update with its
field lemmas, `{}` says so. -/
structure State.SameLatched (s t : State) : Prop where
  conf : t.conf = s.conf := by simp
  prepared : t.prepared = s.prepared := by simp
  bufLen : t.bufLen = s.bufLen := by simp
  cfgNch : t.cfgNch = s.cfgNch := by simp
  cfgBlock : t.cfgBlock = s.cfgBlock := by simp
  cfgSrLo : t.cfgSrLo = s.cfgSrLo := by simp
  cfgSrHi : t.cfgSrHi = s.cfgSrHi := by simp

/-- Taking the event off the inbox changes nothing latched. -/
theorem State.SameLatched.of_dequeue {s t : State} {rest : List Event} (h : (s.dequeue rest).SameLatched t) :
    s.SameLatched t := { h with }

/-- A transaction leaves what is latched when its work does. -/
theorem State.transact_sameLatched {s t : State} {c : Option ErrCode} {w : StepResult}
    (h : s.transact c w = .next t) (hwork : w = .next t → s.SameLatched t) : s.SameLatched t :=
  State.transact_induct h {} (fun _ => {}) fun _ => hwork

/-- A transaction whose work is the state `u` leaves what is latched when `u` does. -/
theorem State.transact_next_sameLatched {s t u : State} {c : Option ErrCode} (h : s.transact c (.next u) = .next t)
    (hu : s.SameLatched u) : s.SameLatched t :=
  State.transact_sameLatched h fun hw => by
    cases hw
    exact hu

/-- A command that touches ring words leaves what is latched when the state it makes does. -/
theorem State.touching_sameLatched {s t u : State} {c : Option ErrCode} {channels n : Nat}
    (h : s.transact c (s.touching channels n u) = .next t) (hu : s.SameLatched u) : s.SameLatched t :=
  State.transact_sameLatched h fun hw => by
    obtain ⟨-, -, rfl⟩ := State.touching_next hw
    exact hu

/-- PROC leaves what is latched (41_process R104). -/
theorem State.processed_sameLatched (s : State) (nout nin n : Nat) : s.SameLatched (s.processed nout nin n) := by
  rw [State.processed_eq]
  exact {}

/-- PREP, where it is done, sets PREPARED and keeps the configuration. -/
theorem execPrep_latched {s t : State} (h : execPrep s = .next t) :
    s.SameLatched t ∨ (t.conf = s.conf ∧ t.prepared = true) := by
  obtain ⟨-, rfl⟩ | ⟨-, code, -, rfl⟩ | ⟨-, -, -, -, rfl⟩ := execPrep_next h
  · exact .inl {}
  · exact .inl {}
  · exact .inr ⟨rfl, rfl⟩

/-- The delay and the read cursor are not latched. The rounded numbers stand as variables, so that nothing evaluates
them. -/
theorem State.retuned_sameLatched (s : State) (v : F32) (d rd : Nat) :
    s.SameLatched (((s.putDelayTime v).putDelay d rd).finish none) := {}

/-- SETDT leaves what is latched (43_parameters R126). -/
theorem execSetdt_sameLatched {s t : State} {p : Port} {v : F32} (h : execSetdt p v s = .next t) :
    s.SameLatched t := by
  obtain ⟨-, rfl⟩ | ⟨-, -, rfl⟩ | ⟨-, -, -, rfl⟩ | ⟨-, -, -, -, -, rfl⟩ := execSetdt_next h
  · exact {}
  · exact {}
  · exact {}
  · exact s.retuned_sameLatched v _ _

/-- What an operation can do to what is latched. -/
theorem exec_latched {i : Instr} {s t : State} (h : exec i s = .next t) :
    s.SameLatched t ∨ (t.conf = s.conf ∧ (i = .prep ∧ t.prepared = true ∨ i = .rst ∧ t.prepared = false)) := by
  cases i with
  | nop => exact .inl (State.transact_next_sameLatched (c := none) h {})
  | rst => cases h; exact .inr ⟨rfl, .inr ⟨rfl, rfl⟩⟩
  | prep => exact (execPrep_latched h).imp_right fun ⟨hconf, hp⟩ => ⟨hconf, .inl ⟨rfl, hp⟩⟩
  | proc nout nin n => exact .inl (State.touching_sameLatched h (s.processed_sameLatched nout nin n))
  | bwr ch src n => exact .inl (State.touching_sameLatched h {})
  | brd ch n => exact .inl (State.touching_sameLatched h {})
  | badd ch src n => exact .inl (State.touching_sameLatched h {})
  | adv n =>
    obtain ⟨-, rfl⟩ | ⟨-, code, -, rfl⟩ | ⟨-, -, -, rfl⟩ := execAdv_next h
    all_goals exact .inl {}
  | setdt p v => exact .inl (execSetdt_sameLatched (p := p) h)
  | setdry p v => exact .inl (State.transact_next_sameLatched h {})
  | setwet p v => exact .inl (State.transact_next_sameLatched h {})
  | setfb p v => exact .inl (State.transact_next_sameLatched h {})

theorem State.refuse_sameLatched (s : State) (code : ErrCode) (data : Option Word) :
    s.SameLatched (s.refuse code data) := by
  unfold State.refuse
  split_ifs <;> exact {}

theorem State.writeOperand_sameLatched (s : State) (r : OperandReg) (v : Word) :
    s.SameLatched (s.writeOperand r v) := by
  unfold State.writeOperand
  split_ifs
  · exact {}
  · cases r <;> exact {}

theorem State.readRegister_sameLatched (s : State) (r : RegName) : s.SameLatched (s.readRegister r) := by
  unfold State.readRegister
  exact {}

theorem State.readWindow_sameLatched (s : State) (c k : Nat) : s.SameLatched (s.readWindow c k) := by
  unfold State.readWindow
  split_ifs
  · split <;> exact {}
  · exact s.refuse_sameLatched _ _

/-- What is answered without running an operation leaves what is latched, unless it is reset. -/
theorem fetch_answered_latched {s t : State} (h : s.fetch = .answered t) :
    s.SameLatched t ∨ (t.conf = s.conf ∧ t.prepared = false ∧ ∃ rest, s.inbox = .reset :: rest) := by
  obtain rfl | ⟨e, rest, hin, ⟨code, d, rfl⟩ | ⟨r, v, rfl⟩ | ⟨r, rfl⟩ | ⟨c, k, rfl⟩ | ⟨ch, i, v, -, rfl⟩ |
    ⟨rfl, rfl⟩⟩ := fetch_answered h
  · exact .inl {}
  · exact .inl ((s.dequeue rest).refuse_sameLatched code d).of_dequeue
  · exact .inl ((s.dequeue rest).writeOperand_sameLatched r v).of_dequeue
  · exact .inl ((s.dequeue rest).readRegister_sameLatched r).of_dequeue
  · exact .inl ((s.dequeue rest).readWindow_sameLatched c k).of_dequeue
  · exact .inl {}
  · exact .inr ⟨rfl, rfl, rest, hin⟩

/-- A step leaves PREPARED and what PREP latches, unless it took PREP, which sets PREPARED, or RST or reset, which
clears it; the configuration it leaves always. -/
theorem step_latched {s t : State} (h : step s = .next t) :
    t.conf = s.conf ∧ (s.SameLatched t ∨ ∃ e rest, s.inbox = e :: rest ∧
      ((t.prepared = true ∧ ∃ tr, e = .transaction tr ∧ decodeTransaction tr = .run .prep) ∨
        (t.prepared = false ∧ (e = .reset ∨ ∃ tr, e = .transaction tr ∧ decodeTransaction tr = .run .rst)))) := by
  obtain ⟨-, rfl⟩ | ⟨i, u, hf, hexec⟩ | hf := step_cases h
  · exact ⟨rfl, .inl {}⟩
  · obtain ⟨tr, rest, hin, hdec, -, rfl⟩ := fetch_run hf
    obtain hsame | ⟨hconf, ⟨rfl, hp⟩ | ⟨rfl, hp⟩⟩ := exec_latched hexec
    · exact ⟨hsame.conf, .inl hsame.of_dequeue⟩
    · exact ⟨hconf, .inr ⟨_, rest, hin, .inl ⟨hp, tr, rfl, hdec⟩⟩⟩
    · exact ⟨hconf, .inr ⟨_, rest, hin, .inr ⟨hp, .inr ⟨tr, rfl, hdec⟩⟩⟩⟩
  · obtain hsame | ⟨hconf, hp, rest, hin⟩ := fetch_answered_latched hf
    · exact ⟨hsame.conf, .inl hsame⟩
    · exact ⟨hconf, .inr ⟨_, rest, hin, .inr ⟨hp, .inl rfl⟩⟩⟩

/-- Settles O48: PREPARED is among what a step leaves. -/
theorem onlyPrepPrepares : Obligations.OnlyPrepPrepares := by
  intro s t hstep hne
  obtain ⟨-, hsame | htook⟩ := step_latched hstep
  · exact absurd hsame.prepared.symm hne
  · exact htook

/-- Settles O49: the geometry registers are among what a step leaves. -/
theorem geometryFixedBetweenPreps : Obligations.GeometryFixedBetweenPreps := by
  intro s t hstep
  obtain ⟨hconf, hsame | ⟨e, rest, hin, ⟨-, tr, he, hprep⟩ | ⟨-, hreset | ⟨tr, he, hrst⟩⟩⟩⟩ := step_latched hstep
  · exact ⟨hconf, .inl ⟨hsame.bufLen, hsame.cfgNch, hsame.cfgBlock, hsame.cfgSrLo, hsame.cfgSrHi⟩⟩
  · exact ⟨hconf, .inr ⟨e, rest, hin, .inr ⟨tr, he, .inl hprep⟩⟩⟩
  · exact ⟨hconf, .inr ⟨e, rest, hin, .inl hreset⟩⟩
  · exact ⟨hconf, .inr ⟨e, rest, hin, .inr ⟨tr, he, .inr hrst⟩⟩⟩

end Sys2Proof.Machine
end

section
namespace Sys2Proof.Machine

/-! The model's range tests against exact real values (10_state R35; 00_scope R12; 40_init R92). -/

/-- A test of `real(v)` against a whole number is one of its units of 2^-149. -/
theorem f32Real_le_iff (v : F32) (b : ℤ) : f32Real v ≤ b ↔ f32Scaled v ≤ b * 2 ^ 149 := by
  rw [f32Real_eq_scaled, div_le_iff₀ (by positivity)]
  exact_mod_cast Iff.rfl

theorem f32Real_pos_iff (v : F32) : 0 < f32Real v ↔ 0 < f32Scaled v := by
  rw [f32Real_eq_scaled, div_pos_iff_of_pos_right (by positivity), Int.cast_pos]

theorem f32Real_nonneg_iff (v : F32) : 0 ≤ f32Real v ↔ 0 ≤ f32Scaled v := by
  rw [f32Real_eq_scaled, le_div_iff₀ (by positivity), zero_mul, Int.cast_nonneg_iff]

/-- A word with the sign bit set stands for no positive number. -/
theorem f64Real_nonpos {w : F64} (h : f64Negative w = true) : f64Real w ≤ 0 := by
  unfold f64Real
  rw [h, if_pos rfl, neg_one_mul, Left.neg_nonpos_iff]
  split_ifs <;> positivity

/-- A word without the sign bit stands for a positive number exactly when it has units. -/
theorem f64Real_pos_iff {w : F64} (h : f64Negative w = false) : 0 < f64Real w ↔ 0 < f64Units w := by
  rw [f64Real_eq_units h, div_pos_iff_of_pos_right (by positivity), Nat.cast_pos]

theorem legalDelay_iff (v : F32) : legalDelay v = true ↔ f32Finite v = true ∧ 0 < f32Real v ∧ f32Real v ≤ 2 := by
  rw [f32Real_pos_iff, show (2 : ℚ) = (2 : ℤ) by norm_num, f32Real_le_iff]
  simp only [legalDelay, Bool.and_eq_true, decide_eq_true_eq, and_assoc]

theorem legalMix_iff (v : F32) : legalMix v = true ↔ f32Finite v = true ∧ 0 ≤ f32Real v ∧ f32Real v ≤ 1 := by
  rw [f32Real_nonneg_iff, show (1 : ℚ) = (1 : ℤ) by norm_num, f32Real_le_iff, one_mul]
  simp only [legalMix, Bool.and_eq_true, decide_eq_true_eq, and_assoc]

theorem f64Positive_iff (v : F64) : f64Positive v = true ↔ f64Finite v = true ∧ 0 < f64Real v := by
  cases hneg : f64Negative v with
  | false => simp [f64Positive, hneg, f64Real_pos_iff hneg]
  | true => simp [f64Positive, hneg, f64Real_nonpos hneg]

/-- Settles O16, one parameter range at a time. -/
theorem legalRanges : Obligations.LegalRanges := ⟨legalDelay_iff, legalMix_iff, f64Positive_iff⟩

end Sys2Proof.Machine
end

section
namespace Sys2Proof.Machine

/-! The three memories: a read after a write (20_memory R61), and one canonical form per contents (entry 9). -/

/-- A read of RING after a write, at any pair of indices a region holds (20_memory R52, R61). -/
theorem ringRead_ringWrite (m : Memory) {c j c' j' : Nat} (v : F32) (hj : j < 2 ^ 32) (hj' : j' < 2 ^ 32) :
    ringRead (ringWrite m c j v) c' j' = if c' = c ∧ j' = j then v else ringRead m c' j' := by
  split_ifs with h
  · obtain ⟨rfl, rfl⟩ := h
    exact ringRead_ringWrite_same m c' j' v
  · exact ringRead_ringWrite_ne m v (mt (ringAddr_inj hj' hj).1 h)

/-- A read of WET after a write; the word written is no longer unwritten (10_state R39; 20_memory R61). -/
theorem wetRead_wetWrite (m : Memory) {c k c' k' : Nat} (v : F32) (hk : k < 65536) (hk' : k' < 65536) :
    wetRead (wetWrite m c k v) c' k' = if c' = c ∧ k' = k then some v else wetRead m c' k' := by
  split_ifs with h
  · obtain ⟨rfl, rfl⟩ := h
    exact wetRead_wetWrite_same m c' k' v
  · exact wetRead_wetWrite_ne m v (mt (blockAddr_inj hk' hk).1 h)

/-- A read of BLK after a write (20_memory R61). -/
theorem blkRead_blkWrite (m : Memory) {ch i ch' i' : Nat} (v : F32) (hi : i < 65536) (hi' : i' < 65536) :
    blkRead (blkWrite m ch i v) ch' i' = if ch' = ch ∧ i' = i then v else blkRead m ch' i' := by
  split_ifs with h
  · obtain ⟨rfl, rfl⟩ := h
    exact blkRead_blkWrite_same m ch' i' v
  · exact blkRead_blkWrite_ne m v (mt (blockAddr_inj hi' hi).1 h)

/-- Settles O51, one space at a time. -/
theorem readAfterWrite : Obligations.ReadAfterWrite := fun m _ _ _ _ v =>
  ⟨ringRead_ringWrite m v, fun hj hj' => ⟨wetRead_wetWrite m v hj hj', blkRead_blkWrite m v hj hj'⟩⟩

/-- Where the addresses rise, the word listed at an address is the one pair of that address. -/
theorem Memory.lookup_eq_some_iff {m : Memory} (h : m.Pairwise (fun x y => x.1 < y.1)) {a : Nat} {v : Word} :
    Memory.lookup m a = some v ↔ (a, v) ∈ m := by
  induction m with
  | nil => simp [Memory.lookup]
  | cons x m ih =>
    obtain ⟨k, w⟩ := x
    obtain ⟨hhead, htail⟩ := List.pairwise_cons.1 h
    rw [Memory.lookup, List.mem_cons, Prod.mk.injEq]
    split_ifs with hk
    · have hnot : (a, v) ∉ m := fun hm => (hhead _ hm).ne hk
      simp [hk, hnot, eq_comm]
    · simp [Ne.symm hk, ih htail]

/-- A canonical memory lists a pair exactly where reading its address gives its word and an unlisted address would
not. -/
theorem Memory.wf.mem_iff_read {fill : Option Word} {m : Memory} (h : Memory.wf fill m) {x : Nat × Word} :
    x ∈ m ↔ Memory.read fill m x.1 = some x.2 ∧ fill ≠ some x.2 := by
  obtain ⟨hsorted, hfill⟩ := h
  have hlisted : Memory.lookup m x.1 = some x.2 ↔ x ∈ m := Memory.lookup_eq_some_iff hsorted
  unfold Memory.read
  constructor
  · intro hx
    exact ⟨by rw [hlisted.2 hx, Option.some_or], hfill x hx⟩
  · rintro ⟨hread, hne⟩
    rcases Option.or_eq_some_iff.1 hread with hlookup | ⟨-, hunlisted⟩
    · exact hlisted.1 hlookup
    · exact absurd hunlisted hne

/-- Settles O52: what reads the same lists the same pairs, and a rising list is fixed by its pairs. -/
theorem canonicalFormUnique : Obligations.CanonicalFormUnique := by
  intro fill m m' h h' hread
  have : Std.Irrefl (fun x y : Nat × Word => x.1 < y.1) := ⟨fun x => lt_irrefl x.1⟩
  have : Std.Antisymm (fun x y : Nat × Word => x.1 < y.1) := ⟨fun _ _ hxy hyx => absurd hyx hxy.asymm⟩
  exact h.1.eq_of_mem_iff h'.1 fun x => by rw [h.mem_iff_read, h'.mem_iff_read, hread]

end Sys2Proof.Machine
end

section
namespace Sys2Proof.Machine

/-! The events of the ports and of the host's hand on BLK, taken (20_memory R50, R57, R64). -/

/-! What a transaction comes to, by what it decodes to. -/

section
variable {tr : Transaction} (s : State)

theorem State.takeEvent_run {i : Instr} (h : decodeTransaction tr = .run i) :
    s.takeEvent (.transaction tr) = .run i s := by
  rw [State.takeEvent, State.take, h]

theorem State.takeEvent_illegal {why : Reject} (h : decodeTransaction tr = .illegal why) :
    s.takeEvent (.transaction tr) = .answered (s.refuse .illegalCmd none) := by
  rw [State.takeEvent, State.take, h]

theorem State.takeEvent_operand {r : OperandReg} {v : Word} (h : decodeTransaction tr = .operand r v) :
    s.takeEvent (.transaction tr) = .answered (s.writeOperand r v) := by
  rw [State.takeEvent, State.take, h]

theorem State.takeEvent_register {r : RegName} (h : decodeTransaction tr = .register r) :
    s.takeEvent (.transaction tr) = .answered (s.readRegister r) := by
  rw [State.takeEvent, State.take, h]

theorem State.takeEvent_window {c k : Nat} (h : decodeTransaction tr = .window c k) :
    s.takeEvent (.transaction tr) = .answered (s.readWindow c k) := by
  rw [State.takeEvent, State.take, h]

theorem State.takeEvent_forbiddenRead (h : decodeTransaction tr = .forbiddenRead) :
    s.takeEvent (.transaction tr) = .answered (s.refuse .badAddr (some 0)) := by
  rw [State.takeEvent, State.take, h]

theorem State.takeEvent_forbiddenWrite (h : decodeTransaction tr = .forbiddenWrite) :
    s.takeEvent (.transaction tr) = .answered (s.refuse .badAddr none) := by
  rw [State.takeEvent, State.take, h]

end

/-! Which event a step takes, and what it then answers. -/

/-- With no command in flight, or for an event that is not held, the oldest event is taken. -/
theorem State.fetch_taken {s : State} {e : Event} {rest : List Event} (hin : s.inbox = e :: rest)
    (h : s.busy = false ∨ e.unheld = true) : s.fetch = (s.dequeue rest).takeEvent e := by
  rw [State.fetch, hin]
  rcases h with h | h <;> simp [h]

/-- While a command runs, the oldest event waits for it to complete unless it is one that is not held. -/
theorem State.fetch_held {s : State} {e : Event} {rest : List Event} (hin : s.inbox = e :: rest)
    (hb : s.busy = true) (he : e.unheld = false) : s.fetch = .answered s.complete := by
  rw [State.fetch, hin]
  simp [hb, he]

/-- An event presented to a state is taken in that state. -/
theorem State.fetch_presented {s : State} {e : Event} (h : s.busy = false ∨ e.unheld = true) :
    (s.presented e).fetch = s.takeEvent e :=
  State.fetch_taken (s := s.presented e) rfl h

/-- An event presented to a state, taken and answered. -/
theorem step_presented_answered {s t : State} {e : Event} (h : s.busy = false ∨ e.unheld = true)
    (ht : s.takeEvent e = .answered t) : step (s.presented e) = .next t := by
  rw [step, State.fetch_presented h, ht]

/-- An operation presented to an idle engine is run in its state. -/
theorem step_presented_run {s : State} {tr : Transaction} {i : Instr} (hb : s.busy = false)
    (hdec : decodeTransaction tr = .run i) : step (s.presented (.transaction tr)) = exec i s := by
  rw [step, State.fetch_presented (.inl hb), s.takeEvent_run hdec]

/-- Settles O5: the transaction is taken and asks for the operation. -/
theorem stepRunsDecoded : Obligations.StepRunsDecoded := by
  intro s tr rest i hb hin hdec
  rw [step, State.fetch_taken hin (.inl hb), State.takeEvent_run _ hdec]
  rfl

/-- Bit 0 of STATUS is BUSY (10_state R28). -/
theorem State.statusWord_bit0 (s : State) : field s.statusWord.toNat 0 0 = s.busy.toNat := by
  have hbit : s.busy.toNat < 2 := s.busy.toNat_lt
  rw [field, State.statusWord, BitVec.toNat_ofNat]
  omega

/-- Settles O8: every other transaction is held, and a STATUS read is not. -/
theorem heldWhileBusy : Obligations.HeldWhileBusy := by
  intro s tr hb
  constructor
  · intro hdec
    have hheld : (Event.transaction tr).unheld = false := beq_false_of_ne hdec
    rw [step, State.fetch_held (s := s.presented (.transaction tr)) rfl hb hheld]
    rfl
  · refine ⟨s.readRegister .status, s.statusWord, step_presented_answered (.inr rfl) rfl, rfl, rfl, ?_⟩
    rw [State.statusWord_bit0, hb]
    rfl

/-- Settles O53: the host's write is taken at once, and puts one word in BLK. -/
theorem hostWritesBlock : Obligations.HostWritesBlock := fun s ch i v hb =>
  ⟨s.putBlk (blkWrite s.blk ch.toNat i.toNat v), step_presented_answered (.inl hb) rfl, rfl,
    fun _ _ hi' => blkRead_blkWrite s.blk v i.isLt hi'⟩

/-! The forbidden accesses (20_memory R53, R54, R65). -/

/-- While `ERR = 0` a transaction that is refused faults with its code, which is all it changes (60_exceptions R144). -/
theorem step_presented_refused {s : State} {tr : Transaction} {code : ErrCode} {d : Option Word}
    (hb : s.busy = false) (he : s.err = none) (ht : s.takeEvent (.transaction tr) = .answered (s.refuse code d)) :
    step (s.presented (.transaction tr)) = .next { s with err := some code, answer := some ⟨.fault code, d⟩ } := by
  rw [step_presented_answered (.inl hb) ht]
  simp [State.refuse, State.raise, he]

/-- The REG space ends at 0x13 (10_state R22). -/
theorem registerAt_eq_none {a : Nat} (h : 0x14 ≤ a) : registerAt a = none := by
  obtain ⟨k, rfl⟩ := Nat.exists_eq_add_of_le' h
  rfl

/-- The space of a host address, its bits 23:20 (20_memory R53). -/
theorem hostAddr_space {addr : Nat} (h : addr < 2 ^ 24) :
    field (BitVec.ofNat 24 addr).toNat 23 20 = addr / 2 ^ 20 := by
  rw [field, BitVec.toNat_ofNat]
  omega

/-- The word address of a host access to REG, its bits 19:0 (20_memory R53). -/
theorem hostAddr_reg {addr : Nat} (h : addr < 2 ^ 20) : field (BitVec.ofNat 24 addr).toNat 19 0 = addr := by
  rw [field, BitVec.toNat_ofNat]
  omega

/-- A host read in the REG space reads the register there, and is forbidden where there is none. -/
theorem decodeTransaction_hostRead_reg {addr : Nat} (h : addr < 2 ^ 20) :
    decodeTransaction (.hostRead (BitVec.ofNat 24 addr)) = (registerAt addr).elim .forbiddenRead .register := by
  have hspace : addr / 2 ^ 20 = 0 := Nat.div_eq_of_lt h
  rw [decodeTransaction, hostAddr_space (by omega), hspace, hostAddr_reg h]
  cases registerAt addr <;> rfl

/-- A host write in the REG space writes the register there, and is forbidden where there is none. -/
theorem decodeTransaction_hostWrite_reg {addr : Nat} (h : addr < 2 ^ 20) (v : Word) :
    decodeTransaction (.hostWrite (BitVec.ofNat 24 addr) v) =
      (registerAt addr).elim .forbiddenWrite (decodeHostRegWrite · v) := by
  have hspace : addr / 2 ^ 20 = 0 := Nat.div_eq_of_lt h
  rw [decodeTransaction, hostAddr_space (by omega), hspace, hostAddr_reg h]
  cases registerAt addr <;> rfl

/-- Host reads with address bits 23:20 in 0x2 to 0xF, and of REG at 0x14 or above. -/
theorem hostRead_forbidden {addr : Nat} (h : addr < 2 ^ 24)
    (hf : 0x200000 ≤ addr ∨ (0x14 ≤ addr ∧ addr < 0x100000)) :
    decodeTransaction (.hostRead (BitVec.ofNat 24 addr)) = .forbiddenRead := by
  rcases hf with hspace | ⟨hreg, hlt⟩
  · obtain ⟨k, hk⟩ : ∃ k, addr / 2 ^ 20 = k + 2 := Nat.exists_eq_add_of_le' (by omega)
    rw [decodeTransaction, hostAddr_space h, hk]
    rfl
  · rw [decodeTransaction_hostRead_reg hlt, registerAt_eq_none hreg]
    rfl

/-- Host writes outside the REG space, of REG at 0x14 or above, of STATUS, and of a geometry register. -/
theorem hostWrite_forbidden {addr : Nat} (v : Word) (h : addr < 2 ^ 24)
    (hf : 0x14 ≤ addr ∨ addr = 0x01 ∨ (0x08 ≤ addr ∧ addr ≤ 0x0F)) :
    decodeTransaction (.hostWrite (BitVec.ofNat 24 addr) v) = .forbiddenWrite := by
  rcases hf with hreg | rfl | ⟨hlo, hhi⟩
  · rcases Nat.lt_or_ge addr (2 ^ 20) with hlt | hspace
    · rw [decodeTransaction_hostWrite_reg hlt, registerAt_eq_none hreg]
      rfl
    · obtain ⟨k, hk⟩ : ∃ k, addr / 2 ^ 20 = k + 1 := Nat.exists_eq_add_of_le' (by omega)
      rw [decodeTransaction, hostAddr_space h, hk]
      rfl
  · rfl
  · rw [decodeTransaction_hostWrite_reg (by omega)]
    interval_cases addr <;> rfl

/-- Every control-port read (20_memory R54). -/
theorem controlRead_forbidden (addr : Nat) : decodeTransaction (.controlRead (BitVec.ofNat 20 addr)) = .forbiddenRead :=
  rfl

/-- Control-port writes outside 0x10 to 0x13 (20_memory R54). -/
theorem controlWrite_forbidden {addr : Nat} (v : Word) (h : addr < 2 ^ 20)
    (hf : ¬ (0x10 ≤ addr ∧ addr ≤ 0x13)) :
    decodeTransaction (.controlWrite (BitVec.ofNat 20 addr) v) = .forbiddenWrite := by
  rw [decodeTransaction, BitVec.toNat_ofNat, Nat.mod_eq_of_lt h]
  rcases Nat.lt_or_ge addr 0x10 with hlt | hge
  · interval_cases addr <;> rfl
  · rw [registerAt_eq_none (by omega)]
    rfl

/-- Settles O43: each access decodes to a forbidden one, which is refused. -/
theorem forbiddenAccessesFault : Obligations.ForbiddenAccessesFault := by
  rintro s addr v d e hb he
    (⟨hlt, hf, rfl, rfl⟩ | ⟨hlt, hf, rfl, rfl⟩ | ⟨-, rfl, rfl⟩ | ⟨hlt, hf, rfl, rfl⟩)
  · exact step_presented_refused hb he (s.takeEvent_forbiddenRead (hostRead_forbidden hlt hf))
  · exact step_presented_refused hb he (s.takeEvent_forbiddenWrite (hostWrite_forbidden v hlt hf))
  · exact step_presented_refused hb he (s.takeEvent_forbiddenRead (controlRead_forbidden addr))
  · exact step_presented_refused hb he (s.takeEvent_forbiddenWrite (controlWrite_forbidden v hlt hf))

/-! What only commands change (20_memory R55). -/

/-- RING, WET and BLK are the same in `s` and `t`. For an update with its field lemmas, `{}` says so. -/
structure State.SameMemories (s t : State) : Prop where
  ring : t.ring = s.ring := by simp
  wet : t.wet = s.wet := by simp
  blk : t.blk = s.blk := by simp

/-- CMD is at 0x00 alone (10_state R22). -/
theorem registerAt_cmd {a : Nat} (h : registerAt a = some .cmd) : a = 0 := by
  unfold registerAt at h
  split at h <;> cases h
  rfl

/-- Both fields of a host address are 0 at 0 alone. -/
theorem hostAddr_eq_zero {addr : BitVec 24} (hspace : field addr.toNat 23 20 = 0)
    (hlow : field addr.toNat 19 0 = 0) : addr = 0 := by
  have hlt : addr.toNat < 2 ^ 24 := addr.isLt
  have hzero : addr.toNat = 0 := by
    unfold field at hspace hlow
    omega
  exact BitVec.eq_of_toNat_eq hzero

/-- A host write that asks for an operation is one of CMD, or asks for the setter of its register. -/
theorem decodeHostRegWrite_run {r : RegName} {v : Word} {i : Instr} (h : decodeHostRegWrite r v = .run i) :
    r = .cmd ∨ setterAt .host r v = some i := by
  cases r with
  | cmd => exact .inl rfl
  | delayTime | dryMix | wetMix | feedback => cases h; exact .inr rfl
  | _ => cases h

/-- A transaction that asks for an operation is a host write of CMD, or asks for a setter (30_encoding R70, R72). -/
theorem decodeTransaction_run {tr : Transaction} {i : Instr} (h : decodeTransaction tr = .run i) :
    (∃ w, tr = .hostWrite 0 w) ∨ ∃ p r v, setterAt p r v = some i := by
  cases tr with
  | hostRead addr =>
    simp only [decodeTransaction] at h
    split at h
    · split at h <;> cases h
    · cases h
    · cases h
  | hostWrite addr v =>
    simp only [decodeTransaction] at h
    split at h
    case h_1 hspace =>
      split at h
      case h_1 r hreg =>
        obtain rfl | hset := decodeHostRegWrite_run h
        · have hlow : field addr.toNat 19 0 = 0 := registerAt_cmd hreg
          exact .inl ⟨v, by rw [hostAddr_eq_zero hspace hlow]⟩
        · exact .inr ⟨.host, r, v, hset⟩
      case h_2 => cases h
    case h_2 => cases h
  | controlRead addr => cases h
  | controlWrite addr v =>
    simp only [decodeTransaction] at h
    split at h
    · cases h
      obtain ⟨r, -, hset⟩ := Option.bind_eq_some_iff.1 ‹_›
      exact .inr ⟨.control, r, v, hset⟩
    · cases h

/-- SETDT's delay and read cursor are no memory words. The rounded numbers stand as variables, so that nothing
evaluates them. -/
theorem State.retuned_sameMemories (s : State) (v : F32) (d rd : Nat) :
    s.SameMemories (((s.putDelayTime v).putDelay d rd).finish none) := {}

theorem execSetdt_sameMemories {s t : State} {p : Port} {v : F32} (h : execSetdt p v s = .next t) :
    s.SameMemories t := by
  obtain ⟨-, rfl⟩ | ⟨-, -, rfl⟩ | ⟨-, -, -, rfl⟩ | ⟨-, -, -, -, -, rfl⟩ := execSetdt_next h
  · exact {}
  · exact {}
  · exact {}
  · exact s.retuned_sameMemories v _ _

/-- A mix setter leaves the memories when the write of its register does. -/
theorem mixSetter_sameMemories {s t put : State} {v : F32}
    (h : s.transact (mixCheck v) (.next (put.finish none)) = .next t) (hput : s.SameMemories put) :
    s.SameMemories t := by
  obtain ⟨-, rfl⟩ | ⟨-, -, rfl⟩ | ⟨-, -, rfl⟩ := mixSetter_next h
  · exact {}
  · exact {}
  · exact { hput with }

/-- A setter leaves the memories (43_parameters R126 to R129). -/
theorem exec_setter_sameMemories {s t : State} {p : Port} {r : RegName} {v : Word} {i : Instr}
    (hset : setterAt p r v = some i) (h : exec i s = .next t) : s.SameMemories t := by
  cases r with
  | delayTime => cases hset; exact execSetdt_sameMemories (p := p) h
  | dryMix => cases hset; exact mixSetter_sameMemories h {}
  | wetMix => cases hset; exact mixSetter_sameMemories h {}
  | feedback => cases hset; exact mixSetter_sameMemories h {}
  | _ => cases hset

theorem State.refuse_sameMemories (s : State) (code : ErrCode) (data : Option Word) :
    s.SameMemories (s.refuse code data) := by
  unfold State.refuse
  split_ifs <;> exact {}

theorem State.writeOperand_sameMemories (s : State) (r : OperandReg) (v : Word) :
    s.SameMemories (s.writeOperand r v) := by
  unfold State.writeOperand
  split_ifs <;> exact {}

theorem State.readRegister_sameMemories (s : State) (r : RegName) : s.SameMemories (s.readRegister r) := by
  unfold State.readRegister
  exact {}

theorem State.readWindow_sameMemories (s : State) (c k : Nat) : s.SameMemories (s.readWindow c k) := by
  unfold State.readWindow
  split_ifs
  · split <;> exact {}
  · exact s.refuse_sameMemories _ _

/-- A transaction asks for an operation, or is answered, which leaves the memories. -/
theorem State.take_cases (s : State) (tr : Transaction) :
    (∃ i, decodeTransaction tr = .run i) ∨ ∃ t, s.takeEvent (.transaction tr) = .answered t ∧ s.SameMemories t := by
  cases h : decodeTransaction tr with
  | run i => exact .inl ⟨i, rfl⟩
  | illegal why => exact .inr ⟨_, s.takeEvent_illegal h, s.refuse_sameMemories _ _⟩
  | operand r v => exact .inr ⟨_, s.takeEvent_operand h, s.writeOperand_sameMemories r v⟩
  | register r => exact .inr ⟨_, s.takeEvent_register h, s.readRegister_sameMemories r⟩
  | window c k => exact .inr ⟨_, s.takeEvent_window h, s.readWindow_sameMemories c k⟩
  | forbiddenRead => exact .inr ⟨_, s.takeEvent_forbiddenRead h, s.refuse_sameMemories _ _⟩
  | forbiddenWrite => exact .inr ⟨_, s.takeEvent_forbiddenWrite h, s.refuse_sameMemories _ _⟩

/-- Settles O50: such a transaction runs a setter, or is answered without running an operation. -/
theorem onlyCommandsTouchMemories : Obligations.OnlyCommandsTouchMemories := by
  intro s t tr hb hstep hcmd
  have hsame : s.SameMemories t := by
    obtain ⟨i, hdec⟩ | ⟨u, htake, hu⟩ := s.take_cases tr
    · have hexec : exec i s = .next t := (step_presented_run hb hdec).symm.trans hstep
      obtain ⟨w, rfl⟩ | ⟨p, r, v, hset⟩ := decodeTransaction_run hdec
      · exact absurd rfl (hcmd w)
      · exact exec_setter_sameMemories hset hexec
    · rw [step_presented_answered (.inl hb) htake] at hstep
      cases hstep
      exact hu
  exact ⟨hsame.ring, hsame.wet, hsame.blk⟩

end Sys2Proof.Machine
end

section
namespace Sys2Proof.Machine

/-! Command words by row (30_encoding R71 to R79, R86): a word that matches a row decodes to the row's command, and what
decodes is encoded again by the same word, so the rows, the decoder and the encoder agree. -/

open Sys2Proof.Laws

/-! From a row to its command. -/

/-- A word that matches a row has the row's OPC, and 0 in the row's zero field. -/
theorem Matches.fields {w : Word} {row : Word × Word} (h : Matches w row) (opc hi lo : Nat)
    (hmask : row.2.toNat = (2 ^ 4 - 1) <<< 28 ||| (2 ^ (hi + 1 - lo) - 1) <<< lo)
    (hmatch : row.1.toNat = opc * 2 ^ 28) (hlo : hi + 1 - lo + lo ≤ 28) :
    field w.toNat 31 28 = opc ∧ field w.toNat hi lo = 0 := by
  have hsum : field w.toNat 31 28 * 2 ^ 28 + field w.toNat hi lo * 2 ^ lo = opc * 2 ^ 28 := by
    rw [← hmatch, ← h, and_mask2 hmask hlo]
    rfl
  have hlow : field w.toNat hi lo * 2 ^ lo < 2 ^ 28 :=
    calc field w.toNat hi lo * 2 ^ lo
        < 2 ^ (hi + 1 - lo) * 2 ^ lo := Nat.mul_lt_mul_of_pos_right (field_lt _ _ _) (by positivity)
      _ = 2 ^ (hi + 1 - lo + lo) := (Nat.pow_add _ _ _).symm
      _ ≤ 2 ^ 28 := Nat.pow_le_pow_right (by omega) hlo
  have hzero : field w.toNat hi lo * 2 ^ lo = 0 := by omega
  exact ⟨by omega, (Nat.mul_eq_zero.1 hzero).resolve_right (by positivity)⟩

/-- A row whose mask is all ones is matched by one word. -/
theorem matches_ones {w m : Word} (h : Matches w (m, 0xFFFFFFFF)) : w = m :=
  (BitVec.and_allOnes (x := w)).symm.trans h

/-- A bit field as a slice of the word. -/
theorem field_eq_extractLsb' (w : Word) (hi lo : Nat) :
    field w.toNat hi lo = (w.extractLsb' lo (hi + 1 - lo)).toNat := by
  rw [field, BitVec.extractLsb'_toNat, Nat.shiftRight_eq_div_pow]

/-- The field S is bit 23. -/
theorem sourceOf_field (w : Word) : sourceOf (field w.toNat 23 23) = if w.getLsbD 23 then .wet else .blk := by
  have hbit : w.getLsbD 23 = decide (field w.toNat 23 23 = 1) := Nat.testBit_eq_decide_div_mod_eq
  have hlt : field w.toNat 23 23 < 2 := field_lt _ _ _
  rw [hbit]
  interval_cases field w.toNat 23 23 <;> rfl

theorem decodeCommand_of_matches_proc {w : Word} (h : Matches w (0x30000000, 0xF00F0000)) : decodeCommand w =
    .ok (.proc (w.extractLsb' 24 4).toNat (w.extractLsb' 20 4).toNat (w.extractLsb' 0 16).toNat) := by
  obtain ⟨hopc, hzero⟩ := h.fields 3 19 16 (by decide) (by decide) (by decide)
  simp [decodeCommand, hopc, hzero, field_eq_extractLsb']

theorem decodeCommand_of_matches_bwr {w : Word} (h : Matches w (0x40000000, 0xF07F0000)) : decodeCommand w =
    .ok (.bwr (w.extractLsb' 24 4).toNat (if w.getLsbD 23 then .wet else .blk) (w.extractLsb' 0 16).toNat) := by
  obtain ⟨hopc, hzero⟩ := h.fields 4 22 16 (by decide) (by decide) (by decide)
  simp only [decodeCommand, hopc, hzero, sourceOf_field, if_true]
  simp only [field_eq_extractLsb']

/-- BRD's zero field is bits 22:16 and `S`. -/
theorem decodeCommand_of_matches_brd {w : Word} (h : Matches w (0x50000000, 0xF0FF0000)) : decodeCommand w =
    .ok (.brd (w.extractLsb' 24 4).toNat (w.extractLsb' 0 16).toNat) := by
  obtain ⟨hopc, hzero⟩ := h.fields 5 23 16 (by decide) (by decide) (by decide)
  have hzeros : field w.toNat 22 16 = 0 ∧ field w.toNat 23 23 = 0 := by
    simp only [field] at hzero ⊢
    omega
  simp [decodeCommand, hopc, hzeros, field_eq_extractLsb']

theorem decodeCommand_of_matches_badd {w : Word} (h : Matches w (0x60000000, 0xF07F0000)) : decodeCommand w =
    .ok (.badd (w.extractLsb' 24 4).toNat (if w.getLsbD 23 then .wet else .blk) (w.extractLsb' 0 16).toNat) := by
  obtain ⟨hopc, hzero⟩ := h.fields 6 22 16 (by decide) (by decide) (by decide)
  simp only [decodeCommand, hopc, hzero, sourceOf_field, if_true]
  simp only [field_eq_extractLsb']

theorem decodeCommand_of_matches_adv {w : Word} (h : Matches w (0x70000000, 0xFFFF0000)) : decodeCommand w =
    .ok (.adv (w.extractLsb' 0 16).toNat) := by
  obtain ⟨hopc, hzero⟩ := h.fields 7 27 16 (by decide) (by decide) (by decide)
  simp [decodeCommand, hopc, hzero, field_eq_extractLsb']

/-! From a command back to its word. -/

theorem some_ofNat_of_toNat_eq {w : Word} {n : Nat} (h : w.toNat = n) : some (BitVec.ofNat 32 n) = some w := by
  rw [← h, BitVec.ofNat_toNat, BitVec.setWidth_eq]

theorem sourceBit_sourceOf {b : Nat} (h : b < 2) : sourceBit (sourceOf b) = b := by
  interval_cases b <;> rfl

/-- Settles O2, by the branches of `decodeCommand`: a reserved OPC decodes to nothing; in each of the eight others, OPC,
the fields the command is read from and the zeros beside them sum to the whole word. -/
theorem decodeThenEncode : Obligations.DecodeThenEncode := by
  intro w i h
  have hw : w.toNat < 2 ^ 32 := w.isLt
  have hch : field w.toNat 27 24 < 16 := field_lt _ _ _
  have hnin : field w.toNat 23 20 < 16 := field_lt _ _ _
  have hn : field w.toNat 15 0 < 65536 := field_lt _ _ _
  have hsrc := sourceBit_sourceOf (field_lt w.toNat 23 23)
  unfold decodeCommand at h
  dsimp only at h
  split at h
  case h_9 => cases h
  all_goals
    rename_i hopc
    split_ifs at h
    cases h
    refine ⟨by simp [Instr.WellFormed, Instr.fits, hch, hnin, hn], some_ofNat_of_toNat_eq ?_⟩
    simp only [field] at *
    omega

/-- The word the encoder writes for a well-formed command matches the command's row. -/
theorem matches_of_encodeCommand {w : Word} {i : Instr} {k : Nat} {row : Word × Word} (hwf : i.WellFormed)
    (henc : encodeCommand i = some w) (htable : i.WellFormed → TableRow.Command k (encode i))
    (hstart : encode i = encodeStart i) (hrow : commandRows[k]? = some row) : Matches w row := by
  obtain ⟨w', row', hw', hrow', hm⟩ := htable hwf
  rw [hstart, encodeStart, henc] at hw'
  cases hw'
  cases hrow.symm.trans hrow'
  exact hm

/-- A word that decodes to a command matches the command's row. -/
theorem matches_of_decodeCommand {w : Word} {i : Instr} {k : Nat} {row : Word × Word} (h : decodeCommand w = .ok i)
    (htable : i.WellFormed → TableRow.Command k (encode i)) (hstart : encode i = encodeStart i)
    (hrow : commandRows[k]? = some row) : Matches w row :=
  matches_of_encodeCommand (decodeThenEncode w i h).1 (decodeThenEncode w i h).2 htable hstart hrow

/-- A word that decodes to a command matches a row. -/
theorem exists_matches_of_decodeCommand {w : Word} {i : Instr} {k : Nat} (h : decodeCommand w = .ok i)
    (htable : i.WellFormed → TableRow.Command k (encode i)) (hstart : encode i = encodeStart i) :
    ∃ row ∈ commandRows, Matches w row := by
  obtain ⟨-, row, -, hrow, -⟩ := htable (decodeThenEncode w i h).1
  exact ⟨row, List.mem_of_getElem? hrow, matches_of_decodeCommand h htable hstart hrow⟩

/-! The rows: a word matches a row exactly when it decodes to the row's command (30_encoding R73, R74). -/

theorem matches_nop_iff (w : Word) : Matches w (0x00000000, 0xFFFFFFFF) ↔ decodeCommand w = .ok .nop :=
  ⟨fun h => matches_ones h ▸ rfl, fun h => matches_of_decodeCommand h TableRow.nop rfl rfl⟩

theorem matches_rst_iff (w : Word) : Matches w (0x10000000, 0xFFFFFFFF) ↔ decodeCommand w = .ok .rst :=
  ⟨fun h => matches_ones h ▸ rfl, fun h => matches_of_decodeCommand h TableRow.rst rfl rfl⟩

theorem matches_prep_iff (w : Word) : Matches w (0x20000000, 0xFFFFFFFF) ↔ decodeCommand w = .ok .prep :=
  ⟨fun h => matches_ones h ▸ rfl, fun h => matches_of_decodeCommand h TableRow.prep rfl rfl⟩

theorem matches_proc_iff (w : Word) : Matches w (0x30000000, 0xF00F0000) ↔ decodeCommand w =
    .ok (.proc (w.extractLsb' 24 4).toNat (w.extractLsb' 20 4).toNat (w.extractLsb' 0 16).toNat) :=
  ⟨decodeCommand_of_matches_proc, fun h => matches_of_decodeCommand h (TableRow.proc _ _ _) rfl rfl⟩

theorem matches_bwr_iff (w : Word) : Matches w (0x40000000, 0xF07F0000) ↔ decodeCommand w =
    .ok (.bwr (w.extractLsb' 24 4).toNat (if w.getLsbD 23 then .wet else .blk) (w.extractLsb' 0 16).toNat) :=
  ⟨decodeCommand_of_matches_bwr, fun h => matches_of_decodeCommand h (TableRow.bwr _ _ _) rfl rfl⟩

theorem matches_brd_iff (w : Word) : Matches w (0x50000000, 0xF0FF0000) ↔ decodeCommand w =
    .ok (.brd (w.extractLsb' 24 4).toNat (w.extractLsb' 0 16).toNat) :=
  ⟨decodeCommand_of_matches_brd, fun h => matches_of_decodeCommand h (TableRow.brd _ _) rfl rfl⟩

theorem matches_badd_iff (w : Word) : Matches w (0x60000000, 0xF07F0000) ↔ decodeCommand w =
    .ok (.badd (w.extractLsb' 24 4).toNat (if w.getLsbD 23 then .wet else .blk) (w.extractLsb' 0 16).toNat) :=
  ⟨decodeCommand_of_matches_badd, fun h => matches_of_decodeCommand h (TableRow.badd _ _ _) rfl rfl⟩

theorem matches_adv_iff (w : Word) : Matches w (0x70000000, 0xFFFF0000) ↔ decodeCommand w =
    .ok (.adv (w.extractLsb' 0 16).toNat) :=
  ⟨decodeCommand_of_matches_adv, fun h => matches_of_decodeCommand h (TableRow.adv _) rfl rfl⟩

/-! The words the encoder writes. -/

/-- A slice of a word written as a number. -/
theorem extractLsb'_ofNat_toNat (n lo len : Nat) :
    ((BitVec.ofNat 32 n).extractLsb' lo len).toNat = n % 2 ^ 32 / 2 ^ lo % 2 ^ len := by
  rw [BitVec.extractLsb'_toNat, BitVec.toNat_ofNat, Nat.shiftRight_eq_div_pow]

theorem sourceOf_sourceBit (src : Source) : sourceOf (sourceBit src) = src := by cases src <;> rfl

/-- The fields CH, S and N of a word of format B; `m` is the row's match. -/
theorem bulkWord_fields {w : Word} {m ch n : Nat} {src : Source}
    (hw : BitVec.ofNat 32 (m + ch * 2 ^ 24 + sourceBit src * 2 ^ 23 + n) = w) (hm : m % 2 ^ 28 = 0)
    (hch : ch < 16) (hn : n < 65536) :
    (w.extractLsb' 24 4).toNat = ch ∧ (if w.getLsbD 23 then Source.wet else .blk) = src ∧
      (w.extractLsb' 0 16).toNat = n := by
  have hbit := TableRow.sourceBit_lt src
  have hsrc : field w.toNat 23 23 = sourceBit src := by
    rw [← hw, field, BitVec.toNat_ofNat]
    omega
  refine ⟨?_, ?_, ?_⟩
  · rw [← hw, extractLsb'_ofNat_toNat]
    omega
  · rw [← sourceOf_field, hsrc, sourceOf_sourceBit]
  · rw [← hw, extractLsb'_ofNat_toNat]
    omega

/-- The word of a well-formed command decodes to it: the word matches the command's row, and its slices are the
operands. -/
theorem decodeCommand_encodeCommand {w : Word} {i : Instr} (hwf : i.WellFormed) (henc : encodeCommand i = some w) :
    decodeCommand w = .ok i := by
  have hfits := hwf
  simp only [Instr.WellFormed, Instr.fits] at hfits
  cases i with
  | nop => cases henc; rfl
  | rst => cases henc; rfl
  | prep => cases henc; rfl
  | proc nout nin n =>
    rw [decodeCommand_of_matches_proc (matches_of_encodeCommand hwf henc (TableRow.proc _ _ _) rfl rfl)]
    cases henc
    simp only [Bool.and_eq_true, decide_eq_true_eq] at hfits
    simp only [extractLsb'_ofNat_toNat, Except.ok.injEq, Instr.proc.injEq]
    omega
  | bwr ch src n =>
    rw [decodeCommand_of_matches_bwr (matches_of_encodeCommand hwf henc (TableRow.bwr _ _ _) rfl rfl)]
    simp only [Bool.and_eq_true, decide_eq_true_eq] at hfits
    obtain ⟨hch, hsrc, hn⟩ := bulkWord_fields (Option.some.inj henc) (by decide) hfits.1 hfits.2
    rw [hch, hsrc, hn]
  | brd ch n =>
    rw [decodeCommand_of_matches_brd (matches_of_encodeCommand hwf henc (TableRow.brd _ _) rfl rfl)]
    cases henc
    simp only [Bool.and_eq_true, decide_eq_true_eq] at hfits
    simp only [extractLsb'_ofNat_toNat, Except.ok.injEq, Instr.brd.injEq]
    omega
  | badd ch src n =>
    rw [decodeCommand_of_matches_badd (matches_of_encodeCommand hwf henc (TableRow.badd _ _ _) rfl rfl)]
    simp only [Bool.and_eq_true, decide_eq_true_eq] at hfits
    obtain ⟨hch, hsrc, hn⟩ := bulkWord_fields (Option.some.inj henc) (by decide) hfits.1 hfits.2
    rw [hch, hsrc, hn]
  | adv n =>
    rw [decodeCommand_of_matches_adv (matches_of_encodeCommand hwf henc (TableRow.adv _) rfl rfl)]
    cases henc
    simp only [decide_eq_true_eq] at hfits
    simp only [extractLsb'_ofNat_toNat, Except.ok.injEq, Instr.adv.injEq]
    omega
  | setdt => cases henc
  | setdry => cases henc
  | setwet => cases henc
  | setfb => cases henc

/-! Transactions. -/

/-- A host write of CMD decodes its word (30_encoding R70). -/
theorem decodeTransaction_cmd (w : Word) : decodeTransaction (.hostWrite 0 w) = decodeHostRegWrite .cmd w := rfl

/-- A host write of CMD whose word decodes asks for the command. -/
theorem decodeTransaction_cmd_ok {w : Word} {i : Instr} (h : decodeCommand w = .ok i) :
    decodeTransaction (.hostWrite 0 w) = .run i := by
  rw [decodeTransaction_cmd, decodeHostRegWrite, h]

/-- A host write of CMD whose word is illegal. -/
theorem decodeTransaction_cmd_error {w : Word} {why : Reject} (h : decodeCommand w = .error why) :
    decodeTransaction (.hostWrite 0 w) = .illegal why := by
  rw [decodeTransaction_cmd, decodeHostRegWrite, h]

theorem decodeTransaction_encodeStart {w : Word} {i : Instr} (hwf : i.WellFormed) (henc : encodeCommand i = some w) :
    decodeTransaction (encodeStart i) = .run i := by
  rw [encodeStart, henc]
  exact decodeTransaction_cmd_ok (decodeCommand_encodeCommand hwf henc)

/-- A setter's REG write decodes to the setter of its address (43_parameters R125). -/
theorem decodeTransaction_encodeSetter (p : Port) (v : Word) :
    decodeTransaction (encodeSetter p 0x10 v) = .run (.setdt p v) ∧
      decodeTransaction (encodeSetter p 0x11 v) = .run (.setdry p v) ∧
      decodeTransaction (encodeSetter p 0x12 v) = .run (.setwet p v) ∧
      decodeTransaction (encodeSetter p 0x13 v) = .run (.setfb p v) := by
  cases p <;> exact ⟨rfl, rfl, rfl, rfl⟩

/-- Settles O1: a command is started by the word that decodes to it, a setter is the write of its address. -/
theorem encodeThenDecode : Obligations.EncodeThenDecode := by
  intro i hwf
  cases i with
  | nop => exact decodeTransaction_encodeStart hwf rfl
  | rst => exact decodeTransaction_encodeStart hwf rfl
  | prep => exact decodeTransaction_encodeStart hwf rfl
  | proc nout nin n => exact decodeTransaction_encodeStart hwf rfl
  | bwr ch src n => exact decodeTransaction_encodeStart hwf rfl
  | brd ch n => exact decodeTransaction_encodeStart hwf rfl
  | badd ch src n => exact decodeTransaction_encodeStart hwf rfl
  | adv n => exact decodeTransaction_encodeStart hwf rfl
  | setdt p v => exact (decodeTransaction_encodeSetter p v).1
  | setdry p v => exact (decodeTransaction_encodeSetter p v).2.1
  | setwet p v => exact (decodeTransaction_encodeSetter p v).2.2.1
  | setfb p v => exact (decodeTransaction_encodeSetter p v).2.2.2

/-! Illegal words, and disjoint rows. -/

/-- The legal words are those that match a row. -/
theorem exists_matches_iff (w : Word) :
    (∃ row ∈ commandRows, Matches w row) ↔ ∃ i, decodeCommand w = .ok i := by
  constructor
  · rintro ⟨row, hrow, hm⟩
    simp only [commandRows, List.mem_cons, List.not_mem_nil, or_false] at hrow
    rcases hrow with rfl | rfl | rfl | rfl | rfl | rfl | rfl | rfl
    · exact ⟨_, (matches_nop_iff w).1 hm⟩
    · exact ⟨_, (matches_rst_iff w).1 hm⟩
    · exact ⟨_, (matches_prep_iff w).1 hm⟩
    · exact ⟨_, (matches_proc_iff w).1 hm⟩
    · exact ⟨_, (matches_bwr_iff w).1 hm⟩
    · exact ⟨_, (matches_brd_iff w).1 hm⟩
    · exact ⟨_, (matches_badd_iff w).1 hm⟩
    · exact ⟨_, (matches_adv_iff w).1 hm⟩
  · rintro ⟨i, hi⟩
    cases i with
    | nop => exact exists_matches_of_decodeCommand hi TableRow.nop rfl
    | rst => exact exists_matches_of_decodeCommand hi TableRow.rst rfl
    | prep => exact exists_matches_of_decodeCommand hi TableRow.prep rfl
    | proc nout nin n => exact exists_matches_of_decodeCommand hi (TableRow.proc nout nin n) rfl
    | bwr ch src n => exact exists_matches_of_decodeCommand hi (TableRow.bwr ch src n) rfl
    | brd ch n => exact exists_matches_of_decodeCommand hi (TableRow.brd ch n) rfl
    | badd ch src n => exact exists_matches_of_decodeCommand hi (TableRow.badd ch src n) rfl
    | adv n => exact exists_matches_of_decodeCommand hi (TableRow.adv n) rfl
    | setdt => cases (decodeThenEncode w _ hi).2
    | setdry => cases (decodeThenEncode w _ hi).2
    | setwet => cases (decodeThenEncode w _ hi).2
    | setfb => cases (decodeThenEncode w _ hi).2

/-- The illegal words are those that match no row (30_encoding R79). -/
theorem forall_not_matches_iff (w : Word) :
    (∀ row ∈ commandRows, ¬ Matches w row) ↔ ∃ why, decodeCommand w = .error why := by
  have hnone : (∀ row ∈ commandRows, ¬ Matches w row) ↔ ¬ ∃ row ∈ commandRows, Matches w row := by
    simp only [not_exists, not_and]
  rw [hnone, exists_matches_iff]
  cases decodeCommand w <;> simp

/-- A word that matches a row has the OPC of the row's match. -/
theorem Matches.opc {w : Word} {row : Word × Word} (hrow : row ∈ commandRows) (h : Matches w row) :
    w &&& 0xF0000000 = row.1 := by
  have hopc : ∀ row ∈ commandRows, row.2 &&& 0xF0000000 = 0xF0000000 ∧ row.1 &&& 0xF0000000 = row.1 := by
    simp [commandRows]
  obtain ⟨hmask, hmatch⟩ := hopc row hrow
  rw [← hmatch, ← h, BitVec.and_assoc, hmask]

/-- Two rows one word matches have the same OPC, so they are one row. -/
theorem Matches.row_unique {w : Word} {row row' : Word × Word} (hrow : row ∈ commandRows) (hrow' : row' ∈ commandRows)
    (h : Matches w row) (h' : Matches w row') : row = row' := by
  have hinj : ∀ row ∈ commandRows, ∀ row' ∈ commandRows, row.1 = row'.1 → row = row' := by
    simp [commandRows]
  exact hinj row hrow row' hrow' ((h.opc hrow).symm.trans (h'.opc hrow'))

/-- Settles O3, row by row. -/
theorem decodeByRow : Obligations.DecodeByRow :=
  ⟨fun w => ⟨matches_nop_iff w, matches_rst_iff w, matches_prep_iff w, matches_proc_iff w, matches_bwr_iff w,
    matches_brd_iff w, matches_badd_iff w, matches_adv_iff w, forall_not_matches_iff w,
    fun _ hrow _ hrow' h h' => h.row_unique hrow hrow' h'⟩, decodeTransaction_encodeSetter⟩

/-- Settles O7: the word is illegal, so the write is refused. -/
theorem illegalCommandFaults : Obligations.IllegalCommandFaults := by
  intro s w hb he hrows
  obtain ⟨why, hdec⟩ := (forall_not_matches_iff w).1 hrows
  exact step_presented_refused hb he (s.takeEvent_illegal (decodeTransaction_cmd_error hdec))

/-- Settles O4: the decoder, run on the five words. -/
theorem writtenWordsDecode : Obligations.WrittenWordsDecode := ⟨rfl, rfl, rfl, rfl, rfl⟩

/-- What the decoder reads from a row's bits is what the row's transaction asks for. -/
theorem decodeTableWord_eq_some {nbits w : Nat} {i : Instr} (h : decodeTableWord nbits w = some i) :
    decodeTransaction (tableTransaction nbits w) = .run i := by
  unfold decodeTableWord at h
  split at h
  · rwa [← Option.some.inj h]
  · cases h

/-- Settles O6: `withFetchWord` presents the row's transaction to the engine with no command in flight. -/
theorem fetchedWordRuns : Obligations.FetchedWordRuns := fun s _ _ _ h =>
  step_presented_run (s := { s with busy := false }) rfl (decodeTableWord_eq_some h)

end Sys2Proof.Machine
end

section
namespace Sys2Proof.Machine

/-! NOP and PREP (40_init R90, R92, R93). -/

/-- Settles O17: NOP has no check to fail, so in an unfaulted state its work is what it answers. -/
theorem nopChangesNothing : Obligations.NopChangesNothing := fun s he =>
  State.transact_passed he (.next (s.finish none))

/-- With an operand unset, PREP fails check 1. -/
theorem prepCheck_of_unset {s : State} (hset : ¬ s.PrepSet) : s.prepCheck = some .unset := by
  refine if_pos ?_
  contrapose! hset
  simpa [and_assoc] using hset

/-- With its operands set, PREP passes where the checks 2 to 5 do, and is refused where one of them fails. -/
theorem prepCheck_of_set {s : State} (hset : s.PrepSet) :
    s.prepCheck = if s.PrepAccepts then none else some .config := by
  obtain ⟨hlo, hhi, hblk, hch, hdelay⟩ := hset
  unfold State.prepCheck
  rw [if_neg (by simp [hlo, hhi, hblk, hch, hdelay])]
  by_cases haccepts : s.PrepAccepts
  · rw [if_pos haccepts]
    obtain ⟨hrate, hblock, hchannels, hcap⟩ := haccepts
    rw [if_neg (by simp [hrate]), if_neg (by omega), if_neg (by omega), if_neg (by omega)]
  · rw [if_neg haccepts]
    split_ifs with hrate hblock hchannels hcap
    · rfl
    · rfl
    · rfl
    · rfl
    · exact absurd ⟨by simpa using hrate, by omega, by omega, by omega⟩ haccepts

/-- While `ERR = 0`, a PREP that fails a check raises its code and changes nothing else (60_exceptions R144). -/
theorem execPrep_raised {s : State} {code : ErrCode} (he : s.err = none) (hc : s.prepCheck = some code) :
    execPrep s = .next { s with err := some code, answer := some ⟨.fault code, none⟩ } := by
  rw [execPrep, hc, State.transact_raised he]
  simp [State.raise, he]

/-- Settles O20, by which of PREP's checks fails first. -/
theorem prepFaults : Obligations.PrepFaults := fun _ he =>
  ⟨fun hset => execPrep_raised he (prepCheck_of_unset hset),
    fun hset haccepts => execPrep_raised he ((prepCheck_of_set hset).trans (if_neg haccepts))⟩

/-- The read cursor of delay `d` behind a write cursor at 0 (40_init R92). -/
theorem readCursor_zero (len d : Nat) : readCursor len 0 d = (len - d) % len := by
  rw [readCursor, Nat.zero_add]

/-- Settles O19: PREP answers, and it did its work since no check fails. What it leaves is good and prepared, so `L`,
`D` and the read cursor are what the geometry of a good state says. -/
theorem prepConfigures : Obligations.PrepConfigures := by
  intro s hs he hset haccepts
  have hpassed : s.prepCheck = none := (prepCheck_of_set hset).trans (if_pos haccepts)
  obtain ⟨t, ht⟩ := hs.execPrep_answers
  have hgood : t.Inv := hs.execPrep_keeps ht
  obtain ⟨hfaulted, -⟩ | ⟨-, code, hfailed, -⟩ | ⟨-, -, -, -, rfl⟩ := execPrep_next ht
  · exact absurd he hfaulted
  · rw [hpassed] at hfailed
    cases hfailed
  · have g := hgood.geometry rfl
    have hread := g.read_law
    rw [g.len_cap, g.delay] at hread
    exact ⟨_, ht, rfl, g.len_cap, g.delay, hread.trans (readCursor_zero _ _), ringRead_nil, wetRead_nil⟩

/-- Settles O21: a PREP that is done was not faulted and failed no check, so it is one O19 speaks of; the bounds are
those of a good prepared state. -/
theorem prepEstablishes : Obligations.PrepEstablishes := by
  intro s t hs ht hdone
  obtain ⟨-, rfl⟩ | ⟨-, code, -, rfl⟩ | ⟨he, hpassed, -⟩ := execPrep_next ht
  · simp at hdone
  · simp at hdone
  · obtain ⟨hset, haccepts⟩ := prepCheck_none hpassed
    obtain ⟨u, hu, hframe, -, -, -, hsilent, -⟩ := prepConfigures s hs he hset haccepts
    obtain rfl : t = u := Host.Outcome.next.inj (ht.symm.trans hu)
    have hprepared : t.prepared = true := congrArg State.prepared hframe
    have hgood : t.Inv := hs.execPrep_keeps ht
    have g := hgood.geometry hprepared
    obtain ⟨-, -, -, hread⟩ := t.ringReady_iff.1 (hgood.ready hprepared)
    exact ⟨hprepared, ⟨g.block_pos, g.block_le, g.len_le⟩, ⟨g.channels_pos, g.channels_le⟩, hsilent,
      congrArg State.wrPos hframe, hread, hgood.delay_le hprepared⟩

end Sys2Proof.Machine
end

section
namespace Sys2Proof.Machine

/-! PROC's faults (41_process R100). -/

/-- While `ERR = 0`, a transaction that fails a check raises its code and changes nothing else (60_exceptions R144). -/
theorem State.transact_raised_eq {s : State} {code : ErrCode} (he : s.err = none) (w : StepResult) :
    s.transact (some code) w = .next { s with err := some code, answer := some ⟨.fault code, none⟩ } := by
  rw [State.transact_raised he]
  simp [State.raise, he]

theorem execProc_raised {s : State} {nout nin n : Nat} {code : ErrCode} (he : s.err = none)
    (hc : s.procCheck nin n = some code) :
    execProc nout nin n s = .next { s with err := some code, answer := some ⟨.fault code, none⟩ } := by
  rw [execProc, hc, State.transact_raised_eq he]

theorem procCheck_of_unprepared {s : State} (hp : s.prepared = false) (nin n : Nat) :
    s.procCheck nin n = some .notPrepared :=
  if_pos (by rw [hp]; rfl)

theorem procCheck_of_unset {s : State} (hp : s.prepared = true) (hset : ¬ s.MixSet) (nin n : Nat) :
    s.procCheck nin n = some .unset := by
  rw [State.procCheck, if_neg (by simp [hp])]
  refine if_pos ?_
  contrapose! hset
  simpa [and_assoc] using hset

theorem procCheck_of_badOperand {s : State} (hp : s.prepared = true) (hset : s.MixSet) {nin n : Nat}
    (hbad : nin = 0 ∨ s.cfgBlock.toNat < n) : s.procCheck nin n = some .badOperand := by
  obtain ⟨hdry, hwet, hfeedback⟩ := hset
  rw [State.procCheck, if_neg (by simp [hp]), if_neg (by simp [hdry, hwet, hfeedback]), if_pos hbad]

/-- Settles O28, by which of PROC's checks fails first. -/
theorem procFaults : Obligations.ProcFaults := fun _ _ nin n he =>
  ⟨fun hp => execProc_raised he (procCheck_of_unprepared hp nin n),
    fun hp hset => execProc_raised he (procCheck_of_unset hp hset nin n),
    fun hp hset hbad => execProc_raised he (procCheck_of_badOperand hp hset hbad)⟩

end Sys2Proof.Machine
end

section
namespace Sys2Proof.Machine

/-! What PROC does where its checks pass (41_process R101 to R106). -/

section
variable {s : State} {nout nin n : Nat}

theorem State.ProcReady.trails (h : s.ProcReady nin n) : s.Trails := h.1.trails h.2.2.1

@[simp] theorem State.processed_ring (s : State) (nout nin n : Nat) :
    (s.processed nout nin n).ring = (s.mixChannels nin n).ring := rfl

@[simp] theorem State.processed_blk (s : State) (nout nin n : Nat) :
    (s.processed nout nin n).blk = clearChannels nin nout n (s.mixChannels nin n).blk := rfl

/-- A word outside the spans of the channels `a .. b-1` is after channel `b-1` what it was before channel `a`. -/
theorem State.Trails.mixChannels_keeps (h : s.Trails) (hn : n ≤ s.len) (hn2 : n ≤ 65536) {a b c j : Nat}
    (hab : a ≤ b) (hj : j < 2 ^ 32)
    (hout : ¬ ∃ ch i, a ≤ ch ∧ ch < b ∧ i < n ∧ c = min ch (s.cfgNch.toNat - 1) ∧ j = s.writeSpan i) :
    ringRead (s.mixChannels b n).ring c j = ringRead (s.mixChannels a n).ring c j := by
  induction b, hab using Nat.le_induction with
  | base => rfl
  | succ b hab ih =>
    obtain ⟨hchannel, -⟩ := h.mixChannels hn hn2 (b + 1)
    obtain ⟨-, hframe⟩ := hchannel b (Nat.lt_succ_self b)
    rw [hframe c j hj fun ⟨i, hi, hspan⟩ => hout ⟨b, i, hab, Nat.lt_succ_self b, hi, hspan⟩]
    exact ih fun ⟨ch, i, ha, hb, hspan⟩ => hout ⟨ch, i, ha, Nat.lt_succ_of_lt hb, hspan⟩

/-- The recurrence of a channel is about the words of its delay region and its own output alone. -/
theorem State.ChannelRecurrence.congr {before after out before' after' out' : Memory} {ch : Nat}
    (h : s.ChannelRecurrence before after out n ch)
    (hbefore : ∀ k, ringRead before' (s.delayChannel ch) (s.readSpan k) =
      ringRead before (s.delayChannel ch) (s.readSpan k))
    (hafter : ∀ k, ringRead after' (s.delayChannel ch) (s.writeSpan k) =
      ringRead after (s.delayChannel ch) (s.writeSpan k))
    (hout : ∀ k, k < n → blkRead out' ch k = blkRead out ch k) : s.ChannelRecurrence before' after' out' n ch := by
  intro k hk
  have hword := h k hk
  unfold State.delayChannel at hbefore hafter
  dsimp only at hword ⊢
  rwa [hout k hk, hafter k, hafter (k - s.lag), hbefore k]

/-- The output of the input channels is not cleared. -/
theorem blkRead_clearChannels_input {ch i : Nat} (m : Memory) (hn : n ≤ 65536) (hch : ch < nin) (hi : i < n) :
    blkRead (clearChannels nin nout n m) ch i = blkRead m ch i := by
  rw [blkRead_clearChannels m hn (by omega), if_neg (by omega)]

/-- Each input channel meets the recurrence, from the ring the channel before it left to the ring it leaves. -/
theorem State.ProcReady.channelRecurrence (h : s.ProcReady nin n) {ch : Nat} (hch : ch < nin) :
    s.ChannelRecurrence (s.mixChannels ch n).ring (s.mixChannels (ch + 1) n).ring (s.processed nout nin n).blk n ch := by
  obtain ⟨-, -, hn, hn2⟩ := h.bounds
  obtain ⟨hchannel, -⟩ := h.trails.mixChannels hn hn2.le nin
  exact (hchannel ch hch).1.congr (fun _ => rfl) (fun _ => rfl)
    fun _ hk => blkRead_clearChannels_input _ hn2.le hch hk

/-- PROC writes no ring word but those of its input channels' spans. -/
theorem State.ProcReady.ring_frame (h : s.ProcReady nin n) {c j : Nat} (hj : j < 2 ^ 32)
    (hout : ¬ ∃ ch i, ch < nin ∧ i < n ∧ c = min ch (s.cfgNch.toNat - 1) ∧ j = s.writeSpan i) :
    ringRead (s.processed nout nin n).ring c j = ringRead s.ring c j := by
  obtain ⟨-, -, hn, hn2⟩ := h.bounds
  exact h.trails.mixChannels_keeps hn hn2.le (Nat.zero_le nin) hj
    fun ⟨ch, i, _, hspan⟩ => hout ⟨ch, i, hspan⟩

/-- With a delay channel of its own, a channel finds its delay region as PROC found it, and no later channel touches
it. -/
theorem State.ProcReady.ownRecurrence (h : s.ProcReady nin n) (hown : nin ≤ s.cfgNch.toNat) {ch : Nat}
    (hch : ch < nin) :
    s.ChannelRecurrence s.ring (s.processed nout nin n).ring (s.processed nout nin n).blk n ch := by
  obtain ⟨hw, -, hn, hn2⟩ := h.bounds
  have hl : 0 < s.len := Nat.zero_lt_of_lt hw
  have hdc : s.delayChannel ch = ch := State.delayChannel_own (hch.trans_le hown)
  refine h.channelRecurrence hch |>.congr (fun k => ?_) (fun k => ?_) fun _ _ => rfl
  · refine (h.trails.mixChannels_keeps hn hn2.le (Nat.zero_le ch) ((s.readSpan_lt hl k).trans s.len_lt) ?_).symm
    rintro ⟨ch', i, -, hlt, -, hregion, -⟩
    omega
  · refine h.trails.mixChannels_keeps hn hn2.le (Nat.succ_le_of_lt hch) ((s.writeSpan_lt hl k).trans s.len_lt) ?_
    rintro ⟨ch', i, hle, hlt, -, hregion, -⟩
    omega

end

/-- Settles O22: where the checks pass the work is done, and `L` is below `2 ^ 32`, so each cursor fits its register. -/
theorem procMovesCursors : Obligations.ProcMovesCursors := by
  intro s nout nin n wf h
  obtain ⟨hw, -⟩ := h.bounds
  have hfits : ∀ pos, pos % s.len < 2 ^ 32 := fun pos => (Nat.mod_lt pos (Nat.zero_lt_of_lt hw)).trans s.len_lt
  refine ⟨_, execProc_ready wf h, ?_, toNat_ofNat32 (hfits _), toNat_ofNat32 (hfits _)⟩
  rw [State.processed_eq]

/-- Settles O23, by the frame of the channels and what the clearing writes. -/
theorem procWritesOnlyItsWords : Obligations.ProcWritesOnlyItsWords := by
  intro s nout nin n wf h
  obtain ⟨-, -, hn, hn2⟩ := h.bounds
  obtain ⟨-, hblk⟩ := h.trails.mixChannels hn hn2.le nin
  refine ⟨_, execProc_ready wf h, fun c j hj hout => h.ring_frame hj hout, fun ch i hi hout => ?_,
    fun ch i hin hout hi => ?_⟩
  · rw [State.processed_blk, blkRead_clearChannels _ hn2.le hi, if_neg (by omega), hblk ch i hi (by omega)]
  · rw [State.processed_blk, blkRead_clearChannels _ hn2.le (by omega), if_pos ⟨hin, hout, hi⟩]

/-- Settles O24: the chain of contents is what the loop over the channels leaves after each pass. -/
theorem procRunsChannelsInOrder : Obligations.ProcRunsChannelsInOrder := by
  intro s nout nin n wf h
  obtain ⟨-, -, hn, hn2⟩ := h.bounds
  obtain ⟨hchannel, -⟩ := h.trails.mixChannels hn hn2.le nin
  exact ⟨_, fun ch => (s.mixChannels ch n).ring, execProc_ready wf h, rfl, rfl,
    fun ch hch => ⟨h.channelRecurrence hch, (hchannel ch hch).2⟩⟩

/-- Settles O25: with delay channels of their own, the chain of O24 is seen in each region by its own channel alone. -/
theorem procRecurrence : Obligations.ProcRecurrence := fun _ _ _ _ wf h hown =>
  ⟨_, execProc_ready wf h, fun _ hch => h.ownRecurrence hown hch⟩

/-! A channel depends on nothing but its own samples and its own delay region (41_process R103). -/

/-- The recurrence determines the output and the words written: where two runs of it start from delay regions that agree
under the read cursor, they agree on both. By strong induction, since sample `k` may read what sample `k - D'` wrote. -/
theorem State.ChannelRecurrence.unique {s : State} {before after out before' after' out' : Memory} {n ch : Nat}
    (hlag : 1 ≤ s.lag) (h : s.ChannelRecurrence before after out n ch)
    (h' : s.ChannelRecurrence before' after' out' n ch)
    (hbefore : ∀ k, ringRead before' (s.delayChannel ch) (s.readSpan k) =
      ringRead before (s.delayChannel ch) (s.readSpan k)) {k : Nat} (hk : k < n) :
    blkRead out' ch k = blkRead out ch k ∧
      ringRead after' (s.delayChannel ch) (s.writeSpan k) = ringRead after (s.delayChannel ch) (s.writeSpan k) := by
  induction k using Nat.strong_induction_on with
  | h k ih =>
    have hdelayed : (if s.lag ≤ k then ringRead after' (s.delayChannel ch) (s.writeSpan (k - s.lag))
          else ringRead before' (s.delayChannel ch) (s.readSpan k)) =
        if s.lag ≤ k then ringRead after (s.delayChannel ch) (s.writeSpan (k - s.lag))
          else ringRead before (s.delayChannel ch) (s.readSpan k) := by
      split_ifs
      · exact (ih (k - s.lag) (by omega) (by omega)).2
      · exact hbefore k
    obtain ⟨hput, hback⟩ := h k hk
    obtain ⟨hput', hback'⟩ := h' k hk
    unfold State.delayChannel at hdelayed ⊢
    rw [hdelayed] at hput' hback'
    exact ⟨hput'.trans hput.symm, hback'.trans hback.symm⟩

/-- The recurrence of a state with other memories is that of the state itself, where the channel's samples agree. -/
theorem State.ChannelRecurrence.of_memories {s : State} {ring blk before after out : Memory} {n ch : Nat}
    (h : ({ s with ring := ring, blk := blk } : State).ChannelRecurrence before after out n ch)
    (hin : ∀ i, i < n → blkRead blk ch i = blkRead s.blk ch i) : s.ChannelRecurrence before after out n ch := by
  intro k hk
  rw [← hin k hk]
  exact h k hk

/-- Settles O26: inside the span both runs meet one recurrence over regions that agree, and outside it PROC leaves the
region as it was. -/
theorem procChannelsIndependent : Obligations.ProcChannelsIndependent := by
  intro s s' nout nin n ch wf h h' hown hch hs' hring hblk
  obtain ⟨ring, blk, rfl⟩ : ∃ ring blk, s' = { s with ring := ring, blk := blk } := ⟨_, _, hs'⟩
  have hl : 0 < s.len := Nat.zero_lt_of_lt h.bounds.1
  have hdc : s.delayChannel ch = ch := State.delayChannel_own (hch.trans_le hown)
  have hrec := h.ownRecurrence (nout := nout) hown hch
  have hrec' := (h'.ownRecurrence (nout := nout) hown hch).of_memories hblk
  have hread : ∀ k, ringRead ring (s.delayChannel ch) (s.readSpan k) =
      ringRead s.ring (s.delayChannel ch) (s.readSpan k) := fun k => by
    rw [hdc]
    exact hring _ (s.readSpan_lt hl k)
  have hagree {k : Nat} (hk : k < n) := hrec.unique h.trails.lag_pos hrec' hread hk
  refine ⟨_, _, execProc_ready wf h, execProc_ready wf h', fun i hi => (hagree hi).1, fun j hj => ?_⟩
  by_cases hspan : ∃ i, i < n ∧ j = s.writeSpan i
  · obtain ⟨i, hi, rfl⟩ := hspan
    rw [← hdc]
    exact (hagree hi).2
  · have hj' : j < 2 ^ 32 := hj.trans s.len_lt
    have hout : ¬ ∃ ch' i, ch' < nin ∧ i < n ∧ ch = min ch' (s.cfgNch.toNat - 1) ∧ j = s.writeSpan i :=
      fun ⟨_, i, _, hi, _, he⟩ => hspan ⟨i, hi, he⟩
    rw [h.ring_frame hj' hout, h'.ring_frame hj' hout]
    exact hring j hj

/-! Silence (41_process R106). -/

theorem binary32Mul_comm_of_finite {a b : F32} (ha : f32Finite a = true) (hb : f32Finite b = true) :
    binary32Mul a b = binary32Mul b a := by
  rw [binary32Mul_finite ha hb, binary32Mul_finite hb ha, Nat.mul_comm, bne_comm]

/-- `+0.0` plus a zero of either sign. -/
theorem binary32Add_zeros : binary32Add 0 0 = some 0 ∧ binary32Add 0 0x80000000 = some 0 := by decide +kernel

/-- `+0.0 + (+0.0 * d) = +0.0` for a finite `d`: the product is a zero of either sign. -/
theorem silent_feedback {d : F32} (hd : f32Finite d = true) (t u : Nat) :
    fadd binary32 t 0 (fmul binary32 u 0 d) = 0 := by
  change settle t (binary32Add 0 (settle u (binary32Mul 0 d))) = 0
  rw [binary32Mul_comm_of_finite zero_fields.2.1 hd]
  rcases binary32Mul_zero hd with hzero | hzero <;> rw [hzero]
  · exact congrArg (settle t) binary32Add_zeros.1
  · exact congrArg (settle t) binary32Add_zeros.2

/-- With `FEEDBACK = +0.0` and silence in, a channel that reads finite words writes `+0.0` alone: a word it wrote
itself is one of them. -/
theorem State.ChannelRecurrence.silent {s : State} {before after out : Memory} {n ch : Nat}
    (h : s.ChannelRecurrence before after out n ch) (hlag : 1 ≤ s.lag) (hnum : s.numerics = binary32)
    (hfeedback : s.feedback.bits = 0) (hin : ∀ i, i < n → blkRead s.blk ch i = 0)
    (hfinite : ∀ k, f32Finite (ringRead before (s.delayChannel ch) (s.readSpan k)) = true) {k : Nat} (hk : k < n) :
    ringRead after (s.delayChannel ch) (s.writeSpan k) = 0 := by
  induction k using Nat.strong_induction_on with
  | h k ih =>
    obtain ⟨-, hback⟩ := h k hk
    rw [hnum, hfeedback, hin k hk] at hback
    refine hback.trans (silent_feedback ?_ _ _)
    split_ifs
    · have hwritten := ih (k - s.lag) (by omega) (by omega)
      unfold State.delayChannel at hwritten
      rw [hwritten]
      exact zero_fields.2.1
    · exact hfinite k

/-- After `m` silent channels over a finite ring, every ring word is finite, and those of the channels' spans are
`+0.0`: a channel writes `+0.0` or leaves the word as it was. -/
theorem State.ProcReady.mixChannels_silent {s : State} {nin n : Nat} (h : s.ProcReady nin n)
    (hnum : s.numerics = binary32) (hfeedback : s.feedback.bits = 0)
    (hin : ∀ ch i, ch < nin → i < n → blkRead s.blk ch i = 0)
    (hfinite : ∀ c j, c < s.cfgNch.toNat → j < s.len → f32Finite (ringRead s.ring c j) = true) {m : Nat}
    (hm : m ≤ nin) :
    (∀ c j, c < s.cfgNch.toNat → j < s.len → f32Finite (ringRead (s.mixChannels m n).ring c j) = true) ∧
      ∀ ch i, ch < m → i < n → ringRead (s.mixChannels m n).ring (s.delayChannel ch) (s.writeSpan i) = 0 := by
  obtain ⟨hw, -, hn, hn2⟩ := h.bounds
  have hl : 0 < s.len := Nat.zero_lt_of_lt hw
  have hnch : 1 ≤ s.cfgNch.toNat := (h.1.geometry h.2.2.1).channels_pos
  induction m with
  | zero => exact ⟨hfinite, fun ch _ hch => absurd hch (Nat.not_lt_zero ch)⟩
  | succ m ih =>
    obtain ⟨hfin, hzero⟩ := ih (by omega)
    obtain ⟨hchannel, -⟩ := h.trails.mixChannels hn hn2.le (m + 1)
    obtain ⟨hrec, hframe⟩ := hchannel m (Nat.lt_succ_self m)
    have hread : ∀ k, f32Finite (ringRead (s.mixChannels m n).ring (s.delayChannel m) (s.readSpan k)) = true :=
      fun k => hfin _ _ (s.delayChannel_lt m hnch) (s.readSpan_lt hl k)
    have hwritten {k : Nat} (hk : k < n) :=
      hrec.silent h.trails.lag_pos hnum hfeedback (fun i hi => hin m i hm hi) hread hk
    have hword : ∀ c j, j < s.len → ringRead (s.mixChannels (m + 1) n).ring c j = 0 ∨
        ringRead (s.mixChannels (m + 1) n).ring c j = ringRead (s.mixChannels m n).ring c j := fun c j hj => by
      by_cases hspan : ∃ i, i < n ∧ c = s.delayChannel m ∧ j = s.writeSpan i
      · obtain ⟨i, hi, rfl, rfl⟩ := hspan
        exact .inl (hwritten hi)
      · exact .inr (hframe c j (hj.trans s.len_lt) hspan)
    refine ⟨fun c j hc hj => ?_, fun ch i hch hi => ?_⟩
    · rcases hword c j hj with heq | heq <;> rw [heq]
      · exact zero_fields.2.1
      · exact hfin c j hc hj
    · rcases Nat.lt_succ_iff_lt_or_eq.1 hch with hlt | rfl
      · rcases hword (s.delayChannel ch) _ (s.writeSpan_lt hl i) with heq | heq
        · exact heq
        · exact heq.trans (hzero ch i hlt hi)
      · exact hwritten hi

/-- Settles O27, after the last of the silent channels. -/
theorem procSilenceSilences : Obligations.ProcSilenceSilences := fun _ _ _ _ wf h hnum hfeedback hin hfinite =>
  ⟨_, execProc_ready wf h, (h.mixChannels_silent hnum hfeedback hin hfinite le_rfl).2⟩

end Sys2Proof.Machine
end

section
namespace Sys2Proof.Machine

/-! The bulk copies and ADV (42_bulk R110 to R116). -/

/-! The split of a span (42_bulk R111). -/

/-- The positions of a span no longer than the ring are pairwise distinct. -/
theorem spanIndex_inj {len pos n k k' : Nat} (hn : n ≤ len) (hp : pos < len) (hk : k < n) (hk' : k' < n)
    (h : spanIndex len pos n k = spanIndex len pos n k') : k = k' := by
  rw [spanIndex_eq hn hp hk, spanIndex_eq hn hp hk'] at h
  exact span_inj (hk.trans_le hn) (hk'.trans_le hn) h

/-- The second sub-copy ends before the span's start. -/
theorem sub_firstPart_le {len n : Nat} (pos : Nat) (hn : n ≤ len) : n - firstPart len pos n ≤ pos := by
  unfold firstPart
  omega

/-- Settles O29: the positions are those of `(pos + k) mod L`, which meets no word twice in one turn. -/
theorem splitRule : Obligations.SplitRule := fun _ pos _ hn hp =>
  ⟨fun _ => spanIndex_eq hn hp, fun _ _ => spanIndex_inj hn hp, sub_firstPart_le pos hn⟩

/-! The words the copies write (42_bulk R113 to R115). -/

/-- The free values of element `k`, counted from `draws`. -/
theorem bulkDraw_add (t k m : Nat) : bulkDraw t k + m = t + (2 + m) + 4 * k := by
  unfold bulkDraw
  omega

/-- The scaled source of BWR and BADD, with the delay channel and the free values written out. -/
theorem State.scaledSource_eq (s : State) (ch : Nat) (src : Source) (n k : Nat) : s.scaledSource ch src n k =
    fmul s.numerics (s.draws + 3 + 4 * k) (s.gain n k)
      (match src with
        | .blk => blkRead s.blk ch k
        | .wet => (wetRead s.wet (min ch (s.cfgNch.toNat - 1)) k).getD (Config.freeWord (s.draws + 2 + 4 * k))) := by
  unfold State.scaledSource
  rw [bulkDraw_add]
  cases src <;> rfl

/-- A block channel that fits its field. -/
theorem ch_lt_of_fits {ch n : Nat} (h : (decide (ch < 16) && decide (n < 65536)) = true) : ch < 16 :=
  of_decide_eq_true (Bool.and_eq_true_iff.1 h).1

/-- Settles O31: the ramp is the gain of the state. -/
theorem bwrWritesSpan : Obligations.BwrWritesSpan := by
  intro s ch n src wf h
  obtain ⟨t, ht, hframe, hspan, hother⟩ := h.fit.bwr (ch_lt_of_fits wf) src
  exact ⟨t, s.gain n, ht, s.gain_ramp n, hframe, fun k hk => (hspan k hk).trans (s.scaledSource_eq ch src n k), hother⟩

/-- Settles O32: the ramp is the gain of the state. -/
theorem brdReadsSpan : Obligations.BrdReadsSpan := by
  intro s ch n wf h
  obtain ⟨t, ht, hframe, hspan, hother⟩ := h.fit.brd (ch_lt_of_fits wf)
  refine ⟨t, s.gain n, ht, s.gain_ramp n, hframe, fun k hk => (hspan k hk).trans ?_, hother⟩
  rw [bulkDraw_add]
  rfl

/-- Settles O33: the ramp is the gain of the state. -/
theorem baddAddsToSpan : Obligations.BaddAddsToSpan := by
  intro s ch n src wf h
  obtain ⟨t, ht, hframe, hspan, hother⟩ := h.fit.badd (ch_lt_of_fits wf) src
  refine ⟨t, s.gain n, ht, s.gain_ramp n, hframe, fun k hk => (hspan k hk).trans ?_, hother⟩
  rw [bulkDraw_add, s.scaledSource_eq]
  rfl

/-- Settles O34: a loop of no passes, which uses no free value. -/
theorem bulkZeroLength : Obligations.BulkZeroLength := fun _ _ _ hch h =>
  ⟨h.fit.passed hch _, h.fit.passed hch _, h.fit.passed hch _⟩

/-! The checks of the copies (42_bulk R110). -/

theorem bulkCheck_of_unprepared {s : State} (hp : s.prepared = false) (n : Nat) :
    s.bulkCheck n = some .notPrepared :=
  if_pos (by rw [hp]; rfl)

theorem bulkCheck_of_unset {s : State} (hp : s.prepared = true) (hset : ¬ s.GainSet) (n : Nat) :
    s.bulkCheck n = some .unset := by
  rw [State.bulkCheck, if_neg (by simp [hp])]
  refine if_pos ?_
  contrapose! hset
  simpa using hset

theorem bulkCheck_of_badOperand {s : State} (hp : s.prepared = true) (hset : s.GainSet) {n : Nat}
    (hbad : s.cfgBlock.toNat < n) : s.bulkCheck n = some .badOperand := by
  obtain ⟨hstart, hend⟩ := hset
  rw [State.bulkCheck, if_neg (by simp [hp]), if_neg (by simp [hstart, hend]), if_pos hbad]

/-- Each of the three copies raises the code its check gives and changes nothing else (60_exceptions R144). -/
theorem exec_bulk_raised {s : State} {ch n : Nat} {src : Source} {i : Instr} {code : ErrCode} (he : s.err = none)
    (hi : i ∈ [Instr.bwr ch src n, .brd ch n, .badd ch src n]) (hc : s.bulkCheck n = some code) :
    exec i s = .next { s with err := some code, answer := some ⟨.fault code, none⟩ } := by
  have hraised : ∀ w, s.transact (s.bulkCheck n) w =
      .next { s with err := some code, answer := some ⟨.fault code, none⟩ } := fun w => by
    rw [hc, State.transact_raised_eq he]
  simp only [List.mem_cons, List.not_mem_nil, or_false] at hi
  obtain rfl | rfl | rfl := hi
  · exact hraised _
  · exact hraised _
  · exact hraised _

/-- Settles O35, by which of the copies' checks fails first. -/
theorem bulkFaults : Obligations.BulkFaults := fun _ _ n _ _ he hi =>
  ⟨fun hp => exec_bulk_raised he hi (bulkCheck_of_unprepared hp n),
    fun hp hset => exec_bulk_raised he hi (bulkCheck_of_unset hp hset n),
    fun hp hset hbad => exec_bulk_raised he hi (bulkCheck_of_badOperand hp hset hbad)⟩

/-! ADV (42_bulk R116). -/

/-- `0x70000000 OR n` is the word the encoder writes for ADV `n`: the operand lies below the opcode. -/
theorem advWord_eq (n : BitVec 16) : encodeCommand (.adv n.toNat) = some (0x70000000 ||| n.zeroExtend 32) := by
  have hn : n.toNat < 2 ^ 28 := n.isLt.trans (by norm_num)
  refine congrArg some (BitVec.eq_of_toNat_eq ?_)
  rw [toNat_ofNat32 (by omega), BitVec.toNat_or, BitVec.toNat_setWidth,
    Nat.mod_eq_of_lt (by omega)]
  exact Nat.two_pow_add_eq_or_of_lt hn 7

theorem decodeCommand_advWord (n : BitVec 16) : decodeCommand (0x70000000 ||| n.zeroExtend 32) = .ok (.adv n.toNat) :=
  decodeCommand_encodeCommand (decide_eq_true n.isLt) (advWord_eq n)

/-- Settles O36: while prepared ADV's work is done, and `L` is below `2 ^ 32`, so each cursor fits its register. -/
theorem advMovesCursors : Obligations.AdvMovesCursors := by
  refine ⟨decodeCommand_advWord, fun s n hs he => ⟨fun hp => ?_, fun hp => ?_⟩⟩
  · have hl : 0 < s.len := Nat.zero_lt_of_lt (hs.geometry hp).write_lt
    have hfits : ∀ pos, pos % s.len < 2 ^ 32 := fun pos => (Nat.mod_lt pos hl).trans s.len_lt
    exact ⟨_, execAdv_ready he hp hl, rfl, toNat_ofNat32 (hfits _), toNat_ofNat32 (hfits _)⟩
  · have hc : s.advCheck = some .notPrepared := if_pos (by rw [hp]; rfl)
    rw [exec, execAdv, hc, State.transact_raised_eq he]

end Sys2Proof.Machine
end

section
namespace Sys2Proof.Machine

/-! A constant gain (42_bulk R112). -/

section
variable {a b r : F32} {c : Config.Numerics} (t : Nat)

/-! An operation that has a result uses no free value. -/

theorem fadd_of_some (h : c.add a b = some r) : fadd c t a b = r := by
  rw [fadd, h, settle, Option.getD_some]

theorem fsub_of_some (h : c.sub a b = some r) : fsub c t a b = r := by
  rw [fsub, h, settle, Option.getD_some]

theorem fmul_of_some (h : c.mul a b = some r) : fmul c t a b = r := by
  rw [fmul, h, settle, Option.getD_some]

theorem fdiv_of_some (h : c.div a b = some r) : fdiv c t a b = r := by
  rw [fdiv, h, settle, Option.getD_some]

end

theorem f32Scaled_negate (w : F32) : f32Scaled (f32Negate w) = -f32Scaled w := by
  have hunits : f32Units (f32Negate w) = f32Units w := f32Units_magnitude w _
  unfold f32Scaled
  rw [f32Negative_negate, hunits]
  cases f32Negative w
  · rfl
  · exact (neg_neg _).symm

/-- `g - g = +0.0`, for either zero too: the operands of the sum differ in sign. -/
theorem binary32Sub_self {g : F32} (hg : f32Finite g = true) : binary32Sub g g = some 0 := by
  rw [binary32Sub, binary32Add_finite hg ((f32Finite_negate g).trans hg), f32Scaled_negate, add_neg_cancel, if_pos rfl,
    f32Negative_negate, Bool.and_not_self, Int.natAbs_zero, roundMagnitude_zero]
  rfl

/-- `+0.0` by a positive number is `+0.0`. -/
theorem binary32Div_of_zero {b : F32} (hb : f32Finite b = true) (h0 : f32Units b ≠ 0) (hs : f32Negative b = false) :
    binary32Div 0 b = some 0 := by
  obtain ⟨hneg, hfin, hunits⟩ := zero_fields
  rw [binary32Div_finite hfin hb h0, hneg, hs, hunits, Nat.zero_mul, roundMagnitude_zero]
  rfl

/-- `u2f(n)` is a positive number for `1 <= n < 2^16`. -/
theorem binary32OfNat_pos {n : Nat} (h1 : 1 ≤ n) (h : n < 65536) : f32Finite (binary32OfNat n) = true ∧
    f32Units (binary32OfNat n) ≠ 0 ∧ f32Negative (binary32OfNat n) = false := by
  obtain ⟨hfin, hreal⟩ := binary32OfNat_exact h
  refine ⟨hfin, fun hunits => ?_, f32Negative_pack (roundMagnitude_lt _ _)⟩
  rw [f32Real_eq_units, hunits, Nat.cast_zero, zero_div, mul_zero] at hreal
  have : n = 0 := by exact_mod_cast hreal.symm
  omega

theorem binary32Add_comm_of_finite {a b : F32} (ha : f32Finite a = true) (hb : f32Finite b = true) :
    binary32Add a b = binary32Add b a := by
  rw [binary32Add_finite ha hb, binary32Add_finite hb ha, add_comm, Bool.and_comm]

/-- `-0.0 + +0.0 = +0.0`. -/
theorem binary32Add_negZero_zero : binary32Add 0x80000000 0 = some 0 := by decide +kernel

/-- The increment of a ramp whose ends are one finite gain is `+0.0`. -/
theorem equalEnds_increment {g : F32} {n : Nat} (hg : f32Finite g = true) (h1 : 1 ≤ n) (hn : n < 65536) (t u : Nat) :
    fdiv binary32 t (fsub binary32 u g g) (u2f binary32 n) = 0 := by
  obtain ⟨hfin, hunits, hsign⟩ := binary32OfNat_pos h1 hn
  rw [fsub_of_some u (binary32Sub_self hg)]
  exact fdiv_of_some t (binary32Div_of_zero hfin hunits hsign)

/-- Adding the increment `+0.0` leaves a finite gain, but that `-0.0` becomes `+0.0`. -/
theorem fadd_zero_right {g : F32} (hg : f32Finite g = true) (t : Nat) :
    fadd binary32 t g 0 = if g = 0x80000000 then 0 else g := by
  split_ifs with h
  · rw [h]
    exact fadd_of_some t binary32Add_negZero_zero
  · exact fadd_of_some t
      ((binary32Add_comm_of_finite hg zero_fields.2.1).trans (binary32Add_zero (f32Finite_not_nan hg) h))

/-- Settles O30, by induction along the ramp: each step adds `+0.0`. -/
theorem equalEndsConstantGain : Obligations.EqualEndsConstantGain := by
  intro s g n hstart hend hg h1 hn hnum
  rw [hnum]
  refine ⟨equalEnds_increment hg h1 hn _ _, fun gain hramp k => ?_⟩
  obtain ⟨hfirst, hnext⟩ := hramp
  rw [hnum, hstart, hend, equalEnds_increment hg h1 hn] at hnext
  induction k with
  | zero => rw [hfirst, hstart, if_neg (by omega)]
  | succ k ih =>
    rw [hnext, ih]
    by_cases hzero : g = 0x80000000
    · by_cases hk : 1 ≤ k
      · rw [if_pos ⟨hzero, hk⟩, if_pos ⟨hzero, by omega⟩]
        exact (fadd_zero_right zero_fields.2.1 _).trans (if_neg (by decide))
      · rw [if_neg (by omega), if_pos ⟨hzero, by omega⟩, fadd_zero_right hg, if_pos hzero]
    · rw [if_neg (by tauto), if_neg (by tauto), fadd_zero_right hg, if_neg hzero]

end Sys2Proof.Machine
end

section
namespace Sys2Proof.Machine

/-! The bulk-strategy block and PROC (42_bulk R117). -/

/-! Feedback sums: `fadd(x, fmul(FEEDBACK, d))` with the numerics of 00_scope R13. -/

/-- A rounded magnitude is at most infinity's, so it packs into no NaN. -/
theorem f32IsNaN_pack_round (neg : Bool) (num den : Nat) : f32IsNaN (f32Pack neg (roundMagnitude num den)) = false := by
  have hle : roundMagnitude num den ≤ 0x7F800000 := min_le_right _ _
  rw [f32IsNaN, f32Exponent_pack (roundMagnitude_lt _ _), f32Fraction_pack (roundMagnitude_lt _ _), Bool.and_eq_false_iff,
    beq_eq_false_iff_ne, bne_eq_false_iff_eq]
  omega

/-- A product of finite numbers has a result, which may be an infinity. -/
theorem exists_binary32Mul {a b : F32} (ha : f32Finite a = true) (hb : f32Finite b = true) :
    ∃ p, binary32Mul a b = some p ∧ f32IsNaN p = false :=
  ⟨_, binary32Mul_finite ha hb, f32IsNaN_pack_round _ _ _⟩

/-- A finite number and one that is no NaN have a sum. -/
theorem exists_binary32Add {a b : F32} (ha : f32Finite a = true) (hb : f32IsNaN b = false) :
    ∃ r, binary32Add a b = some r := by
  rcases f32_finite_or_inf hb with hb | hb
  · exact ⟨_, binary32Add_finite ha hb⟩
  · exact ⟨_, binary32Add_infinity ha hb⟩

/-- On finite numbers the sum uses no free value. -/
theorem feedbackSum_free {f x d : F32} (hf : f32Finite f = true) (hx : f32Finite x = true) (hd : f32Finite d = true)
    (t u t' u' : Nat) :
    fadd binary32 t x (fmul binary32 u f d) = fadd binary32 t' x (fmul binary32 u' f d) := by
  obtain ⟨p, hp, hnan⟩ := exists_binary32Mul hf hd
  obtain ⟨r, hr⟩ := exists_binary32Add hx hnan
  rw [fmul_of_some (c := binary32) u hp, fmul_of_some (c := binary32) u' hp, fadd_of_some (c := binary32) t hr,
    fadd_of_some (c := binary32) t' hr]

/-- `1.0` and `+0.0` plus a zero of either sign. -/
theorem binary32Add_zero_signs {x : F32} (hx : x = 0x3F800000 ∨ x = 0) :
    binary32Add x 0 = some x ∧ binary32Add x 0x80000000 = some x := by
  obtain rfl | rfl := hx
  · decide +kernel
  · exact binary32Add_zeros

/-- `1.0` and `+0.0` take no feedback from a silent word. -/
theorem feedbackSum_of_silence {f x : F32} (hf : f32Finite f = true) (hx : x = 0x3F800000 ∨ x = 0) (t u : Nat) :
    fadd binary32 t x (fmul binary32 u f 0) = x := by
  obtain ⟨hplus, hminus⟩ := binary32Add_zero_signs hx
  rcases binary32Mul_zero hf with hzero | hzero <;> rw [fmul_of_some (c := binary32) u hzero]
  · exact fadd_of_some t hplus
  · exact fadd_of_some t hminus

/-- Silence and the echo of an impulse: the feedback itself. -/
theorem feedbackSum_of_impulse {f : F32} (hf : f32Finite f = true) (hne : f ≠ 0x80000000) (t u : Nat) :
    fadd binary32 t 0 (fmul binary32 u f 0x3F800000) = f := by
  have hmul : binary32Mul f 0x3F800000 = some f :=
    (binary32Mul_comm_of_finite hf one_fields.2.1).trans (binary32Mul_one (f32Finite_not_nan hf))
  rw [fmul_of_some (c := binary32) u hmul]
  exact fadd_of_some t (binary32Add_zero (f32Finite_not_nan hf) hne)

/-! The commands of the block, with both ends of the ramp at one gain. -/

/-- `g` is a gain that a ramp with both ends at it keeps: finite and not `-0.0`. -/
def FlatGain (g : F32) : Prop := f32Finite g = true ∧ g ≠ 0x80000000

/-- `1.0` is such a gain. -/
theorem flatGain_one : FlatGain 0x3F800000 := ⟨one_fields.2.1, by decide⟩

theorem FlatGain.gain_eq {s : State} {g : F32} {n k : Nat} (hg : FlatGain g) (hnum : s.numerics = binary32)
    (hstart : s.gainStart.bits = g) (hend : s.gainEnd.bits = g) (hk : k < n) (hn : n < 65536) : s.gain n k = g := by
  obtain ⟨hfin, hne⟩ := hg
  obtain ⟨-, hramp⟩ := equalEndsConstantGain s g n hstart hend hfin (by omega) hn hnum
  rw [hramp _ (s.gain_ramp n) k, if_neg fun h => hne h.1]

/-- `s` with both ends of the ramp at `g`, and with other contents of what the commands of the block change. -/
def State.bulkStage (s : State) (g : HostReg) (ring wet : Memory) (draws : Nat) (answer : Option Answer) : State :=
  { s with gainStart := g, gainEnd := g, ring := ring, wet := wet, draws := draws, answer := answer }

section
variable {s : State} {nin n ch : Nat} (h : s.ProcReady nin n) (hch : ch < s.cfgNch.toNat)
include h

/-- The feedback PROC reads is legal, so finite. -/
theorem State.ProcReady.feedback_finite : f32Finite s.feedback.bits = true :=
  have ⟨hinv, _, _, ⟨_, _, hset⟩, _⟩ := h
  ((legalMix_iff _).1 (hinv.feedback_legal hset)).1

/-- A copy of as many elements as PROC has samples passes its checks. -/
theorem State.ProcReady.bulkStage_fit {g : HostReg} (hg : g.isSet = true) (ring wet : Memory) (draws : Nat)
    (answer : Option Answer) : (s.bulkStage g ring wet draws answer).BulkFit n :=
  have ⟨hinv, he, hp, _, _, hn⟩ := h
  ⟨he, hp, ⟨hg, hg⟩, hn, hinv.ready hp, h.bounds.2.2.2⟩

theorem State.ProcReady.bulkStage_gain {g : HostReg} (hg : FlatGain g.bits) (hnum : s.numerics = binary32)
    (ring wet : Memory) (draws : Nat) (answer : Option Answer) {k : Nat} (hk : k < n) :
    (s.bulkStage g ring wet draws answer).gain n k = g.bits :=
  hg.gain_eq hnum rfl rfl hk h.bounds.2.2.2

include hch

/-- A channel of its own fits the field CH. -/
theorem State.ProcReady.own_lt : ch < 16 := by
  have g := h.1.geometry h.2.2.1
  have := g.channels_le
  have := h.1.conf
  omega

/-- BRD in the block. -/
theorem State.ProcReady.bulkStage_brd {g : HostReg} (hg : g.isSet = true) (ring wet : Memory) (draws : Nat)
    (answer : Option Answer) : ∃ wet' draws',
      exec (.brd ch n) (s.bulkStage g ring wet draws answer) =
        .next (s.bulkStage g ring wet' draws' (some ⟨.done, none⟩)) ∧
      (FlatGain g.bits → s.numerics = binary32 → ∀ k, k < n →
        ∃ t, wetRead wet' ch k = some (fmul binary32 t g.bits (ringRead ring ch (s.readSpan k)))) := by
  have hdc : (s.bulkStage g ring wet draws answer).delayChannel ch = ch := State.delayChannel_own hch
  obtain ⟨t, ht, hframe, hspan, -⟩ := (h.bulkStage_fit hg ring wet draws answer).brd (h.own_lt hch)
  rw [hdc] at hspan
  refine ⟨t.wet, t.draws, ht.trans (congrArg _ hframe), fun hflat hnum k hk => ⟨bulkDraw draws k + 1, ?_⟩⟩
  have hword := hspan k hk
  rw [h.bulkStage_gain hflat hnum _ _ _ _ hk] at hword
  rw [← hnum]
  exact hword

/-- BWR from BLK in the block. -/
theorem State.ProcReady.bulkStage_bwr {g : HostReg} (hg : g.isSet = true) (ring wet : Memory) (draws : Nat)
    (answer : Option Answer) : ∃ ring' draws',
      exec (.bwr ch .blk n) (s.bulkStage g ring wet draws answer) =
        .next (s.bulkStage g ring' wet draws' (some ⟨.done, none⟩)) ∧
      (∀ c j, j < 2 ^ 32 → (¬ ∃ k, k < n ∧ c = ch ∧ j = s.writeSpan k) → ringRead ring' c j = ringRead ring c j) ∧
      (FlatGain g.bits → s.numerics = binary32 → ∀ k, k < n →
        ∃ t, ringRead ring' ch (s.writeSpan k) = fmul binary32 t g.bits (blkRead s.blk ch k)) := by
  have hdc : (s.bulkStage g ring wet draws answer).delayChannel ch = ch := State.delayChannel_own hch
  obtain ⟨t, ht, hframe, hspan, hother⟩ := (h.bulkStage_fit hg ring wet draws answer).bwr (h.own_lt hch) .blk
  rw [hdc] at hspan hother
  refine ⟨t.ring, t.draws, ht.trans (congrArg _ hframe), hother, fun hflat hnum k hk => ⟨bulkDraw draws k + 1, ?_⟩⟩
  have hword := hspan k hk
  rw [State.scaledSource, h.bulkStage_gain hflat hnum _ _ _ _ hk] at hword
  rw [← hnum]
  exact hword

/-- BADD from the scratch in the block, where the scratch words it reads are written. -/
theorem State.ProcReady.bulkStage_badd {g : HostReg} (hg : g.isSet = true) (ring wet : Memory) (draws : Nat)
    (answer : Option Answer) : ∃ ring' draws',
      exec (.badd ch .wet n) (s.bulkStage g ring wet draws answer) =
        .next (s.bulkStage g ring' wet draws' (some ⟨.done, none⟩)) ∧
      (∀ c j, j < 2 ^ 32 → (¬ ∃ k, k < n ∧ c = ch ∧ j = s.writeSpan k) → ringRead ring' c j = ringRead ring c j) ∧
      (FlatGain g.bits → s.numerics = binary32 → ∀ k d, k < n → wetRead wet ch k = some d →
        ∃ t u, ringRead ring' ch (s.writeSpan k) =
          fadd binary32 t (ringRead ring ch (s.writeSpan k)) (fmul binary32 u g.bits d)) := by
  have hdc : (s.bulkStage g ring wet draws answer).delayChannel ch = ch := State.delayChannel_own hch
  obtain ⟨t, ht, hframe, hspan, hother⟩ := (h.bulkStage_fit hg ring wet draws answer).badd (h.own_lt hch) .wet
  rw [hdc] at hspan hother
  refine ⟨t.ring, t.draws, ht.trans (congrArg _ hframe), hother,
    fun hflat hnum k d hk hd => ⟨bulkDraw draws k + 2, bulkDraw draws k + 1, ?_⟩⟩
  have hword := hspan k hk
  have hsource : (s.bulkStage g ring wet draws answer).sourceWord ch .wet k = d := by
    rw [State.sourceWord, hdc]
    exact congrArg (Option.getD · _) hd
  rw [State.scaledSource, h.bulkStage_gain hflat hnum _ _ _ _ hk, hsource] at hword
  rw [← hnum]
  exact hword

/-- What the bulk-strategy block leaves: the cursors, the words outside the span, and, on finite samples and a feedback
that is not `-0.0`, the delayed samples in the scratch and the feedback sums in the span. -/
theorem State.ProcReady.bulkBlock : ∃ b, s.BulkBlock ch n b ∧
    b.wrPos = BitVec.ofNat 32 ((s.wrPos.toNat + n) % s.len) ∧
    b.rdPos = BitVec.ofNat 32 ((s.rdPos.toNat + n) % s.len) ∧
    (∀ c j, j < 2 ^ 32 → (¬ ∃ k, k < n ∧ c = ch ∧ j = s.writeSpan k) → ringRead b.ring c j = ringRead s.ring c j) ∧
    (s.numerics = binary32 → s.feedback.bits ≠ 0x80000000 → ∀ k, k < n → f32Finite (blkRead s.blk ch k) = true →
      f32Finite (ringRead s.ring ch (s.readSpan k)) = true →
        wetRead b.wet ch k = some (ringRead s.ring ch (s.readSpan k)) ∧
          ∃ t u, ringRead b.ring ch (s.writeSpan k) = fadd binary32 t (blkRead s.blk ch k)
            (fmul binary32 u s.feedback.bits (ringRead s.ring ch (s.readSpan k)))) := by
  have ⟨_, he, hp, ⟨_, _, hset⟩, _⟩ := h
  have hl : 0 < s.len := Nat.zero_lt_of_lt h.bounds.1
  obtain ⟨wet, draws1, hbrd, hwet⟩ := h.bulkStage_brd hch (g := ⟨0x3F800000, true⟩) rfl s.ring s.wet s.draws s.answer
  obtain ⟨ring2, draws2, hbwr, hkeep2, hring2⟩ :=
    h.bulkStage_bwr hch (g := ⟨0x3F800000, true⟩) rfl s.ring wet draws1 (some ⟨.done, none⟩)
  obtain ⟨ring3, draws3, hbadd, hkeep3, hring3⟩ := h.bulkStage_badd hch hset ring2 wet draws2 (some ⟨.done, none⟩)
  refine ⟨_, ⟨_, _, _, hbrd, hbwr, hbadd, execAdv_ready he hp hl⟩, rfl, rfl, fun c j hj hout => ?_,
    fun hnum hne k hk hx hd => ?_⟩
  · exact (hkeep3 c j hj hout).trans (hkeep2 c j hj hout)
  · obtain ⟨t1, hscratch⟩ := hwet flatGain_one hnum k hk
    rw [fmul_of_some (c := binary32) t1 (binary32Mul_one (f32Finite_not_nan hd))] at hscratch
    obtain ⟨t2, hwritten⟩ := hring2 flatGain_one hnum k hk
    rw [fmul_of_some (c := binary32) t2 (binary32Mul_one (f32Finite_not_nan hx))] at hwritten
    obtain ⟨t, u, hsum⟩ := hring3 ⟨h.feedback_finite, hne⟩ hnum k _ hk hscratch
    rw [hwritten] at hsum
    exact ⟨hscratch, t, u, hsum⟩

omit hch

/-! What PROC leaves in the span of a channel with a delay channel of its own. -/

variable {nout : Nat} (hown : nin ≤ s.cfgNch.toNat) (hin : ch < nin)
include hown hin

/-- The word sample `k` writes: before the lag its feedback is of what the delay buffer held before the block, later of
the word the block wrote a lag before. -/
theorem State.ProcReady.written_word {k : Nat} (hk : k < n) :
    ∃ t u, ringRead (s.processed nout nin n).ring ch (s.writeSpan k) = fadd s.numerics t (blkRead s.blk ch k)
      (fmul s.numerics u s.feedback.bits
        (if s.lag ≤ k then ringRead (s.processed nout nin n).ring ch (s.writeSpan (k - s.lag))
          else ringRead s.ring ch (s.readSpan k))) := by
  have hdc : min ch (s.cfgNch.toNat - 1) = ch := State.delayChannel_own (hin.trans_le hown)
  have hback := (h.ownRecurrence (nout := nout) hown hin k hk).2
  rw [hdc] at hback
  exact ⟨_, _, hback⟩

/-- PROC puts the echo of an impulse into a silent region a lag behind it, where that is in the block. -/
theorem State.ProcReady.impulse_echo (hnum : s.numerics = binary32) (hne : s.feedback.bits ≠ 0x80000000)
    (hlag : s.lag < n) (himpulse : ∀ k, k < n → blkRead s.blk ch k = if k = 0 then 0x3F800000 else 0)
    (hsilent : ∀ j, j < s.len → ringRead s.ring ch j = 0) :
    ringRead (s.processed nout nin n).ring ch (s.writeSpan s.lag) = s.feedback.bits := by
  have hpos := h.trails.lag_pos
  have hl : 0 < s.len := Nat.zero_lt_of_lt h.bounds.1
  have hfirst : ringRead (s.processed nout nin n).ring ch (s.writeSpan 0) = 0x3F800000 := by
    obtain ⟨t, u, hword⟩ := h.written_word (nout := nout) hown hin (k := 0) (by omega)
    rw [if_neg (by omega), hnum, himpulse 0 (by omega), if_pos rfl, hsilent _ (s.readSpan_lt hl 0)] at hword
    exact hword.trans (feedbackSum_of_silence h.feedback_finite (.inl rfl) _ _)
  obtain ⟨t, u, hword⟩ := h.written_word (nout := nout) hown hin hlag
  rw [if_pos le_rfl, hnum, himpulse _ hlag, if_neg (by omega), Nat.sub_self, hfirst] at hword
  exact hword.trans (feedbackSum_of_impulse h.feedback_finite hne _ _)

end

/-- Settles O37: before the lag both leave the same feedback sum of the word at the read cursor; at a lag inside the block
PROC's sum is of the impulse the block has written, and the bulk block's is of the silence before it. -/
theorem bulkBlockEqualsProc : Obligations.BulkBlockEqualsProc := by
  intro s nout nin n ch wf h hown hin
  have hch : ch < s.cfgNch.toNat := hin.trans_le hown
  have hl : 0 < s.len := Nat.zero_lt_of_lt h.bounds.1
  obtain ⟨b, hb, hwr, hrd, hkeep, hword⟩ := h.bulkBlock hch
  refine ⟨_, b, execProc_ready wf h, hb, hwr, hrd, fun c j hne hj => ?_, fun hD hnum hfb hx hd => ?_,
    fun hD1 hD hnum hfb himpulse hsilent => ?_⟩
  · exact hkeep c j hj fun ⟨_, _, hc, _⟩ => hne hc
  · have hlag : n ≤ s.lag := by
      have := h.bounds
      unfold State.lag
      split_ifs <;> omega
    have hword' {k : Nat} (hk : k < n) := hword hnum hfb k hk (hx k hk) (hd _ (s.readSpan_lt hl k))
    refine ⟨fun j hj => ?_, fun k hk => (hword' hk).1⟩
    by_cases hspan : ∃ k, k < n ∧ j = s.writeSpan k
    · obtain ⟨k, hk, rfl⟩ := hspan
      obtain ⟨-, t, u, hbulk⟩ := hword' hk
      obtain ⟨t', u', hproc⟩ := h.written_word (nout := nout) hown hin hk
      rw [if_neg (by omega), hnum] at hproc
      rw [hbulk, hproc]
      exact feedbackSum_free h.feedback_finite (hx k hk) (hd _ (s.readSpan_lt hl k)) _ _ _ _
    · rw [hkeep ch j hj fun ⟨k, hk, _, he⟩ => hspan ⟨k, hk, he⟩,
        h.ring_frame hj fun ⟨_, k, _, hk, _, he⟩ => hspan ⟨k, hk, he⟩]
  · have hlag : s.lag = s.delaySamples.toNat := if_neg (by omega)
    have hne : s.feedback.bits ≠ 0x80000000 := fun he => hfb (by rw [he]; decide +kernel)
    have hx : blkRead s.blk ch s.lag = 0 := by rw [himpulse _ (by omega), if_neg (by omega)]
    have hd : ringRead s.ring ch (s.readSpan s.lag) = 0 := hsilent _ (s.readSpan_lt hl _)
    rw [← hlag]
    refine ⟨h.impulse_echo hown hin hnum hne (by omega) himpulse hsilent, ?_⟩
    obtain ⟨-, t, u, hbulk⟩ := hword hnum hne s.lag (by omega) (by rw [hx]; exact zero_fields.2.1)
      (by rw [hd]; exact zero_fields.2.1)
    rw [hbulk, hx, hd]
    exact feedbackSum_of_silence h.feedback_finite (.inr rfl) _ _

end Sys2Proof.Machine
end

section
namespace Sys2Proof.Machine

/-! The setters (43_parameters R126 to R129). -/

/-- A mix setter with a legal value passes its check and stores. -/
theorem mixSetter_stores {s : State} {v : F32} (he : s.err = none)
    (hv : f32Finite v = true ∧ 0 ≤ f32Real v ∧ f32Real v ≤ 1) (put : State) :
    s.transact (mixCheck v) (.next (put.finish none)) = .next (put.finish none) := by
  rw [mixCheck, if_pos ((legalMix_iff v).2 hv), State.transact_passed he]

/-- A mix setter with any other value raises BAD_PARAM, whatever it would store. -/
theorem mixSetter_raises {s : State} {v : F32} (he : s.err = none)
    (hv : ¬ (f32Finite v = true ∧ 0 ≤ f32Real v ∧ f32Real v ≤ 1)) (w : StepResult) :
    s.transact (mixCheck v) w = .next { s with err := some .badParam, answer := some ⟨.fault .badParam, none⟩ } := by
  rw [mixCheck, if_neg (mt (legalMix_iff v).1 hv), State.transact_raised_eq he]

/-- Settles O39: the three setters share their check, and each stores in its own register. -/
theorem mixSettersStore : Obligations.MixSettersStore := by
  intro s p v he
  refine ⟨(decodeTransaction_encodeSetter p v).2, fun hv => ?_, fun hv => ?_⟩
  · exact ⟨mixSetter_stores he hv (s.putDryMix v), mixSetter_stores he hv (s.putWetMix v),
      mixSetter_stores he hv (s.putFeedback v)⟩
  · simp only [List.forall_mem_cons]
    exact ⟨mixSetter_raises he hv _, mixSetter_raises he hv _, mixSetter_raises he hv _, List.forall_mem_nil _⟩

theorem execSetdt_raised {s : State} {v : F32} (he : s.err = none) (hv : ¬ legalDelay v = true) (p : Port) :
    execSetdt p v s = .next { s with err := some .badParam, answer := some ⟨.fault .badParam, none⟩ } := by
  rw [execSetdt, delayCheck, if_neg hv, State.transact_raised_eq he]

/-- While unprepared there is no `D` to recompute. -/
theorem execSetdt_unprepared {s : State} {v : F32} (he : s.err = none) (hv : legalDelay v = true)
    (hp : s.prepared = false) (p : Port) : execSetdt p v s = .next ((s.putDelayTime v).finish none) := by
  rw [execSetdt, delayCheck, if_pos hv, State.transact_passed he, if_neg (by simp [hp])]

/-- In a good prepared state a legal delay fits the ring, so the new cursor exists (10_state R46). -/
theorem State.Inv.execSetdt_prepared {s : State} (h : s.Inv) {v : F32} (he : s.err = none) (hv : legalDelay v = true)
    (hp : s.prepared = true) (p : Port) :
    ∃ d, dsamp v s.cfgRate = d ∧ d ≤ s.len ∧ execSetdt p v s =
      .next (((s.putDelayTime v).putDelay d (readCursor s.len s.wrPos.toNat d)).finish none) := by
  have g := h.geometry hp
  have hle : dsamp v s.cfgRate ≤ s.len := g.len_cap ▸ dsamp_le_cap hv _
  refine ⟨_, rfl, hle, ?_⟩
  rw [execSetdt, delayCheck, if_pos hv, State.transact_passed he, if_pos hp,
    retuning_ready (Nat.zero_lt_of_lt g.write_lt) hle]

/-- Settles O38: by the check, then by PREPARED; `D` and the read cursor are at most `L`, so each fits its register. -/
theorem setdtRetunes : Obligations.SetdtRetunes := by
  intro s p v hs he
  rw [← legalDelay_iff]
  refine ⟨(decodeTransaction_encodeSetter p v).1, fun hv => ⟨fun hp => ?_, fun hp => ?_⟩, fun hv => ?_⟩
  · exact execSetdt_unprepared he hv hp p
  · obtain ⟨d, hd, hle, hexec⟩ := hs.execSetdt_prepared he hv hp p
    have hl : 0 < s.len := Nat.zero_lt_of_lt (hs.geometry hp).write_lt
    have hcursor : readCursor s.len s.wrPos.toNat d < s.len := Nat.mod_lt _ hl
    rw [hd]
    exact ⟨_, hexec, rfl, toNat_ofNat32 (hle.trans_lt s.len_lt), toNat_ofNat32 (hcursor.trans s.len_lt)⟩
  · exact execSetdt_raised he hv p

end Sys2Proof.Machine
end

section
namespace Sys2Proof.Machine

/-! Register and window access (43_parameters R130 to R132). -/

/-- While `ERR = 0` a host write of an operand register stores its word. -/
theorem step_presented_operand {s : State} {addr : Nat} {v : Word} {r : OperandReg} (hb : s.busy = false)
    (he : s.err = none) (hdec : decodeTransaction (.hostWrite (BitVec.ofNat 24 addr) v) = .operand r v) :
    step (s.presented (hostWriteOf addr v)) = .next ((s.putOperand r v).finish none) := by
  rw [hostWriteOf, step_presented_answered (.inl hb) (s.takeEvent_operand hdec), State.writeOperand,
    if_neg (by simp [he])]

/-- Settles O40, by the register each address decodes to. -/
theorem operandWritesStore : Obligations.OperandWritesStore := fun _ _ hb he =>
  ⟨step_presented_operand (r := .srLo) hb he rfl, step_presented_operand (r := .srHi) hb he rfl,
    step_presented_operand (r := .blockSize) hb he rfl, step_presented_operand (r := .numCh) hb he rfl,
    step_presented_operand (r := .gainStart) hb he rfl, step_presented_operand (r := .gainEnd) hb he rfl⟩

/-- While faulted a transaction that would be refused is discarded, which changes nothing (60_exceptions R145). -/
theorem step_presented_discarded {s : State} {tr : Transaction} {code : ErrCode} {d : Option Word}
    (hb : s.busy = false) (he : s.err ≠ none) (ht : s.takeEvent (.transaction tr) = .answered (s.refuse code d)) :
    step (s.presented (.transaction tr)) = .next { s with answer := some ⟨.discarded, d⟩ } := by
  rw [step_presented_answered (.inl hb) ht, State.refuse, if_pos (Option.isSome_iff_ne_none.2 he)]
  rfl

/-! Reads of REG. -/

/-- A host read of a register is answered from it, faulted or not. -/
theorem step_presented_register {s : State} {addr : Nat} {r : RegName} (hb : s.busy = false)
    (hdec : decodeTransaction (.hostRead (BitVec.ofNat 24 addr)) = .register r) :
    step (s.presented (hostReadOf addr)) = .next (s.readRegister r) :=
  step_presented_answered (.inl hb) (s.takeEvent_register hdec)

/-- A host-writable register `g` reads as its bits, or as the next free word while it is unset (10_state R25). -/
theorem step_presented_hostReg {s : State} {addr : Nat} (r : RegName) (g : HostReg) (hb : s.busy = false)
    (hdec : decodeTransaction (.hostRead (BitVec.ofNat 24 addr)) = .register r)
    (hvalue : s.registerValue r = s.hostRegValue g) (hdraws : s.registerDraws r = hostRegDraws g) :
    (g.isSet = true → step (s.presented (hostReadOf addr)) =
      .next { s with answer := some ⟨.done, some g.bits⟩ }) ∧
    (g.isSet = false → step (s.presented (hostReadOf addr)) =
      .next { s with answer := some ⟨.done, some (Config.freeWord s.draws)⟩, draws := s.draws + 1 }) := by
  rw [step_presented_register hb hdec, State.readRegister, hvalue, hdraws, State.hostRegValue, hostRegDraws]
  constructor
  · intro hset
    rw [if_pos hset, if_pos hset]
    rfl
  · intro hunset
    rw [if_neg (by simp [hunset]), if_neg (by simp [hunset])]
    rfl

/-- ERR takes one byte. -/
theorem State.errField_lt (s : State) : s.errField < 2 ^ 8 := by
  unfold State.errField
  split
  · decide
  · next code _ => cases code <;> decide

/-- STATUS fits its word. -/
theorem State.statusWord_toNat (s : State) :
    s.statusWord.toNat = s.errField * 2 ^ 8 + s.prepared.toNat * 2 + s.busy.toNat := by
  have herr := s.errField_lt
  have hprepared := s.prepared.toNat_lt
  have hbusy := s.busy.toNat_lt
  exact toNat_ofNat32 (by omega)

/-- The fields of STATUS beside BUSY (10_state R28). -/
theorem State.statusWord_fields (s : State) :
    field s.statusWord.toNat 1 1 = s.prepared.toNat ∧ field s.statusWord.toNat 7 2 = 0 ∧
      field s.statusWord.toNat 31 16 = 0 ∧ field s.statusWord.toNat 15 8 = s.errField := by
  have herr := s.errField_lt
  have hprepared := s.prepared.toNat_lt
  have hbusy := s.busy.toNat_lt
  simp only [field, s.statusWord_toNat]
  omega

/-- Settles O41, by the register each address decodes to; a reserved address decodes to a forbidden read. -/
theorem registerReads : Obligations.RegisterReads := by
  intro s hb
  obtain ⟨hprepared, hlow, hhigh, herr⟩ := s.statusWord_fields
  refine ⟨step_presented_register (r := .cmd) hb rfl,
    ⟨s.statusWord, step_presented_register (r := .status) hb rfl, ?_, hprepared, hlow, hhigh, ?_⟩, ?_, ?_, ?_⟩
  · rw [s.statusWord_bit0, hb]
    rfl
  · rw [herr, State.errField]
    cases s.err with
    | none => rfl
    | some code => cases code <;> rfl
  · simp only [List.forall_mem_cons]
    exact ⟨step_presented_hostReg .srLo _ hb rfl rfl rfl, step_presented_hostReg .srHi _ hb rfl rfl rfl,
      step_presented_hostReg .blockSize _ hb rfl rfl rfl, step_presented_hostReg .numCh _ hb rfl rfl rfl,
      step_presented_hostReg .gainStart _ hb rfl rfl rfl, step_presented_hostReg .gainEnd _ hb rfl rfl rfl,
      step_presented_hostReg .delayTime _ hb rfl rfl rfl, step_presented_hostReg .dryMix _ hb rfl rfl rfl,
      step_presented_hostReg .wetMix _ hb rfl rfl rfl, step_presented_hostReg .feedback _ hb rfl rfl rfl,
      List.forall_mem_nil _⟩
  · simp only [List.forall_mem_cons]
    exact ⟨step_presented_register (r := .bufLen) hb rfl, step_presented_register (r := .wrPos) hb rfl,
      step_presented_register (r := .rdPos) hb rfl, step_presented_register (r := .delaySamples) hb rfl,
      step_presented_register (r := .cfgBlock) hb rfl, step_presented_register (r := .cfgNch) hb rfl,
      step_presented_register (r := .cfgSrLo) hb rfl, step_presented_register (r := .cfgSrHi) hb rfl,
      List.forall_mem_nil _⟩
  · intro addr hlo hhi
    have ht := s.takeEvent_forbiddenRead (hostRead_forbidden (addr := addr) (by omega) (.inr ⟨hlo, by omega⟩))
    exact ⟨fun he => step_presented_refused hb he ht, fun he => step_presented_discarded hb he ht⟩

/-! Reads of the scratch window. -/

/-- Space 1 of the host port is the WET window (20_memory R53). -/
theorem decodeTransaction_hostRead_window {c k : Nat} (hc : c < 16) (hk : k < 65536) :
    decodeTransaction (.hostRead (BitVec.ofNat 24 (0x100000 + c * 65536 + k))) = .window c k := by
  have hspace : (0x100000 + c * 65536 + k) / 2 ^ 20 = 1 := by omega
  have hchannel : field (BitVec.ofNat 24 (0x100000 + c * 65536 + k)).toNat 19 16 = c := by
    rw [field, BitVec.toNat_ofNat]
    omega
  have hindex : field (BitVec.ofNat 24 (0x100000 + c * 65536 + k)).toNat 15 0 = k := by
    rw [field, BitVec.toNat_ofNat]
    omega
  rw [decodeTransaction, hostAddr_space (by omega), hspace, hchannel, hindex]
  rfl

/-- Settles O42: inside the prepared window by whether the word has been written, outside it as a forbidden read. -/
theorem windowReads : Obligations.WindowReads := by
  intro s c k hb hc hk
  have htake := s.takeEvent_window (decodeTransaction_hostRead_window hc hk)
  rw [State.readWindow] at htake
  refine ⟨fun hin => ?_, fun hout => ?_⟩
  · rw [if_pos hin] at htake
    refine ⟨fun v hword => ?_, fun hword => ?_⟩
    all_goals
      rw [hword] at htake
      exact step_presented_answered (.inl hb) htake
  · rw [if_neg hout] at htake
    exact ⟨fun he => step_presented_refused hb he htake, fun he => step_presented_discarded hb he htake⟩

end Sys2Proof.Machine
end

section
namespace Sys2Proof.Machine

/-! How a transaction ends (60_exceptions R142 to R146). -/

/-- `t` is left by a transaction that is done on `s` and raised nothing. For an update with its field lemmas, `{}` says
so. -/
structure State.Done (s t : State) : Prop where
  err : t.err = s.err := by simp
  answer : ∃ d, t.answer = some ⟨.done, d⟩ := by simp

/-- A read that is done has changed the model's record of the answer and its free-value counter alone. -/
structure State.Observed (s t : State) : Prop extends s.Done t where
  frame : t = { s with answer := t.answer, draws := t.draws }

/-- The endings of a transaction taken in `s` that, where it is refused, returns `data`. Only a read, for which `data`
is 0, is done while faulted. -/
inductive State.Ends (s : State) (data : Option Word) (t : State) : Prop
  | done (he : s.err = none) (h : s.Done t)
  | observed (hdata : data = some 0) (h : s.Observed t)
  | raised (he : s.err = none) (code : ErrCode) (h : t = s.raise code data)
  | discarded (he : s.err ≠ none) (h : t = s.discard data)

/-- While `ERR = 0` a transaction is done or raises a fault. -/
theorem State.Ends.of_unfaulted {s t : State} {data : Option Word} (h : s.Ends data t) (he : s.err = none) :
    s.Done t ∨ ∃ code, t = s.raise code data := by
  cases h with
  | done _ h => exact .inl h
  | observed _ h => exact .inl h.toDone
  | raised _ code h => exact .inr ⟨code, h⟩
  | discarded hf _ => exact absurd he hf

/-- While faulted a transaction is discarded, or is a read that is done. -/
theorem State.Ends.of_faulted {s t : State} {data : Option Word} (h : s.Ends data t) (hf : s.err ≠ none) :
    (data = some 0 ∧ s.Observed t) ∨ t = s.discard data := by
  cases h with
  | done he _ => exact absurd he hf
  | observed hdata h => exact .inl ⟨hdata, h⟩
  | raised he _ _ => exact absurd he hf
  | discarded _ h => exact .inr h

/-- No ending takes a code out of ERR. -/
theorem State.Ends.err_of_faulted {s t : State} {data : Option Word} {code : ErrCode} (h : s.Ends data t)
    (hf : s.err = some code) : t.err = some code := by
  obtain ⟨-, hread⟩ | rfl := h.of_faulted (by simp [hf])
  · exact hread.err.trans hf
  · exact hf

/-! The operations. -/

/-- Wherever the work `w` answers a state, that state is done. -/
def State.DoneBy (s : State) (w : StepResult) : Prop := ∀ t, w = .next t → s.Done t

theorem State.DoneBy.next {s u : State} (hu : s.Done u) : s.DoneBy (.next u) := fun _ hw => by
  cases hw
  exact hu

theorem State.DoneBy.touching {s u : State} {channels n : Nat} (hu : s.Done u) : s.DoneBy (s.touching channels n u) :=
  fun _ hw => by
    obtain ⟨-, -, rfl⟩ := State.touching_next hw
    exact hu

theorem State.DoneBy.retuning {s u : State} {len d : Nat} (hu : s.Done u) : s.DoneBy (retuning len d u) :=
  fun _ hw => by
    obtain ⟨-, -, rfl⟩ := retuning_next hw
    exact hu

/-- A transaction is discarded, or raises the code its check gives, or its work is done. -/
theorem State.transact_ends {s t : State} {c : Option ErrCode} {w : StepResult} (h : s.transact c w = .next t)
    (hwork : s.DoneBy w) : s.Ends none t := by
  obtain ⟨hf, ht⟩ | ⟨he, code, -, ht⟩ | ⟨he, -, hw⟩ := State.transact_next h
  · exact .discarded hf ht
  · exact .raised he code ht
  · exact .done he (hwork t hw)

/-- What PREP leaves (40_init R92). The rounded numbers stand as variables, so that nothing evaluates them. -/
theorem State.configured_done (s : State) (len d rd : Nat) : s.Done (((s.configure len).putDelay d rd).finish none) :=
  {}

/-- What SETDT leaves while prepared; the rounded numbers stand as variables again. -/
theorem State.retuned_done (s : State) (v : F32) (d rd : Nat) :
    s.Done (((s.putDelayTime v).putDelay d rd).finish none) := {}

/-- SETDT's work, prepared or not (43_parameters R126). -/
theorem execSetdt_ends {s t : State} {p : Port} {v : F32} (h : execSetdt p v s = .next t) : s.Ends none t :=
  State.transact_ends h <| by
    split_ifs
    · exact .retuning (s.retuned_done v _ _)
    · exact .next {}

/-- The state PROC leaves (41_process R104, R105). -/
theorem State.processed_done (s : State) (nout nin n : Nat) : s.Done (s.processed nout nin n) := by
  rw [State.processed_eq]
  exact {}

/-- Every operation ends, RST apart while faulted. -/
theorem exec_ends {i : Instr} {s t : State} (h : exec i s = .next t) (hrst : i = .rst → s.err = none) :
    s.Ends none t := by
  cases i with
  | nop => exact State.transact_ends (c := none) h (.next {})
  | rst => cases h; exact .done (hrst rfl) { err := (hrst rfl).symm }
  | prep => exact State.transact_ends h (.retuning (s.configured_done _ _ _))
  | proc nout nin n => exact State.transact_ends h (.touching (s.processed_done nout nin n))
  | bwr ch src n => exact State.transact_ends h (.touching {})
  | brd ch n => exact State.transact_ends h (.touching {})
  | badd ch src n => exact State.transact_ends h (.touching {})
  | adv n => exact State.transact_ends h (.retuning {})
  | setdt p v => exact execSetdt_ends (p := p) h
  | setdry p v => exact State.transact_ends h (.next {})
  | setwet p v => exact State.transact_ends h (.next {})
  | setfb p v => exact State.transact_ends h (.next {})

/-- While faulted every operation but RST is discarded (60_exceptions R145). -/
theorem exec_faulted {i : Instr} {s : State} {code : ErrCode} (hf : s.err = some code) (hi : i ≠ .rst) :
    exec i s = .next (s.discard none) := by
  cases i with
  | nop => exact State.transact_faulted hf none _
  | rst => exact absurd rfl hi
  | _ => exact State.transact_faulted hf _ _

/-! The answers given without running an operation. -/

theorem State.refuse_ends (s : State) (code : ErrCode) (data : Option Word) : s.Ends data (s.refuse code data) := by
  unfold State.refuse
  split_ifs with hf
  · exact .discarded (Option.isSome_iff_ne_none.1 hf) rfl
  · exact .raised (Option.not_isSome_iff_eq_none.1 hf) code rfl

theorem State.writeOperand_ends (s : State) (r : OperandReg) (v : Word) : s.Ends none (s.writeOperand r v) := by
  unfold State.writeOperand
  split_ifs with hf
  · exact .discarded (Option.isSome_iff_ne_none.1 hf) rfl
  · exact .done (Option.not_isSome_iff_eq_none.1 hf) {}

theorem State.readRegister_ends (s : State) (r : RegName) : s.Ends (some 0) (s.readRegister r) := by
  unfold State.readRegister
  exact .observed rfl ⟨{}, rfl⟩

theorem State.readWindow_ends (s : State) (c k : Nat) : s.Ends (some 0) (s.readWindow c k) := by
  unfold State.readWindow
  split_ifs
  · split
    · exact .observed rfl ⟨{}, rfl⟩
    · exact .observed rfl ⟨{}, rfl⟩
  · exact s.refuse_ends .badAddr (some 0)

/-- What a transaction returns where it is refused: 0 if it is a read (60_exceptions R144; 20_memory R65). -/
def refusedData : Decoded → Option Word
  | .register _ | .window _ _ | .forbiddenRead => some 0
  | .run _ | .illegal _ | .operand _ _ | .forbiddenWrite => none

/-- A transaction asks for an operation, or is answered and ends. -/
theorem State.takeEvent_ends (s : State) (tr : Transaction) :
    (∃ i, decodeTransaction tr = .run i) ∨ ∃ t, s.takeEvent (.transaction tr) = .answered t ∧
      s.Ends (refusedData (decodeTransaction tr)) t := by
  cases h : decodeTransaction tr with
  | run i => exact .inl ⟨i, rfl⟩
  | illegal why => exact .inr ⟨_, s.takeEvent_illegal h, s.refuse_ends _ _⟩
  | operand r v => exact .inr ⟨_, s.takeEvent_operand h, s.writeOperand_ends r v⟩
  | register r => exact .inr ⟨_, s.takeEvent_register h, s.readRegister_ends r⟩
  | window c k => exact .inr ⟨_, s.takeEvent_window h, s.readWindow_ends c k⟩
  | forbiddenRead => exact .inr ⟨_, s.takeEvent_forbiddenRead h, s.refuse_ends _ _⟩
  | forbiddenWrite => exact .inr ⟨_, s.takeEvent_forbiddenWrite h, s.refuse_ends _ _⟩

/-- Every transaction presented to an idle engine ends, RST apart while faulted. -/
theorem step_presented_ends {s t : State} {tr : Transaction} (hb : s.busy = false)
    (hrst : decodeTransaction tr = .run .rst → s.err = none)
    (h : step (s.presented (.transaction tr)) = .next t) :
    s.Ends (refusedData (decodeTransaction tr)) t := by
  obtain ⟨i, hdec⟩ | ⟨u, htake, hu⟩ := s.takeEvent_ends tr
  · rw [step_presented_run hb hdec] at h
    rw [hdec]
    exact exec_ends h fun hi => hrst (hi ▸ hdec)
  · rw [step_presented_answered (.inl hb) htake] at h
    cases h
    exact hu

/-! Reads and writes. -/

theorem refusedData_hostRead (addr : BitVec 24) :
    refusedData (decodeTransaction (.hostRead addr)) = some 0 := by
  simp only [decodeTransaction]
  split
  · split <;> rfl
  · rfl
  · rfl

theorem refusedData_controlRead (addr : BitVec 20) :
    refusedData (decodeTransaction (.controlRead addr)) = some 0 := rfl

theorem refusedData_hostRegWrite (r : RegName) (v : Word) : refusedData (decodeHostRegWrite r v) = none := by
  cases r with
  | cmd =>
    rw [decodeHostRegWrite]
    cases decodeCommand v <;> rfl
  | _ => rfl

theorem refusedData_hostWrite (addr : BitVec 24) (v : Word) :
    refusedData (decodeTransaction (.hostWrite addr v)) = none := by
  simp only [decodeTransaction]
  split
  · split
    · exact refusedData_hostRegWrite _ v
    · rfl
  · rfl

theorem refusedData_controlWrite (addr : BitVec 20) (v : Word) :
    refusedData (decodeTransaction (.controlWrite addr v)) = none := by
  simp only [decodeTransaction]
  split <;> rfl

/-- A setter is no RST. -/
theorem setterAt_ne_rst (p : Port) (r : RegName) (v : Word) : setterAt p r v ≠ some .rst := by
  cases r <;> exact nofun

/-- One transaction asks for RST, the host write of its word to CMD (30_encoding R70, R71). -/
theorem eq_of_decodeTransaction_rst {tr : Transaction} (h : decodeTransaction tr = .run .rst) :
    tr = .hostWrite 0 0x10000000 := by
  obtain ⟨w, rfl⟩ | ⟨p, r, v, hset⟩ := decodeTransaction_run h
  · rw [decodeTransaction_cmd, decodeHostRegWrite] at h
    split at h
    · cases h
      rw [matches_ones ((matches_rst_iff w).2 ‹_›)]
    · cases h
  · exact absurd hset (setterAt_ne_rst p r v)

/-- Settles O45: while `ERR = 0` a transaction that is not done left `s` with its code raised. -/
theorem faultsArePrecise : Obligations.FaultsArePrecise := by
  intro s t tr code d hb he hstep hans
  obtain hdone | ⟨code', rfl⟩ := (step_presented_ends hb (fun _ => he) hstep).of_unfaulted he
  · obtain ⟨d', hd'⟩ := hdone.answer
    cases hans.symm.trans hd'
  · cases hans
    refine ⟨by simp [State.raise, he], ?_, ?_⟩
    · rintro a rfl
      exact refusedData_hostRead a
    · rintro a rfl
      exact refusedData_controlRead a

/-- While faulted a write is discarded, unless it asks for RST. -/
theorem step_presented_faulted_write {s : State} {code : ErrCode} {tr : Transaction} (hb : s.busy = false)
    (hf : s.err = some code) (hrst : decodeTransaction tr ≠ .run .rst)
    (hwrite : refusedData (decodeTransaction tr) = none) :
    step (s.presented (.transaction tr)) = .next (s.discard none) := by
  obtain ⟨i, hdec⟩ | ⟨t, htake, ht⟩ := s.takeEvent_ends tr
  · rw [step_presented_run hb hdec]
    exact exec_faulted hf fun hi => hrst (hi ▸ hdec)
  · rw [hwrite] at ht
    obtain ⟨hread, -⟩ | rfl := ht.of_faulted (by simp [hf])
    · cases hread
    · exact step_presented_answered (.inl hb) htake

/-- While faulted a read changes the model's record of the answer and its free-value counter alone. -/
theorem step_presented_faulted_read {s t : State} {code : ErrCode} {tr : Transaction} (hb : s.busy = false)
    (hf : s.err = some code) (hread : refusedData (decodeTransaction tr) = some 0)
    (h : step (s.presented (.transaction tr)) = .next t) : t = { s with answer := t.answer, draws := t.draws } := by
  have hrst : decodeTransaction tr ≠ .run .rst := fun hdec => by
    rw [hdec] at hread
    cases hread
  obtain ⟨-, hobs⟩ | rfl := (step_presented_ends hb (fun hdec => absurd hdec hrst) h).of_faulted (by simp [hf])
  · exact hobs.frame
  · rfl

/-- Settles O46: writes and reads by port; RST has one transaction. -/
theorem faultedIsQuiescent : Obligations.FaultedIsQuiescent := by
  intro s code hb hf
  refine ⟨fun i hi => exec_faulted hf hi, fun addr v hlt hne => ?_, fun addr v => ?_, fun addr e t he hstep => ?_⟩
  · refine step_presented_faulted_write hb hf (fun hdec => hne ?_) (refusedData_hostWrite _ v)
    obtain ⟨haddr, hv⟩ := Transaction.hostWrite.inj (eq_of_decodeTransaction_rst hdec)
    have hzero : addr % 2 ^ 24 = 0 := by simpa using congrArg BitVec.toNat haddr
    exact ⟨by omega, hv⟩
  · exact step_presented_faulted_write hb hf (fun hdec => nomatch eq_of_decodeTransaction_rst hdec)
      (refusedData_controlWrite _ v)
  · obtain rfl | rfl := he
    · exact step_presented_faulted_read hb hf (refusedData_hostRead _) hstep
    · exact step_presented_faulted_read hb hf (refusedData_controlRead _) hstep

/-- Settles O47, by what a step can do; RST and reset apart, all of it keeps a code in ERR. -/
theorem onlyResetClearsError : Obligations.OnlyResetClearsError := by
  intro s t code hf hstep
  obtain ⟨-, rfl⟩ | ⟨i, u, hfetch, hexec⟩ | hfetch := step_cases hstep
  · exact .inl hf
  · obtain ⟨tr, rest, hin, hdec, -, rfl⟩ := fetch_run hfetch
    by_cases hi : i = .rst
    · subst hi
      cases hexec
      exact .inr ⟨rfl, _, rest, hin, .inr ⟨tr, rfl, hdec⟩⟩
    · exact .inl ((exec_ends hexec fun h => absurd h hi).err_of_faulted hf)
  · obtain rfl | ⟨e, rest, hin, ⟨code', d, rfl⟩ | ⟨r, v, rfl⟩ | ⟨r, rfl⟩ | ⟨c, k, rfl⟩ | ⟨ch, i, v, -, rfl⟩ |
      ⟨rfl, rfl⟩⟩ := fetch_answered hfetch
    · exact .inl hf
    · exact .inl (((s.dequeue rest).refuse_ends code' d).err_of_faulted hf)
    · exact .inl (((s.dequeue rest).writeOperand_ends r v).err_of_faulted hf)
    · exact .inl (((s.dequeue rest).readRegister_ends r).err_of_faulted hf)
    · exact .inl (((s.dequeue rest).readWindow_ends c k).err_of_faulted hf)
    · exact .inl hf
    · exact .inr ⟨rfl, _, rest, hin, .inl rfl⟩

/-! The fault as an outcome of its own (60_exceptions R146). -/

/-- While `ERR = 0` the answer of a transaction says what ERR then holds. -/
theorem step_presented_answer_iff {s t : State} {tr : Transaction} (hb : s.busy = false) (he : s.err = none)
    (h : step (s.presented (.transaction tr)) = .next t) :
    (∀ code, t.err = some code ↔ ∃ d, t.answer = some ⟨.fault code, d⟩) ∧
      (t.err = none ↔ ∃ d, t.answer = some ⟨.done, d⟩) := by
  obtain ⟨herr, d, hans⟩ | ⟨code, rfl⟩ := (step_presented_ends hb (fun _ => he) h).of_unfaulted he
  · simp [herr, he, hans]
  · simp [he]

/-- A run of a machine, one step on. -/
theorem run_succ_of_step {M : Host.Core} {s u : M.State} (h : M.step s = .next u) (k : Nat) :
    M.run (k + 1) s = M.run k u := by
  rw [Host.Core.run, h]

/-- A run of the engine, one step on. -/
theorem core_run_succ {s u : State} (h : step s = .next u) (k : Nat) :
    Sys2Proof.core.run (k + 1) s = Sys2Proof.core.run k u :=
  run_succ_of_step (M := Sys2Proof.core) h k

/-- A good run ends well. -/
theorem goodRun_endedWell {k : Nat} {s t : State} (h : goodRun k s = some t) : t.EndedWell := by
  induction k generalizing s with
  | zero =>
    obtain ⟨hs, rfl⟩ := goodRun_zero.1 h
    exact hs
  | succ k ih =>
    obtain ⟨-, u, -, hu⟩ := goodRun_succ.1 h
    exact ih hu

/-- A good run is a run of the host's steps. -/
theorem goodRun_run {k : Nat} {s t : State} (h : goodRun k s = some t) : Sys2Proof.core.run k s = .next t := by
  induction k generalizing s with
  | zero =>
    obtain ⟨-, rfl⟩ := goodRun_zero.1 h
    rfl
  | succ k ih =>
    obtain ⟨-, u, hstep, hu⟩ := goodRun_succ.1 h
    exact (core_run_succ (engineStep_ordinary.1 hstep).1 k).trans (ih hu)

/-- A good run starts with `ERR = 0`. -/
theorem goodRun_err {k : Nat} {s t : State} (h : goodRun k s = some t) : s.err = none := by
  cases k with
  | zero => exact (goodRun_zero.1 h).1.2
  | succ k => exact (goodRun_succ.1 h).1

/-- `ERR = 0` after every number of steps of a good run. -/
theorem goodRun_unfaulted {k j : Nat} {s t : State} (h : goodRun k s = some t) (hj : j ≤ k) :
    ∃ u : State, Sys2Proof.core.run j s = .next u ∧ u.err = none := by
  induction j generalizing k s with
  | zero => exact ⟨s, rfl, goodRun_err h⟩
  | succ j ih =>
    obtain ⟨k, rfl⟩ : ∃ m, k = m + 1 := Nat.exists_eq_add_of_le' (by omega)
    obtain ⟨-, u, hstep, hu⟩ := goodRun_succ.1 h
    rw [core_run_succ (engineStep_ordinary.1 hstep).1 j]
    exact ih hu (by omega)

/-- Settles O58: the engine's step tells its outcomes apart by ERR, and the answer says what ERR holds. -/
theorem faultIsADistinctOutcome : Obligations.FaultIsADistinctOutcome := by
  refine ⟨fun s t tr hb he => ⟨fun code => ?_, ?_⟩, fun s t code hf h => ?_, fun k s t h => ?_⟩
  · rw [engineStep_fault]
    refine and_congr_right fun hstep => ?_
    rw [← (step_presented_answer_iff hb he hstep).1 code]
    exact and_iff_right he
  · rw [engineStep_ordinary]
    refine and_congr_right fun hstep => ?_
    rw [← (step_presented_answer_iff hb he hstep).2]
    exact imp_iff_right he
  · obtain ⟨-, he, -⟩ := engineStep_fault.1 h
    exact hf he
  · exact ⟨goodRun_endedWell h, goodRun_run h, fun j hj => goodRun_unfaulted h hj⟩

end Sys2Proof.Machine
end

section
namespace Sys2Proof.Machine

/-! The control port (20_memory R54; 43_parameters R125; 60_exceptions R149). -/

/-- `s` and `t` differ in nothing but the four parameters, `D`, the read cursor, ERR and the record of the answer. -/
def State.ControlReach (s t : State) : Prop :=
  t = { s with
    delayTime := t.delayTime, dryMix := t.dryMix, wetMix := t.wetMix, feedback := t.feedback
    delaySamples := t.delaySamples, rdPos := t.rdPos, err := t.err, answer := t.answer }

/-- SETDT's delay and read cursor are in reach. The rounded numbers stand as variables, so that nothing evaluates
them. -/
theorem State.retuned_controlReach (s : State) (v : F32) (d rd : Nat) :
    s.ControlReach (((s.putDelayTime v).putDelay d rd).finish none) := rfl

theorem execSetdt_controlReach {s t : State} {p : Port} {v : F32} (h : execSetdt p v s = .next t) :
    s.ControlReach t := by
  obtain ⟨-, rfl⟩ | ⟨-, -, rfl⟩ | ⟨-, -, -, rfl⟩ | ⟨-, -, -, -, -, rfl⟩ := execSetdt_next h
  · rfl
  · rfl
  · rfl
  · exact s.retuned_controlReach v _ _

/-- A mix setter stays in reach when the write of its register does. -/
theorem mixSetter_controlReach {s t put : State} {v : F32}
    (h : s.transact (mixCheck v) (.next (put.finish none)) = .next t) (hput : s.ControlReach (put.finish none)) :
    s.ControlReach t := by
  obtain ⟨-, rfl⟩ | ⟨-, -, rfl⟩ | ⟨-, -, rfl⟩ := mixSetter_next h
  · rfl
  · rfl
  · exact hput

/-- A setter stays in reach (43_parameters R126 to R129). -/
theorem exec_setter_controlReach {s t : State} {p : Port} {r : RegName} {v : Word} {i : Instr}
    (hset : setterAt p r v = some i) (h : exec i s = .next t) : s.ControlReach t := by
  cases r with
  | delayTime => cases hset; exact execSetdt_controlReach (p := p) h
  | dryMix => cases hset; exact mixSetter_controlReach h rfl
  | wetMix => cases hset; exact mixSetter_controlReach h rfl
  | feedback => cases hset; exact mixSetter_controlReach h rfl
  | _ => cases hset

theorem State.refuse_controlReach (s : State) (code : ErrCode) (data : Option Word) :
    s.ControlReach (s.refuse code data) := by
  unfold State.refuse
  split_ifs <;> rfl

/-- A control-port write asks for a setter or is forbidden. -/
theorem decodeTransaction_controlWrite_cases (addr : BitVec 20) (v : Word) :
    (∃ r i, setterAt .control r v = some i ∧ decodeTransaction (.controlWrite addr v) = .run i) ∨
      decodeTransaction (.controlWrite addr v) = .forbiddenWrite := by
  rw [decodeTransaction]
  split
  · obtain ⟨r, -, hset⟩ := Option.bind_eq_some_iff.1 ‹_›
    exact .inl ⟨r, _, hset, rfl⟩
  · exact .inr rfl

/-- Two transactions whose operations have one meaning are one step. -/
theorem step_presented_eq_of_exec_eq {s : State} {tr tr' : Transaction} {i j : Instr} (hb : s.busy = false)
    (htr : decodeTransaction tr = .run i) (htr' : decodeTransaction tr' = .run j) (h : exec i s = exec j s) :
    step (s.presented (.transaction tr)) = step (s.presented (.transaction tr')) := by
  rw [step_presented_run hb htr, step_presented_run hb htr', h]

/-- Settles O44: a read is refused, a write is refused or runs a setter, whose meaning does not use its port. -/
theorem controlPortReach : Obligations.ControlPortReach := by
  refine ⟨fun s t addr v e hb he hstep => ?_, fun s addr v hb hlo hhi => ?_⟩
  · change s.ControlReach t
    obtain rfl | rfl := he
    · have hread := s.takeEvent_forbiddenRead (controlRead_forbidden addr)
      cases (step_presented_answered (.inl hb) hread).symm.trans hstep
      exact s.refuse_controlReach _ _
    · obtain ⟨r, i, hset, hdec⟩ | hdec := decodeTransaction_controlWrite_cases (BitVec.ofNat 20 addr) v
      · exact exec_setter_controlReach hset ((step_presented_run hb hdec).symm.trans hstep)
      · cases (step_presented_answered (.inl hb) (s.takeEvent_forbiddenWrite hdec)).symm.trans hstep
        exact s.refuse_controlReach _ _
  · obtain ⟨hdt, hdry, hwet, hfb⟩ := decodeTransaction_encodeSetter .control v
    obtain ⟨hdt', hdry', hwet', hfb'⟩ := decodeTransaction_encodeSetter .host v
    interval_cases addr
    · exact step_presented_eq_of_exec_eq hb hdt hdt' rfl
    · exact step_presented_eq_of_exec_eq hb hdry hdry' rfl
    · exact step_presented_eq_of_exec_eq hb hwet hwet' rfl
    · exact step_presented_eq_of_exec_eq hb hfb hfb' rfl

end Sys2Proof.Machine
end
